-- ==== Sys2Proof/Word.lean ====
section
/-! DEFINITION. The word types of the engine: 32-bit registers and addresses, 16-bit instruction and
status words, 8-bit bytes (spec 10_state.md R21, R24; 20_memory.md R60). -/

namespace Sys2Proof

/-- A register, an address or a long: 32 bits (R21, R22, R24, R61). -/
abbrev Word := BitVec 32

/-- An instruction word or a packed status register: 16 bits (R90, R161). -/
abbrev HalfWord := BitVec 16

/-- A byte: 8 bits (R60). -/
abbrev Byte := BitVec 8

end Sys2Proof
end

