-- ==== Sys2Proof/Machine/Constants.lean ====
section
/-! DEFINITION. The vectors the document fixes (00_scope.md R8), and the spec's own values of the
parameters of R9, which `Params.standard` gathers: the machine reads the parameters, not these. -/

namespace Sys2Proof

/-- ILLEGAL_OPCODE_CYCLES: the charge of the illegal-opcode handler (R120, R250). -/
def Config.illegalOpcodeCycles : Int := 4

/-- IRQ_SERVICE_CYCLES: the overhead billed for a delivered interrupt (R193 step 8, R250). -/
def Config.irqServiceCycles : Int := 56

/-- Vector of the generic illegal instruction (R123). -/
def Config.vecIllegal : Byte := 0x04

/-- Vector of the line A trap (R122). -/
def Config.vecLineA : Byte := 0x0A

/-- Vector of the line F trap (R121). -/
def Config.vecLineF : Byte := 0x0B

/-- Vector of a spurious interrupt, and the base of the autovectors (R191). -/
def Config.vecSpurious : Byte := 24

/-- VEC_UNINITIALIZED_INTERRUPT (R193). PRESUMED, log entry 8. -/
def Config.vecUninitializedInterrupt : Byte := 15

/-- ACK_AUTOVECTOR (R101). DEDUCED, log entry 9. -/
def Config.ackAutovector : Word := 0xFFFFFFFF

/-- ACK_SPURIOUS (R101). DEDUCED, log entry 9. -/
def Config.ackSpurious : Word := 0xFFFFFFFE

/-- RESET_MASK (R44). PRESUMED, log entry 4. -/
def Config.resetMask : BitVec 3 := 7

/-- RESET_S (R44). PRESUMED, log entry 4. -/
def Config.resetSupervisor : Bool := true

/-- RESET_T (R44). PRESUMED, log entry 4. -/
def Config.resetTrace : Bool := false

/-- CLOCK_MULT_POWER_ON (R35, R45). -/
def Config.clockMultPowerOn : Int := 1

/-- SR_LAYOUT: the bit of T, the bit of S, the lowest bit of the mask and of cc (R161), and CC_BITS
(R26). PRESUMED, log entry 7. -/
def Config.srTraceBit : Nat := 15
@[inherit_doc Config.srTraceBit] def Config.srSupervisorBit : Nat := 13
@[inherit_doc Config.srTraceBit] def Config.srMaskShift : Nat := 8
@[inherit_doc Config.srTraceBit] def Config.srCcShift : Nat := 0
@[inherit_doc Config.srTraceBit] def Config.ccBits : Nat := 5

/-- What a byte of memory that nothing has written reads as. DESIGN CHOICE, log entry 5. -/
def Config.unlistedByte : Byte := 0

end Sys2Proof
end

