-- ==== Sys2Proof/Syntax.lean ====
section
/-! DEFINITION. The instructions: one constructor per row of spec/opcode_table.json (four kinds of
instruction word, fourteen commands), the register identifiers of R98, and the packets that carry
them (an instruction word in memory, a transaction of the command port). -/

namespace Sys2Proof

/-- The register identifiers of 30_encoding.md R98: its 24 names (`d` and `a` stand for eight each),
and `other n` for a value that is no identifier (n below 0 or above 23). -/
inductive RegId where
  | d (i : Fin 8)      -- REG_D0 to REG_D7
  | a (i : Fin 8)      -- REG_A0 to REG_A7
  | pc                 -- REG_PC
  | sr                 -- REG_SR
  | sp                 -- REG_SP, the stack-pointer alias
  | usp                -- REG_USP
  | prefAddr           -- REG_PREF_ADDR
  | prefData           -- REG_PREF_DATA
  | ppc                -- REG_PPC
  | ir                 -- REG_IR
  | other (n : Int)    -- any other value
deriving DecidableEq, Repr

/-- The instructions of spec/opcode_table.json. The first four are what a fetched word can be
(R94, R104); the others are the commands of R99. -/
inductive Instr where
  | lineF (payload : BitVec 12)
  | lineA (payload : BitVec 12)
  | illegal (op : HalfWord)
  | external (op : HalfWord)
  | pulseReset
  | execute (cycleBudget : Int)
  | raiseIRQ (level : Int)
  | get (reg : RegId)
  | set (reg : RegId) (value : Word)
  | isValidInstruction (opcode : HalfWord)
  | cyclesRun
  | cyclesRemaining
  | modifyTimeslice (cycles : Int)
  | endTimeslice
  | setClockMultiplier (value : Int)
  | getClockMultiplier
  | debugHalt
  | debugResume
deriving DecidableEq, Repr

/-- One transaction of the command port: the command code (R99; four bits, carried in a byte whose
upper half is 0) and the operands as integers, in the order R99 lists them (log entry 16). -/
structure CmdPacket where
  code : Byte
  args : List Int
deriving DecidableEq, Repr

/-- What an instruction is encoded as: a word of the instruction stream or a command transaction. -/
inductive Packet where
  | word (op : HalfWord)
  | command (c : CmdPacket)
deriving DecidableEq, Repr

end Sys2Proof
end

