-- ==== Sys2Proof/Config.lean ====
section
/-! DEFINITION. What is fixed for a machine and what the spec leaves open: the parameters held as plain
data (`Params`), the dispatch-table types of R102 and R110, external handlers as programs, the turns
of the collaborators, and the free values (opaque, no body). -/

namespace Sys2Proof

/-! ## Dispatch-table parameters (R102, R110 to R112) -/

/-- A handler id: the engine's own illegal-opcode handler, or an external handler (R110). -/
inductive HandlerId where
  | illegal
  | external (id : Nat)
deriving DecidableEq, Repr

/-- A row of DESC (R102). Its handler is always an external one (R111). -/
structure Descriptor where
  pattern : HalfWord      -- `match` of R102
  pmask   : HalfWord
  tag     : String
  handler : Nat
  clev    : Nat
deriving DecidableEq, Repr

/-- An entry of DECODE (R102): only whether the mnemonic is "illegal" is used. -/
structure DecodeEntry where
  isIllegal : Bool
  clev      : Nat
  redirect  : Option HalfWord
deriving DecidableEq, Repr

/-- The dispatch table (R38) as plain data: the descriptors in force, the last applied first, and
the slots step 3 of R113 wrote over them (log entry 18). `Table.lookup` reads a slot. -/
structure Table where
  rows  : List Descriptor
  slots : List (HalfWord × Nat)
deriving DecidableEq, Repr, Inhabited

/-- Step 1 of R113: every slot holds the illegal-opcode handler. -/
def Table.allIllegal : Table := { rows := [], slots := [] }

/-! ## External handlers as programs (R116 to R119, log entry 10) -/

/-- The width of a bus primitive (R60). -/
inductive Size where
  | byte
  | word
  | long
deriving DecidableEq, Repr

/-- Operations of one operand in a handler's expressions. -/
inductive UnaryOp where
  | signExtend8
  | signExtend16
deriving DecidableEq, Repr

/-- Operations of two operands in a handler's expressions; a comparison gives 1 or 0. -/
inductive BinaryOp where
  | add
  | sub
  | mul
  | and
  | or
  | xor
  | shiftLeft
  | shiftRight
  | shiftRightSigned
  | equal
  | lessUnsigned
  | lessSigned
deriving DecidableEq, Repr

/-- The two cycle counters of the Register File (R20, R32, R33). -/
inductive Counter where
  | remaining
  | interruptCycles
deriving DecidableEq, Repr

/-- What a handler computes from the opcode word, the Register File (all of R20's list, R116) and what
it has read. The counters are integers of any size, so a handler reads one word of them at a time or
compares them with a bound. -/
inductive HandlerExpr where
  | const (v : Word)
  | opcode                             -- the word just fetched, zero-extended
  | d (i : Fin 8)
  | a (i : Fin 8)
  | pc
  | sr                                 -- the packed status word, zero-extended
  | stopped                            -- 1 or 0
  | haltReq                            -- the special-flags bit (R31), 1 or 0
  | intLevel                           -- the latched level (R36), zero-extended
  | counterPart (c : Counter) (n : Nat)          -- its n-th 32 bits in two's complement
  | counterBelow (c : Counter) (bound : Int)     -- 1 where the counter is below the bound, else 0
  | temp (n : Nat)                     -- what its n-th bus read returned
  | unary (o : UnaryOp) (e : HandlerExpr)
  | binary (o : BinaryOp) (e f : HandlerExpr)
deriving DecidableEq, Repr

/-- One thing a handler does, operands computed when it is done. The contract of R118 is the type:
nothing else of the engine's state can be written, and `remaining` only by a stopping handler. -/
inductive HandlerAction where
  | setD (i : Fin 8) (e : HandlerExpr)
  | setA (i : Fin 8) (e : HandlerExpr)
  | setPc (e : HandlerExpr)
  | setCc (e : HandlerExpr)
  | setMask (e : HandlerExpr)
  | setSupervisor (e : HandlerExpr)
  | setTrace (e : HandlerExpr)
  | unpackSR (e : HandlerExpr)                       -- as a return from exception does (R198)
  | setStopped (b : Bool)
  | stop                                             -- `stopped <- 1; remaining <- 0` (R119)
  | write (size : Size) (address value : HandlerExpr)
  | raiseException (vector : Byte)                   -- R118, R183
deriving DecidableEq, Repr

/-- An external handler: actions, bus reads whose answers the rest may use, choices, and at the end
the signed cost (R115), or no end at all (93 U13). -/
inductive HandlerProg where
  | returns (cost : Int)
  | hangs
  | act (action : HandlerAction) (rest : HandlerProg)
  | read (size : Size) (address : HandlerExpr) (rest : HandlerProg)
  | choose (condition : HandlerExpr) (yes no : HandlerProg)
deriving DecidableEq, Repr, Inhabited

/-- What a handler that is not given as a program may depend on besides its bus reads (R116): the
Register File of R20, and memory. -/
structure HandlerView where
  d               : Vector Word 8
  a               : Vector Word 8
  pc              : Word
  cc              : HalfWord
  mask            : BitVec 3
  supervisor      : Bool
  trace           : Bool
  stopped         : Bool
  haltReq         : Bool
  remaining       : Int
  interruptCycles : Int
  intLevel        : BitVec 3
  mem             : List (Nat × Byte)
deriving DecidableEq, Repr

/-! ## Parameters with more than one admitted setting (R9) -/

/-- MODIFY_TIMESLICE_MODE, OPEN (R143, decision D16). -/
inductive TimesliceMode where
  | set
  | add
deriving DecidableEq, Repr, Inhabited

/-- END_OF_QUANTUM_ORDER (R139, decision D13). -/
inductive QuantumOrder where
  | countThenDischarge
  | dischargeThenCount
deriving DecidableEq, Repr

/-- LOOP_TEST (R138, decision D12). -/
inductive LoopTest where
  | after
  | before
deriving DecidableEq, Repr

/-- BYTE_ORDER of the default BUS (R63, decision D5): `big` has the most significant byte at the
lowest address. -/
inductive ByteOrder where
  | big
  | little
deriving DecidableEq, Repr

/-- SR_LAYOUT and CC_BITS (R161, R26): where the fields stand in the packed status word. -/
structure SrLayout where
  traceBit      : Nat
  supervisorBit : Nat
  maskShift     : Nat
  ccShift       : Nat
  ccBits        : Nat
deriving DecidableEq, Repr

/-- The bit positions the fields take. -/
def SrLayout.positions (l : SrLayout) : List Nat :=
  l.traceBit :: l.supervisorBit :: (List.range 3).map (l.maskShift + ·) ++
    (List.range l.ccBits).map (l.ccShift + ·)

/-- The fields stand inside the word and apart from each other. -/
def SrLayout.wf (l : SrLayout) : Bool :=
  decide l.positions.Nodup && l.positions.all (· < 16)

/-- The bits of a word that belong to some field. -/
def SrLayout.fieldBits (l : SrLayout) : HalfWord :=
  l.positions.foldr (fun k w => BitVec.twoPow 16 k ||| w) 0

/-- The CC_BITS low bits of a value. -/
def SrLayout.ccField (l : SrLayout) (v : HalfWord) : HalfWord :=
  v &&& BitVec.ofNat 16 (2 ^ l.ccBits - 1)

/-- The parameters of R9: DESC, DECODE (only entries that are not the plain illegal one are listed,
in ascending order of opcode), HANDLERS by id (a handler of an id not listed is a free value), the
settings with alternatives, and the named constants. -/
structure Params where
  desc                      : List Descriptor
  decode                    : List (HalfWord × DecodeEntry)
  handlers                  : List (Nat × HandlerProg)
  modifyTimesliceMode       : TimesliceMode
  endOfQuantumOrder         : QuantumOrder
  loopTest                  : LoopTest
  illegalZeroVectorFallback : Bool
  illegalOpcodeCycles       : Int
  irqServiceCycles          : Int
  vecUninitializedInterrupt : Byte
  ackAutovector             : Word
  ackSpurious               : Word
  srLayout                  : SrLayout
  byteOrder                 : ByteOrder
  resetMask                 : BitVec 3
  resetSupervisor           : Bool
  resetTrace                : Bool
  clockMultPowerOn          : Int
deriving DecidableEq, Repr

/-! ## Turns of the collaborators, as plain data -/

/-- The commands a COLLABORATOR may issue inside a bus call, the acknowledge callback or the hook:
the eleven of R5 (log entry 15). -/
inductive CollabCmd where
  | raiseIRQ (level : BitVec 3)
  | debugHalt
  | debugResume
  | get (reg : RegId)
  | set (reg : RegId) (value : Word)
  | cyclesRun
  | cyclesRemaining
  | modifyTimeslice (cycles : Int)
  | endTimeslice
  | isValidInstruction (opcode : HalfWord)
  | getClockMultiplier
deriving DecidableEq, Repr

/-- What happens in one bus call beyond the default memory (R65, R66; log entry 14): the value a
device answers a read with, whether a write fails to reach memory, and the commands issued. -/
structure BusEvent where
  answer : Option Word
  lost   : Bool
  cmds   : List CollabCmd
deriving DecidableEq, Repr

/-- A bus call with nothing but the default memory in it. -/
def BusEvent.quiet : BusEvent := { answer := none, lost := false, cmds := [] }

/-- What the acknowledge callback answers (R101): the tagged form, `vector n` with any 32-bit n, or
the integer form. -/
inductive AckAnswer where
  | autovector
  | spurious
  | vector (n : Word)
  | integer (r : Word)
deriving DecidableEq, Repr, Inhabited

/-- One acknowledge call: the commands the callback issues, then its answer (R190). -/
structure AckRun where
  cmds   : List CollabCmd
  answer : AckAnswer
deriving DecidableEq, Repr, Inhabited

/-! ## Free values: nothing constrains them -/

/-- The general registers after a `pulseReset` (R44): by draw and register number (0 to 15).
Log entry 3. -/
opaque Config.freeReg : Nat → Nat → Word

/-- The condition codes after a `pulseReset` (R44), by draw. Log entry 3. -/
opaque Config.freeCc : Nat → HalfWord

/-- The words and bits R45 leaves unspecified at power-on, by number. Log entry 24. -/
opaque Config.powerOnWord : Nat → Word

/-- The counters R45 leaves unspecified at power-on, by number. Log entry 24. -/
opaque Config.powerOnCount : Nat → Int

/-- TABLE at power-on: before its construction it has no defined content (R38, R45). Log entry 24. -/
opaque Config.powerOnTable : Table

/-- A handler that is not given as a program (R9, R116): what it does, by handler id, opcode word,
what it sees of the machine, and draw (for what it keeps in a state of its own). Log entry 10. -/
opaque Config.freeHandler : Nat → HalfWord → HandlerView → Nat → HandlerProg

/-- What an acknowledge callback whose turn is not listed does: by level and draw (R190).
Log entry 12. -/
opaque Config.freeAckRun : BitVec 3 → Nat → AckRun

/-- The setting of the OPEN parameter MODIFY_TIMESLICE_MODE (R143) in the reset state.
Log entry 20. -/
opaque Config.openTimesliceMode : TimesliceMode

/-- The parameters of the reset state: no descriptor, every DECODE entry plainly illegal (log entry
2), no handler given, and the spec's own values of the rest (log entries 4, 6 to 9, 20, 21, 23). -/
def Params.standard : Params where
  desc                      := []
  decode                    := []
  handlers                  := []
  modifyTimesliceMode       := Config.openTimesliceMode
  endOfQuantumOrder         := .countThenDischarge
  loopTest                  := .after
  illegalZeroVectorFallback := false
  illegalOpcodeCycles       := Config.illegalOpcodeCycles
  irqServiceCycles          := Config.irqServiceCycles
  vecUninitializedInterrupt := Config.vecUninitializedInterrupt
  ackAutovector             := Config.ackAutovector
  ackSpurious               := Config.ackSpurious
  srLayout                  :=
    { traceBit := Config.srTraceBit, supervisorBit := Config.srSupervisorBit
      maskShift := Config.srMaskShift, ccShift := Config.srCcShift, ccBits := Config.ccBits }
  byteOrder                 := .big
  resetMask                 := Config.resetMask
  resetSupervisor           := Config.resetSupervisor
  resetTrace                := Config.resetTrace
  clockMultPowerOn          := Config.clockMultPowerOn

end Sys2Proof
end

