-- ==== Sys2Proof/Machine/Table.lean ====
section
/-! DEFINITION. The opcode dispatch table: reading a slot (R38, R93), building it (R113, R114), and
the same construction written as the spec's loops over all 65536 slots, for comparison. -/

namespace Sys2Proof

/-! ## Fields of an instruction word (R91, R94) -/

/-- The top nibble of an instruction word (R91). -/
def topNibble (op : HalfWord) : BitVec 4 := op.extractLsb' 12 4

/-- The payload of an instruction word (R91). -/
def wordPayload (op : HalfWord) : BitVec 12 := op.extractLsb' 0 12

/-- The word `0xF###` with a payload (R94). -/
def lineFWord (payload : BitVec 12) : HalfWord := (0xF : BitVec 4) ++ payload

/-- The word `0xA###` with a payload (R94). -/
def lineAWord (payload : BitVec 12) : HalfWord := (0xA : BitVec 4) ++ payload

/-! ## Slots -/

/-- Does a descriptor's pattern match an opcode (R102)? -/
def Descriptor.covers (d : Descriptor) (op : HalfWord) : Bool :=
  op &&& d.pmask == d.pattern

/-- The handler of a slot that step 3 of R113 has not written: the last descriptor applied that
matches, else the illegal-opcode handler (R113 steps 1, 2). `rows` holds the last applied first. -/
def rowHandler : List Descriptor → HalfWord → HandlerId
  | [], _ => .illegal
  | d :: rest, op => if d.covers op then .external d.handler else rowHandler rest op

/-- The handler step 3 wrote into a slot, if it did. -/
def slotHandler : List (HalfWord × Nat) → HalfWord → Option Nat
  | [], _ => none
  | (k, h) :: rest, op => if k = op then some h else slotHandler rest op

/-- `TABLE[op]` (R38, R93): total, one handler for every 16-bit word. -/
def Table.lookup (t : Table) (op : HalfWord) : HandlerId :=
  match slotHandler t.slots op with
  | some h => .external h
  | none => rowHandler t.rows op

/-- Step 3 of R113 for one opcode: copy the handler installed at the redirect target, or abort
(`none`) where that is still the illegal-opcode handler (R114). -/
def installEntry (t : Table) (op : HalfWord) (e : DecodeEntry) : Option Table :=
  if e.isIllegal then some t
  else if e.clev ≠ 0 then some t
  else
    match e.redirect with
    | none => some t
    | some r =>
      match t.lookup r with
      | .illegal => none
      | .external h => some { t with slots := (op, h) :: t.slots }

/-- Step 3 of R113 over the listed DECODE entries, in their (ascending) order. -/
def walkDecode : List (HalfWord × DecodeEntry) → Table → Option Table
  | [], t => some t
  | (op, e) :: rest, t =>
    match installEntry t op e with
    | none => none
    | some t' => walkDecode rest t'

/-- `buildTable()` (R113); `none` is the fatal construction error of R114. -/
def buildTable (desc : List Descriptor) (decode : List (HalfWord × DecodeEntry)) : Option Table :=
  walkDecode decode { rows := desc.reverse, slots := [] }

/-! ## The same construction as the spec writes it, over a map of all 65536 words -/

/-- A table as the spec's array: one handler for each word. -/
abbrev SlotMap := HalfWord → HandlerId

/-- Step 2 of R113 for one descriptor. -/
def loopDescriptor (m : SlotMap) (d : Descriptor) : SlotMap :=
  fun op => if d.covers op then .external d.handler else m op

/-- The DECODE entry of an opcode: the listed one, else the plain illegal entry. -/
def decodeAt : List (HalfWord × DecodeEntry) → HalfWord → DecodeEntry
  | [], _ => { isIllegal := true, clev := 0, redirect := none }
  | (k, e) :: rest, op => if k = op then e else decodeAt rest op

/-- Step 3 of R113 for one opcode. -/
def loopEntry (m : SlotMap) (op : HalfWord) (e : DecodeEntry) : Option SlotMap :=
  if e.isIllegal then some m
  else if e.clev ≠ 0 then some m
  else
    match e.redirect with
    | none => some m
    | some r =>
      match m r with
      | .illegal => none
      | .external h => some (fun op' => if op' = op then .external h else m op')

/-- Step 3 of R113 for the opcodes from `op` upward, `n` of them. -/
def loopWalk (decode : List (HalfWord × DecodeEntry)) : (n : Nat) → (op : Nat) → SlotMap → Option SlotMap
  | 0, _, m => some m
  | n + 1, op, m =>
    match loopEntry m (BitVec.ofNat 16 op) (decodeAt decode (BitVec.ofNat 16 op)) with
    | none => none
    | some m' => loopWalk decode n (op + 1) m'

/-- R113 read line by line: fill, apply the descriptors in list order, walk all 65536 opcodes. -/
def buildByLoops (desc : List Descriptor) (decode : List (HalfWord × DecodeEntry)) : Option SlotMap :=
  loopWalk decode 65536 0 (desc.foldl loopDescriptor (fun _ => .illegal))

/-- The listed DECODE entries stand in strictly ascending order of opcode, from `lo` upward. -/
def decodeAscending (lo : Nat) : List (HalfWord × DecodeEntry) → Bool
  | [] => true
  | (k, _) :: rest => decide (lo ≤ k.toNat) && decodeAscending (k.toNat + 1) rest

/-- The parameters the spec admits: DECODE listed in ascending order, construction does not abort
(R114), the three slots of R95 hold the illegal-opcode handler, the fields of the status word stand
apart (R161), the multiplier starts at 1 or more (R35) and interrupts cost no negative cycles (R33). -/
def Params.admitted (p : Params) : Bool :=
  decodeAscending 0 p.decode && p.srLayout.wf && decide (1 ≤ p.clockMultPowerOn) &&
    decide (0 ≤ p.irqServiceCycles) &&
  match buildTable p.desc p.decode with
  | none => false
  | some t =>
    decide (t.lookup 0xF123 = .illegal) && decide (t.lookup 0xA456 = .illegal) &&
      decide (t.lookup 0x4AFC = .illegal)

end Sys2Proof
end

