-- ==== Sys2Proof/WellFormed.lean ====
section
/-! DEFINITION. Which instructions are well formed: an instruction word belongs to the kind its slot
of the dispatch table and its top nibble select (R94, R104); command operands are in their ranges
(R98, R99, R100). -/

namespace Sys2Proof

/-- `other n` stands only for values that are no identifier (R98). -/
def RegId.wellFormed : RegId → Bool
  | .other n => decide (n < 0) || decide (24 ≤ n)
  | .d _ | .a _ | .pc | .sr | .sp | .usp | .prefAddr | .prefData | .ppc | .ir => true

/-- Well-formedness under a dispatch table. -/
def Instr.wellFormed (t : Table) : Instr → Bool
  | .lineF payload => decide (t.lookup (lineFWord payload) = .illegal)
  | .lineA payload => decide (t.lookup (lineAWord payload) = .illegal)
  | .illegal op =>
    decide (t.lookup op = .illegal) && decide (topNibble op ≠ 0xF) && decide (topNibble op ≠ 0xA)
  | .external op => decide (t.lookup op ≠ .illegal)
  | .execute budget => decide (0 ≤ budget)
  | .raiseIRQ level => decide (0 ≤ level) && decide (level ≤ 7)
  | .get reg => reg.wellFormed
  | .set reg _ => reg.wellFormed
  | .pulseReset | .isValidInstruction _ | .cyclesRun | .cyclesRemaining | .modifyTimeslice _
  | .endTimeslice | .setClockMultiplier _ | .getClockMultiplier | .debugHalt | .debugResume => true

end Sys2Proof
end

