-- ==== Sys2Proof/Decode.lean ====
section
/-! DEFINITION. The decoder, total on any packet and on any bytes, rejecting by name, and after it
the encoder (30_encoding.md R90 to R104). -/

namespace Sys2Proof

/-- Why a packet is no instruction. -/
inductive DecodeError where
  | commandUnassigned      -- a code that is none of 0 to 13 (R99: 14 and 15 are refused)
  | operandCount           -- not the operands R99 lists for the code
  | operandOutOfRange      -- a 32-bit value or a 16-bit opcode that does not fit (R99)
  | wordTruncated          -- fewer than the two bytes of an instruction word (R90)
deriving DecidableEq, Repr

/-- A fetched word (R93, R94, R104): the slot decides between EXTERNAL and the illegal-opcode
handler, whose kinds the top nibble tells apart. -/
def decodeWord (t : Table) (op : HalfWord) : Instr :=
  match t.lookup op with
  | .external _ => .external op
  | .illegal =>
    if topNibble op = 0xF then .lineF (wordPayload op)
    else if topNibble op = 0xA then .lineA (wordPayload op)
    else .illegal op

/-- A register identifier from its number (R98). -/
def RegId.ofInt (n : Int) : RegId :=
  if n < 0 then .other n
  else if n < 8 then .d (Fin.ofNat 8 n.toNat)
  else if n < 16 then .a (Fin.ofNat 8 (n.toNat - 8))
  else if n = 16 then .pc
  else if n = 17 then .sr
  else if n = 18 then .sp
  else if n = 19 then .usp
  else if n = 20 then .prefAddr
  else if n = 21 then .prefData
  else if n = 22 then .ppc
  else if n = 23 then .ir
  else .other n

/-- A 32-bit operand of a command. -/
def decodeValue (v : Int) : Except DecodeError Word :=
  if 0 ≤ v ∧ v < 2 ^ 32 then .ok (BitVec.ofInt 32 v) else .error .operandOutOfRange

/-- A 16-bit opcode operand of a command. -/
def decodeOpcode (v : Int) : Except DecodeError HalfWord :=
  if 0 ≤ v ∧ v < 2 ^ 16 then .ok (BitVec.ofInt 16 v) else .error .operandOutOfRange

/-- How many operands a command has (R99). -/
def commandArity (code : Byte) : Nat :=
  match code.toNat with
  | 1 | 2 | 3 | 5 | 8 | 10 => 1
  | 4 => 2
  | _ => 0

/-- A command transaction (R99). -/
def decodeCommand (c : CmdPacket) : Except DecodeError Instr :=
  match c.code.toNat, c.args with
  | 0, [] => .ok .pulseReset
  | 1, [n] => .ok (.execute n)
  | 2, [level] => .ok (.raiseIRQ level)
  | 3, [reg] => .ok (.get (RegId.ofInt reg))
  | 4, [reg, v] => (decodeValue v).map (fun w => .set (RegId.ofInt reg) w)
  | 5, [op] => (decodeOpcode op).map (fun w => .isValidInstruction w)
  | 6, [] => .ok .cyclesRun
  | 7, [] => .ok .cyclesRemaining
  | 8, [n] => .ok (.modifyTimeslice n)
  | 9, [] => .ok .endTimeslice
  | 10, [v] => .ok (.setClockMultiplier v)
  | 11, [] => .ok .getClockMultiplier
  | 12, [] => .ok .debugHalt
  | 13, [] => .ok .debugResume
  | n, _ => if n < 14 then .error .operandCount else .error .commandUnassigned

/-- The decoder on packets, under a dispatch table. -/
def decodePacket (t : Table) : Packet → Except DecodeError Instr
  | .word op => .ok (decodeWord t op)
  | .command c => decodeCommand c

/-- The decoder on the bytes of the instruction stream: one word in the byte order of the BUS, which
fetches share with data (R63, R90), and the bytes after it. -/
def decodeBytes (order : ByteOrder) (t : Table) : List Byte → Except DecodeError (Instr × List Byte)
  | first :: second :: rest =>
    match order with
    | .big => .ok (decodeWord t (first ++ second), rest)
    | .little => .ok (decodeWord t (second ++ first), rest)
  | _ => .error .wordTruncated

/-- A command row of the opcode table: the code in a byte, every operand 0. -/
def zeroOperandCommand (code : Byte) : CmdPacket :=
  { code, args := List.replicate (commandArity code) 0 }

/-- The instruction the decoder reads from a word numbered as spec/opcode_table.json numbers it: a
16-bit row is an instruction word, read under the table of R113 step 1 (the table of the reset
state); a 4-bit row is a command code in one byte, with operands of zeros. -/
def decodeTableWord (nbits w : Nat) : Option Instr :=
  if nbits = 16 then
    match decodeBytes .big .allIllegal [BitVec.ofNat 8 (w / 256), BitVec.ofNat 8 (w % 256)] with
    | .ok (i, _) => if w < 65536 then some i else none
    | .error _ => none
  else if nbits = 8 ∧ w < 256 then (decodeCommand (zeroOperandCommand (BitVec.ofNat 8 w))).toOption
  else none

/-! ## The encoder -/

/-- The number of a register identifier (R98). -/
def RegId.toInt : RegId → Int
  | .d i => i.val
  | .a i => 8 + i.val
  | .pc => 16
  | .sr => 17
  | .sp => 18
  | .usp => 19
  | .prefAddr => 20
  | .prefData => 21
  | .ppc => 22
  | .ir => 23
  | .other n => n

/-- The word or the command transaction of an instruction (R94, R99). -/
def encode : Instr → Packet
  | .lineF payload => .word (lineFWord payload)
  | .lineA payload => .word (lineAWord payload)
  | .illegal op => .word op
  | .external op => .word op
  | .pulseReset => .command ⟨0, []⟩
  | .execute n => .command ⟨1, [n]⟩
  | .raiseIRQ level => .command ⟨2, [level]⟩
  | .get reg => .command ⟨3, [reg.toInt]⟩
  | .set reg v => .command ⟨4, [reg.toInt, v.toNat]⟩
  | .isValidInstruction op => .command ⟨5, [op.toNat]⟩
  | .cyclesRun => .command ⟨6, []⟩
  | .cyclesRemaining => .command ⟨7, []⟩
  | .modifyTimeslice n => .command ⟨8, [n]⟩
  | .endTimeslice => .command ⟨9, []⟩
  | .setClockMultiplier v => .command ⟨10, [v]⟩
  | .getClockMultiplier => .command ⟨11, []⟩
  | .debugHalt => .command ⟨12, []⟩
  | .debugResume => .command ⟨13, []⟩

end Sys2Proof
end

