-- ==== Sys2Proof/Machine/State.lean ====
section
/-! DEFINITION. The machine's state as plain data (10_state.md R20 to R46), the reasons a step can
stop, the state right after reset (R44) and the power-on states (R45). -/

namespace Sys2Proof.Machine

/-- What a command returned (R6, R99). -/
inductive Result where
  | value (v : Word)
  | count (n : Int)
  | truth (b : Bool)
deriving DecidableEq, Repr

/-- Memory behind the default BUS: address and byte, addresses strictly rising, no entry equal to
what an unlisted address reads as (log entry 5). -/
abbrev Memory := List Host.Cell

/-- All the spec gives the engine, the default BUS's memory, the parameters, and the model's own
ports and collaborator turns. -/
structure State where
  d               : Vector Word 8          -- D[0] to D[7] (R21)
  a               : Vector Word 8          -- A[0] to A[7]; A[7] is the stack pointer (R22)
  pc              : Word                   -- R24
  cc              : HalfWord               -- the condition codes, in the low CC_BITS bits (R26)
  mask            : BitVec 3               -- R27
  supervisor      : Bool                   -- the spec's s (R28)
  trace           : Bool                   -- the spec's t (R29)
  stopped         : Bool                   -- R30
  haltReq         : Bool                   -- R31
  remaining       : Int                    -- R32
  interruptCycles : Int                    -- R33
  quantumBudget   : Int                    -- R34
  clockMult       : Int                    -- R35
  intLevel        : BitVec 3               -- R36
  irqPending      : Bool                   -- R37
  pendingLevel    : BitVec 3               -- R37
  table           : Table                  -- TABLE (R38)
  tableBuilt      : Bool                   -- R38
  inExecute       : Bool                   -- R40
  hung            : Bool                   -- a handler in flight never returns (93 U13, log entry 11)
  mem             : Memory                 -- behind BUS (R63)
  params          : Params                 -- R9; no step writes them (log entry 1)
  cmds            : List CmdPacket         -- HOST's commands, oldest first (log entry 16)
  result          : Option Result          -- of the last HOST command (log entry 16)
  collabResult    : Option Result          -- of the last COLLABORATOR command (log entry 16)
  ackRuns         : List AckRun            -- next acknowledge calls (log entry 12)
  hookRuns        : List (List CollabCmd)  -- next hook calls (log entry 13)
  busEvents       : List BusEvent          -- next bus calls (log entry 14)
  draws           : Nat                    -- free values drawn so far (log entry 3)
deriving DecidableEq, Repr

/-- Why the machine stops. -/
inductive Fault where
  /-- Raised by `pulseReset` where table construction ends on the illegal-opcode handler (R114):
  process-terminating in the spec, so no behaviour is lost. Safe. -/
  | tableConstructionAbort
deriving DecidableEq, Repr

/-- Why a command has no step (`refuse` of R12). -/
inductive Refusal where
  /-- Raised by exec for an instruction that has no meaning yet; no arm raises it. Safe. -/
  | notModelled (mnemonic : String)
  /-- Raised by the commands R236 refuses before the first `pulseReset`. Safe. -/
  | beforeFirstReset
  /-- Raised by `execute` and `pulseReset` inside `execute` (R40, R130, R230, R244). Safe. -/
  | reentrant
  /-- Raised by `execute` with a negative budget (R130). Safe. -/
  | negativeBudget
  /-- Raised by `raiseIRQ` with a level outside 0 to 7 (R100). Safe. -/
  | levelOutOfRange
  /-- Raised by `setClockMultiplier` inside a quantum (R147). Safe. -/
  | multiplierInsideQuantum
  /-- Raised by `step` for a command transaction that decodes to no command (R99). Safe. -/
  | undecodable (e : DecodeError)
deriving DecidableEq, Repr

/-- The answer of a step or of an instruction's meaning. -/
abbrev Answer := Host.Outcome State Fault Refusal

/-- The state right after the first `pulseReset` from power-on (R44, R45), over memory with nothing
listed. D, A[0] to A[6] and cc: DESIGN CHOICE 0, log entry 3; parameters: log entry 2. -/
def State.reset : State where
  d               := Vector.replicate 8 0
  a               := Vector.replicate 8 0
  pc              := 0
  cc              := 0
  mask            := Config.resetMask
  supervisor      := Config.resetSupervisor
  trace           := Config.resetTrace
  stopped         := false
  haltReq         := false
  remaining       := 0
  interruptCycles := 0
  quantumBudget   := 0
  clockMult       := Config.clockMultPowerOn
  intLevel        := 0
  irqPending      := false
  pendingLevel    := 0
  table           := .allIllegal
  tableBuilt      := true
  inExecute       := false
  hung            := false
  mem             := []
  params          := .standard
  cmds            := []
  result          := none
  collabResult    := none
  ackRuns         := []
  hookRuns        := []
  busEvents       := []
  draws           := 0

/-- The power-on state under parameters `p` (R45), over memory with nothing listed: the values R45
fixes, and a free value for every element it leaves unspecified, TABLE among them, which has no
defined content before its construction (R38). DEDUCED, log entry 24. -/
def State.powerOn (p : Params) : State :=
  { State.reset with
    d               := Vector.ofFn (fun i => Config.powerOnWord i.val)
    a               := Vector.ofFn (fun i => Config.powerOnWord (8 + i.val))
    pc              := Config.powerOnWord 16
    cc              := p.srLayout.ccField ((Config.powerOnWord 17).setWidth 16)
    mask            := (Config.powerOnWord 18).setWidth 3
    supervisor      := (Config.powerOnWord 19).getLsbD 0
    trace           := (Config.powerOnWord 20).getLsbD 0
    stopped         := (Config.powerOnWord 21).getLsbD 0
    remaining       := Config.powerOnCount 0
    interruptCycles := (Config.powerOnCount 1).natAbs
    quantumBudget   := (Config.powerOnCount 2).natAbs
    intLevel        := (Config.powerOnWord 22).setWidth 3
    clockMult       := p.clockMultPowerOn
    table           := Config.powerOnTable
    tableBuilt      := false
    params          := p }

end Sys2Proof.Machine
end

