-- ==== Sys2Proof/Machine/Flags.lean ====
section
/-! DEFINITION. The status register: packing its fields into a word and unpacking a word into them
(42_register_access.md R161, R162). The engine computes no condition code (R26). -/

namespace Sys2Proof.Machine

/-- `PackSR()` (R161): the four fields at the places SR_LAYOUT gives them, every other bit 0. The
spec's own layout is PRESUMED, log entry 7. -/
def packSR (s : State) : HalfWord :=
  ((BitVec.ofBool s.trace).setWidth 16 <<< s.params.srLayout.traceBit) |||
    ((BitVec.ofBool s.supervisor).setWidth 16 <<< s.params.srLayout.supervisorBit) |||
    (s.mask.setWidth 16 <<< s.params.srLayout.maskShift) |||
    (s.params.srLayout.ccField s.cc <<< s.params.srLayout.ccShift)

/-- `UnpackSR(v)` (R162): the four fields from their places; the other bits of `v` are ignored. -/
def unpackSR (v : HalfWord) (s : State) : State :=
  { s with
    trace      := v.getLsbD s.params.srLayout.traceBit
    supervisor := v.getLsbD s.params.srLayout.supervisorBit
    mask       := v.extractLsb' s.params.srLayout.maskShift 3
    cc         := s.params.srLayout.ccField (v >>> s.params.srLayout.ccShift) }

end Sys2Proof.Machine
end

