-- ==== Sys2Proof/Machine/Operands.lean ====
section
/-! DEFINITION. The register operands: every read and write of a register named by an identifier
(42_register_access.md R163 to R170), and the accessors of the two register files. -/

namespace Sys2Proof.Machine

/-- `D[i] <- v` (R12). -/
def setD (i : Fin 8) (v : Word) (s : State) : State := { s with d := s.d.set i.val v i.isLt }

/-- `A[i] <- v` (R12). -/
def setA (i : Fin 8) (v : Word) (s : State) : State := { s with a := s.a.set i.val v i.isLt }

/-- The stack pointer, which is `A[7]` (R22). -/
def stackPointer (s : State) : Word := s.a.get 7

/-- `get(reg)`'s value (R163 to R166). -/
def regValue (reg : RegId) (s : State) : Word :=
  match reg with
  | .d i => s.d.get i
  | .a i => s.a.get i
  | .pc => s.pc
  | .sr => (packSR s).setWidth 32
  | .sp => stackPointer s
  | .usp | .prefAddr | .prefData | .ppc | .ir | .other _ => 0

/-- `set(reg, value)` (R167 to R170). -/
def setReg (reg : RegId) (v : Word) (s : State) : State :=
  match reg with
  | .d i => setD i v s
  | .a i => setA i v s
  | .pc => { s with pc := v }
  | .sr => unpackSR (v.setWidth 16) s
  | .sp => setA 7 v s
  | .usp | .prefAddr | .prefData | .ppc | .ir | .other _ => s

end Sys2Proof.Machine
end

