-- ==== Sys2Proof/Machine/Ops.lean ====
section
/-! DEFINITION. The shared operations: memory, the bus with its collaborators, the timeslice
operations, interrupt arbitration and delivery, taking an exception, running a handler. -/

namespace Sys2Proof.Machine

/-! ## Memory: the default BUS (R60, R63, R64) -/

/-- The byte at an address. -/
def Memory.byteAt : Memory → Nat → Byte
  | [], _ => Config.unlistedByte
  | (k, b) :: rest, x => if k = x then b else Memory.byteAt rest x

/-- `M[x] <- b`, keeping the canonical form: a byte equal to what an unlisted address reads as is
not listed. -/
def Memory.putByte : Memory → Nat → Byte → Memory
  | [], x, b => if b = Config.unlistedByte then [] else [(x, b)]
  | (k, c) :: rest, x, b =>
    if x < k then (if b = Config.unlistedByte then (k, c) :: rest else (x, b) :: (k, c) :: rest)
    else if x = k then (if b = Config.unlistedByte then rest else (x, b) :: rest)
    else (k, c) :: Memory.putByte rest x b

/-- Addresses from `lo` upward strictly rising, inside the 32-bit space, no entry redundant. -/
def Memory.wfFrom (lo : Nat) : Memory → Bool
  | [] => true
  | (k, b) :: rest =>
    decide (lo ≤ k) && decide (k < 2 ^ 32) && decide (b ≠ Config.unlistedByte) && Memory.wfFrom (k + 1) rest

/-- The canonical form. -/
def Memory.wf (m : Memory) : Bool := Memory.wfFrom 0 m

/-- How many bytes a primitive moves (R60). -/
def sizeBytes : Size → Nat
  | .byte => 1
  | .word => 2
  | .long => 4

/-- The address of byte `lane` (0 the least significant) of a value of `n` bytes at `x`, modulo 2^32
(R63). The spec's own order is big-endian, decision D5, PRESUMED, log entry 6. -/
def laneAddress (order : ByteOrder) (n lane : Nat) (x : Word) : Nat :=
  match order with
  | .big => (x + BitVec.ofNat 32 (n - 1 - lane)).toNat
  | .little => (x + BitVec.ofNat 32 lane).toNat

/-- `MemRead(x, n)` of the default BUS (R63), the value zero-extended. -/
def Memory.load (m : Memory) (order : ByteOrder) (size : Size) (x : Word) : Word :=
  match size with
  | .byte => (m.byteAt x.toNat).setWidth 32
  | .word => (m.byteAt (laneAddress order 2 1 x) ++ m.byteAt (laneAddress order 2 0 x)).setWidth 32
  | .long =>
    m.byteAt (laneAddress order 4 3 x) ++ m.byteAt (laneAddress order 4 2 x) ++
      m.byteAt (laneAddress order 4 1 x) ++ m.byteAt (laneAddress order 4 0 x)

/-- `MemWrite(x, n, v)` of the default BUS (R60, R63): the low 8n bits of `v`. -/
def Memory.store (m : Memory) (order : ByteOrder) (size : Size) (x v : Word) : Memory :=
  match size with
  | .byte => m.putByte x.toNat (v.extractLsb' 0 8)
  | .word =>
    (m.putByte (laneAddress order 2 1 x) (v.extractLsb' 8 8)).putByte (laneAddress order 2 0 x)
      (v.extractLsb' 0 8)
  | .long =>
    (((m.putByte (laneAddress order 4 3 x) (v.extractLsb' 24 8)).putByte (laneAddress order 4 2 x)
      (v.extractLsb' 16 8)).putByte (laneAddress order 4 1 x) (v.extractLsb' 8 8)).putByte
      (laneAddress order 4 0 x) (v.extractLsb' 0 8)

/-- A read of the machine's memory, in its byte order. -/
def State.load (s : State) (size : Size) (x : Word) : Word := s.mem.load s.params.byteOrder size x

/-- The machine's memory after a write, in its byte order. -/
def State.store (s : State) (size : Size) (x v : Word) : Memory :=
  s.mem.store s.params.byteOrder size x v

/-- The low 8n bits of a value (R60). -/
def truncateTo (size : Size) (v : Word) : Word :=
  match size with
  | .byte => v &&& 0xFF
  | .word => v &&& 0xFFFF
  | .long => v

/-! ## Timeslice and clock arithmetic (R139, R141 to R146) -/

/-- Scaling down: integer division truncating toward zero (R146). -/
def descale (s : State) (n : Int) : Int := n.tdiv s.clockMult

/-- `cyclesRun()` (R141). -/
def cyclesRunValue (s : State) : Int := descale s (s.quantumBudget - s.remaining)

/-- `cyclesRemaining()` (R142). -/
def cyclesRemainingValue (s : State) : Int := descale s s.remaining

/-- `modifyTimeslice(cycles)` (R143), under either setting of MODIFY_TIMESLICE_MODE. -/
def modifySlice (cycles : Int) (s : State) : State :=
  { s with
    remaining :=
      match s.params.modifyTimesliceMode with
      | .set => cycles * s.clockMult
      | .add => s.remaining + cycles * s.clockMult
    quantumBudget :=
      match s.params.modifyTimesliceMode with
      | .set => s.quantumBudget
      | .add => s.quantumBudget + cycles * s.clockMult }

/-- `endTimeslice()` (R144). -/
def endSlice (s : State) : State := { s with remaining := 0 }

/-- Billing of a dispatch (R115, R137). -/
def bill (cost : Int) (s : State) : State := { s with remaining := s.remaining - cost }

/-- `isValidInstruction(opcode)`'s value (R124). -/
def validOpcode (op : HalfWord) (s : State) : Bool := decide (s.table.lookup op ≠ .illegal)

/-! ## Collaborators' commands inside a bus call, the acknowledge callback or the hook (R5) -/

/-- The latch of R187: one level, one flag; a later request overwrites (R37). -/
def latchIRQ (level : BitVec 3) (s : State) : State :=
  { s with irqPending := true, pendingLevel := level }

/-- One COLLABORATOR command; `raise` is what `raiseIRQ` does where the command is issued. Return
values go to the collaborator's own port. No command is refused here: inside the two bus reads of the
FIRST `pulseReset` the table is already built and R236 is silent, so the model lets them act. DESIGN
CHOICE, log entry 30. -/
def collabStep (raise : BitVec 3 → State → State) (c : CollabCmd) (s : State) : State :=
  match c with
  | .raiseIRQ level => raise level s
  | .debugHalt => { s with haltReq := true }
  | .debugResume => { s with haltReq := false }
  | .get reg => { s with collabResult := some (.value (regValue reg s)) }
  | .set reg v => setReg reg v s
  | .cyclesRun => { s with collabResult := some (.count (cyclesRunValue s)) }
  | .cyclesRemaining => { s with collabResult := some (.count (cyclesRemainingValue s)) }
  | .modifyTimeslice n => modifySlice n s
  | .endTimeslice => endSlice s
  | .isValidInstruction op => { s with collabResult := some (.truth (validOpcode op s)) }
  | .getClockMultiplier => { s with collabResult := some (.count s.clockMult) }

/-- A collaborator's commands, in order. -/
def collabTurn (raise : BitVec 3 → State → State) : List CollabCmd → State → State
  | [], s => s
  | c :: rest, s => collabTurn raise rest (collabStep raise c s)

/-! ## Bus calls (R60 to R68) -/

/-- What happens in the next bus call. -/
def nextBusEvent (s : State) : BusEvent := s.busEvents.headD .quiet

/-- The value a read returns (R60, R65): the device's answer, else the default memory's. -/
def busAnswer (size : Size) (x : Word) (s : State) : Word :=
  match (nextBusEvent s).answer with
  | some v => truncateTo size v
  | none => s.load size x

/-- The state after a read: its event is used up and its commands have been issued. -/
def afterRead (raise : BitVec 3 → State → State) (s : State) : State :=
  collabTurn raise (nextBusEvent s).cmds { s with busEvents := s.busEvents.tail }

/-- The state after a write: the bytes land (unless the event loses them), then the commands of the
event are issued. -/
def busWrite (raise : BitVec 3 → State → State) (size : Size) (x v : Word) (s : State) : State :=
  collabTurn raise (nextBusEvent s).cmds
    { s with
      busEvents := s.busEvents.tail
      mem       := if (nextBusEvent s).lost then s.mem else s.store size x v }

/-! ## Parts of exception entry (R183, R184, R193) -/

/-- The address of a vector's entry (R73, R97). -/
def vectorAddress (vector : Byte) : Word := vector.setWidth 32 * 4

/-- A fetched vector target and the state after the fetch. -/
structure VectorFetch where
  target : Word
  after  : State

/-- Read a vector's entry; where it is 0 and `fallback` holds, read the entry of the uninitialized
interrupt instead, once (R183, R193 step 5). -/
def fetchVector (raise : BitVec 3 → State → State) (fallback : Bool) (vector : Byte) (s : State) :
    VectorFetch :=
  if busAnswer .long (vectorAddress vector) s = 0 ∧ fallback = true then
    { target :=
        busAnswer .long (vectorAddress s.params.vecUninitializedInterrupt) (afterRead raise s)
      after  := afterRead raise (afterRead raise s) }
  else
    { target := busAnswer .long (vectorAddress vector) s
      after  := afterRead raise s }

/-- Push one value: decrement the stack pointer, then write at it (R184). -/
def push (raise : BitVec 3 → State → State) (size : Size) (v : Word) (s : State) : State :=
  busWrite raise size (stackPointer s - BitVec.ofNat 32 (sizeBytes size)) v
    (setA 7 (stackPointer s - BitVec.ofNat 32 (sizeBytes size)) s)

/-- `PushFrame(savedPC, savedSR)` (R184): the long, then the word. -/
def pushFrame (raise : BitVec 3 → State → State) (savedPC : Word) (savedSR : HalfWord) (s : State) :
    State :=
  push raise .word (savedSR.setWidth 32) (push raise .long savedPC s)

/-- The part interrupts and synchronous exceptions share: read the vector, push the frame with the
pc as it then stands, go to the target (R183, R193 steps 5 to 7). -/
def enterVector (raise : BitVec 3 → State → State) (fallback : Bool) (vector : Byte)
    (savedSR : HalfWord) (s : State) : State :=
  let f := fetchVector raise fallback vector s
  { pushFrame raise f.after.pc savedSR f.after with pc := f.target }

/-! ## Interrupts (R187 to R197) -/

/-- The next acknowledge call. -/
def nextAckRun (level : BitVec 3) (s : State) : AckRun :=
  match s.ackRuns with
  | [] => Config.freeAckRun level s.draws
  | run :: _ => run

/-- The state after the acknowledge call: its turn is used up (or a free one drawn) and its commands
have been issued. The processor is not stopped here (R193 step 1), so a `raiseIRQ` latches. -/
def afterAck (level : BitVec 3) (s : State) : State :=
  collabTurn latchIRQ (nextAckRun level s).cmds
    { s with
      ackRuns := s.ackRuns.tail
      draws   := if s.ackRuns = [] then s.draws + 1 else s.draws }

/-- A vector number from a 32-bit value; `none` above 255, the malformed acknowledge (R101). -/
def vectorNumber (n : Word) : Option Byte :=
  if n.toNat ≤ 255 then some (n.setWidth 8) else none

/-- The vector an acknowledge answer selects (R101, R191); `none` is Malformed (R192). -/
def ackVector (p : Params) (level : BitVec 3) : AckAnswer → Option Byte
  | .autovector => some (Config.vecSpurious + level.setWidth 8)
  | .spurious => some Config.vecSpurious
  | .vector n => vectorNumber n
  | .integer r =>
    if r = p.ackAutovector then some (Config.vecSpurious + level.setWidth 8)
    else if r = p.ackSpurious then some Config.vecSpurious
    else vectorNumber r

/-- Steps 3 to 8 of R193, once the vector is known. The saved status word is the one before the
privilege and the mask are raised. -/
def enterInterrupt (level : BitVec 3) (vector : Byte) (s : State) : State :=
  let s' := enterVector latchIRQ true vector (packSR s) { s with supervisor := true, mask := level }
  { s' with interruptCycles := s'.interruptCycles + s.params.irqServiceCycles }

/-- `raise InterruptException(level)` (R193). Every collaborator that acts inside it finds the
processor not stopped, so its `raiseIRQ` latches (R187). -/
def deliver (level : BitVec 3) (s : State) : State :=
  let awake := { s with stopped := false }
  match ackVector s.params level (nextAckRun level awake).answer with
  | none => afterAck level awake
  | some vector => enterInterrupt level vector (afterAck level awake)

/-- `resolveIRQ(level)` (R188). -/
def resolveIRQ (level : BitVec 3) (s : State) : State :=
  if s.intLevel ≠ 7 ∧ level = 7 then deliver 7 { s with intLevel := level }
  else if s.mask < level then deliver level { s with intLevel := level }
  else { s with intLevel := level }

/-- `raiseIRQ(level)` (R187). -/
def requestIRQ (level : BitVec 3) (s : State) : State :=
  if s.stopped then resolveIRQ level s else latchIRQ level s

/-! ## Taking a synchronous exception (R183) -/

/-- `raise Exception(vector)` (R183): the saved status word is the one before the privilege is
raised; mask, trace, cc, stopped and interruptCycles are not touched by it. The return from an
exception is an external handler (R198). -/
def takeException (vector : Byte) (s : State) : State :=
  enterVector requestIRQ s.params.illegalZeroVectorFallback vector (packSR s) { s with supervisor := true }

/-- The illegal-opcode handler with the vector its class selects, billed (R120, R137). -/
def illegalOpcode (vector : Byte) (s : State) : State :=
  bill s.params.illegalOpcodeCycles (takeException vector s)

/-- The vector of a word whose slot is ILLEGAL (R120). -/
def illegalVector (op : HalfWord) : Byte :=
  if topNibble op = 0xF then Config.vecLineF
  else if topNibble op = 0xA then Config.vecLineA
  else Config.vecIllegal

/-! ## External handlers (R115 to R119, log entry 10) -/

/-- One operand. -/
def unaryValue : UnaryOp → Word → Word
  | .signExtend8, v => (v.setWidth 8).signExtend 32
  | .signExtend16, v => (v.setWidth 16).signExtend 32

/-- A comparison's answer. -/
def truthWord (b : Bool) : Word := if b then 1 else 0

/-- Two operands, modulo 2^32; a shift by 32 or more leaves no bit of its operand (or its sign). -/
def binaryValue : BinaryOp → Word → Word → Word
  | .add, v, w => v + w
  | .sub, v, w => v - w
  | .mul, v, w => v * w
  | .and, v, w => v &&& w
  | .or, v, w => v ||| w
  | .xor, v, w => v ^^^ w
  | .shiftLeft, v, w => v <<< w.toNat
  | .shiftRight, v, w => v >>> w.toNat
  | .shiftRightSigned, v, w => v.sshiftRight w.toNat
  | .equal, v, w => truthWord (v == w)
  | .lessUnsigned, v, w => truthWord (v.ult w)
  | .lessSigned, v, w => truthWord (v.slt w)

/-- A cycle counter of the Register File (R32, R33). -/
def counterValue (s : State) : Counter → Int
  | .remaining => s.remaining
  | .interruptCycles => s.interruptCycles

/-- The value of an expression: from the opcode word, the values read so far and the Register File
as it stands. A read that has not been made counts as 0. -/
def exprValue (op : HalfWord) (temps : List Word) (s : State) : HandlerExpr → Word
  | .const v => v
  | .opcode => op.setWidth 32
  | .d i => s.d.get i
  | .a i => s.a.get i
  | .pc => s.pc
  | .sr => (packSR s).setWidth 32
  | .stopped => truthWord s.stopped
  | .haltReq => truthWord s.haltReq
  | .intLevel => s.intLevel.setWidth 32
  | .counterPart c n => BitVec.ofInt 32 (counterValue s c / 2 ^ (32 * n))
  | .counterBelow c bound => truthWord (decide (counterValue s c < bound))
  | .temp n => temps.getD n 0
  | .unary o e => unaryValue o (exprValue op temps s e)
  | .binary o e f => binaryValue o (exprValue op temps s e) (exprValue op temps s f)

/-- One action of a handler. -/
def handlerStep (op : HalfWord) (temps : List Word) (act : HandlerAction) (s : State) : State :=
  match act with
  | .setD i e => setD i (exprValue op temps s e) s
  | .setA i e => setA i (exprValue op temps s e) s
  | .setPc e => { s with pc := exprValue op temps s e }
  | .setCc e => { s with cc := s.params.srLayout.ccField ((exprValue op temps s e).setWidth 16) }
  | .setMask e => { s with mask := (exprValue op temps s e).setWidth 3 }
  | .setSupervisor e => { s with supervisor := decide (exprValue op temps s e ≠ 0) }
  | .setTrace e => { s with trace := decide (exprValue op temps s e ≠ 0) }
  | .unpackSR e => unpackSR ((exprValue op temps s e).setWidth 16) s
  | .setStopped b => { s with stopped := b }
  | .stop => { s with stopped := true, remaining := 0 }
  | .write size x e => busWrite requestIRQ size (exprValue op temps s x) (exprValue op temps s e) s
  | .raiseException vector => takeException vector s

/-- A handler's run (R115, R116): what it reads it may use; where it returns, its cost is billed;
where it never returns, the machine hangs in it (93 U13). -/
def runHandler (op : HalfWord) : HandlerProg → List Word → State → State
  | .returns cost, _, s => bill cost s
  | .hangs, _, s => { s with hung := true }
  | .act act rest, temps, s => runHandler op rest temps (handlerStep op temps act s)
  | .read size x rest, temps, s =>
    runHandler op rest (temps ++ [busAnswer size (exprValue op temps s x) s]) (afterRead requestIRQ s)
  | .choose c yes no, temps, s =>
    if exprValue op temps s c ≠ 0 then runHandler op yes temps s else runHandler op no temps s

/-- What a handler not given as a program may depend on, besides what it reads (R116). -/
def handlerView (s : State) : HandlerView :=
  { d := s.d, a := s.a, pc := s.pc, cc := s.cc, mask := s.mask, supervisor := s.supervisor
    trace := s.trace, stopped := s.stopped, haltReq := s.haltReq, remaining := s.remaining
    interruptCycles := s.interruptCycles, intLevel := s.intLevel, mem := s.mem }

/-- HANDLERS at an id (R9), where it is given as a program. -/
def listedHandler : List (Nat × HandlerProg) → Nat → Option HandlerProg
  | [], _ => none
  | (k, p) :: rest, id => if k = id then some p else listedHandler rest id

/-- `HANDLERS[id]` on a word (R116): the program given, else a free one. -/
def handlerProg (id : Nat) (op : HalfWord) (s : State) : HandlerProg :=
  (listedHandler s.params.handlers id).getD (Config.freeHandler id op (handlerView s) s.draws)

/-- The state in which a handler runs: a free handler uses up a draw. -/
def enterHandler (id : Nat) (s : State) : State :=
  { s with
    draws := if (listedHandler s.params.handlers id).isSome then s.draws else s.draws + 1 }

/-- The whole call of handler `id` (R115). -/
def callHandler (id : Nat) (op : HalfWord) (s : State) : State :=
  runHandler op (handlerProg id op s) [] (enterHandler id s)

/-! ## Commands -/

/-- A command that answers `v` and changes nothing else. -/
def reply (v : Result) (s : State) : State := { s with result := some v }

/-- A command that returns nothing. -/
def replyNone (s : State) : State := { s with result := none }

/-- The commands R236 refuses before the first `pulseReset`. -/
def afterFirstReset (s : State) (k : State → State) : Answer :=
  if s.tableBuilt then .next (k s) else .refused .beforeFirstReset

/-! ## The quantum (R130 to R139) -/

/-- The stopped path of `execute(N)` (R130): the counters are cleared and N itself returned. -/
def stoppedReturn (n : Int) (s : State) : State :=
  { s with remaining := 0, interruptCycles := 0, result := some (.count n) }

/-- The start of a running quantum (R131): the debt is discharged into the budget. -/
def beginQuantum (n : Int) (s : State) : State :=
  { s with
    inExecute       := true
    quantumBudget   := n * s.clockMult
    remaining       := n * s.clockMult - s.interruptCycles
    interruptCycles := 0
    result          := none }

/-- The halt return (R133): the halt request stays set, both counters are zeroed. -/
def haltReturn (s : State) : State :=
  { s with
    remaining       := 0
    interruptCycles := 0
    inExecute       := false
    result          := some (.count (descale s (s.quantumBudget - s.remaining))) }

/-- The normal end (R139), in either order of counting and discharging. -/
def normalReturn (s : State) : State :=
  { s with
    remaining       := s.remaining - s.interruptCycles
    interruptCycles := 0
    inExecute       := false
    result          := some (.count (descale s (s.quantumBudget -
      match s.params.endOfQuantumOrder with
      | .countThenDischarge => s.remaining
      | .dischargeThenCount => s.remaining - s.interruptCycles))) }

/-- Part 2 of an iteration (R134): the flag is cleared before the resolution. -/
def takePending (s : State) : State :=
  if s.irqPending then resolveIRQ s.pendingLevel { s with irqPending := false } else s

/-- Part 3 (R135): the hook, absent where no turn is listed. -/
def runHook (s : State) : State :=
  collabTurn requestIRQ (s.hookRuns.headD []) { s with hookRuns := s.hookRuns.tail }

/-- Part 4 (R136): the word at the pc. -/
def fetchWord (s : State) : HalfWord := (busAnswer .word s.pc s).setWidth 16

/-- The state after the fetch, which leaves the pc alone (R136). -/
def afterFetch (s : State) : State := afterRead requestIRQ s

/-- The loop test after the body (R138); a handler that never returned has not reached it. -/
def loopEnd (s : State) : State :=
  if s.hung then s
  else
    match s.params.loopTest with
    | .after => if s.remaining ≤ 0 then normalReturn s else s
    | .before => s

/-- The loop test before the body, under the other setting of LOOP_TEST (R138, D12). -/
def endsBefore (s : State) : Bool :=
  match s.params.loopTest with
  | .after => false
  | .before => decide (s.remaining ≤ 0)

end Sys2Proof.Machine
end

