-- ==== Sys2Proof/Machine/Access.lean ====
section
/-! DEFINITION. The commands `get`, `set` and `isValidInstruction` (42_register_access.md R163 to
R170; 40_dispatch_table.md R124). -/

namespace Sys2Proof.Machine

/-- `get(reg)` (R163 to R166). -/
def execGet (reg : RegId) (s : State) : Answer :=
  afterFirstReset s (fun s => reply (.value (regValue reg s)) s)

/-- `set(reg, value)` (R167 to R170). -/
def execSet (reg : RegId) (value : Word) (s : State) : Answer :=
  afterFirstReset s (fun s => replyNone (setReg reg value s))

/-- `isValidInstruction(opcode)` (R124). -/
def execIsValidInstruction (opcode : HalfWord) (s : State) : Answer :=
  afterFirstReset s (fun s => reply (.truth (validOpcode opcode s)) s)

end Sys2Proof.Machine
end

