-- ==== Sys2Proof/Machine/Clock.lean ====
section
/-! DEFINITION. The clock-multiplier commands (41_execution_loop.md R147, R148), allowed before the
first `pulseReset` (R236). -/

namespace Sys2Proof.Machine

/-- `setClockMultiplier(value)` (R147): clamped to at least 1, refused inside a quantum. -/
def execSetClockMultiplier (value : Int) (s : State) : Answer :=
  if s.inExecute then .refused .multiplierInsideQuantum
  else .next (replyNone { s with clockMult := max value 1 })

/-- `getClockMultiplier()` (R148). -/
def execGetClockMultiplier (s : State) : Answer := .next (reply (.count s.clockMult) s)

end Sys2Proof.Machine
end

