-- ==== Sys2Proof/Machine/Debug.lean ====
section
/-! DEFINITION. The debug commands (41_execution_loop.md R149, R150), allowed before the first
`pulseReset` (R236). -/

namespace Sys2Proof.Machine

/-- `debugHalt()` (R149). -/
def execDebugHalt (s : State) : Answer := .next (replyNone { s with haltReq := true })

/-- `debugResume()` (R150). -/
def execDebugResume (s : State) : Answer := .next (replyNone { s with haltReq := false })

end Sys2Proof.Machine
end

