-- ==== Sys2Proof/Machine/Execution.lean ====
section
/-! DEFINITION. The command `execute` (41_execution_loop.md R130, R131). The iterations of the loop
it starts are CORE steps of `step` (R132). -/

namespace Sys2Proof.Machine

/-- `execute(cycleBudget)` (R130): the refusals, the stopped path, or the start of a quantum. -/
def execExecute (cycleBudget : Int) (s : State) : Answer :=
  if s.tableBuilt = false then .refused .beforeFirstReset
  else if s.inExecute then .refused .reentrant
  else if cycleBudget < 0 then .refused .negativeBudget
  else if s.stopped then .next (stoppedReturn cycleBudget s)
  else .next (beginQuantum cycleBudget s)

end Sys2Proof.Machine
end

