-- ==== Sys2Proof/Machine/External.lean ====
section
/-! DEFINITION. Dispatch of a word to an external handler (40_dispatch_table.md R115 to R119). -/

namespace Sys2Proof.Machine

/-- EXTERNAL (R115, R137): the slot's handler runs and its cost is billed. A slot that holds the
illegal-opcode handler runs that handler (R137), though no such word decodes to EXTERNAL. -/
def execExternal (op : HalfWord) (s : State) : Answer :=
  match s.table.lookup op with
  | .illegal => .next (illegalOpcode (illegalVector op) s)
  | .external id => .next (callHandler id op s)

end Sys2Proof.Machine
end

