-- ==== Sys2Proof/Machine/Illegal.lean ====
section
/-! DEFINITION. The instruction words the engine's own illegal-opcode handler runs
(40_dispatch_table.md R120 to R123). -/

namespace Sys2Proof.Machine

/-- LINE_F (R121): the payload is ignored. -/
def execLineF (_payload : BitVec 12) (s : State) : Answer := .next (illegalOpcode Config.vecLineF s)

/-- LINE_A (R122): the payload is ignored. -/
def execLineA (_payload : BitVec 12) (s : State) : Answer := .next (illegalOpcode Config.vecLineA s)

/-- ILLEGAL (R123). -/
def execIllegal (_op : HalfWord) (s : State) : Answer := .next (illegalOpcode Config.vecIllegal s)

end Sys2Proof.Machine
end

