-- ==== Sys2Proof/Machine/Interrupt.lean ====
section
/-! DEFINITION. The command `raiseIRQ` (60_exceptions.md R187). -/

namespace Sys2Proof.Machine

/-- `raiseIRQ(level)` (R187): a level outside 0 to 7 is refused (R100). -/
def execRaiseIRQ (level : Int) (s : State) : Answer :=
  if level < 0 ∨ 7 < level then .refused .levelOutOfRange
  else afterFirstReset s (fun s => requestIRQ (BitVec.ofInt 3 level) (replyNone s))

end Sys2Proof.Machine
end

