-- ==== Sys2Proof/Machine/Reset.lean ====
section
/-! DEFINITION. `pulseReset` (70_reset_and_hazards.md R230 to R233; 10_state.md R44). -/

namespace Sys2Proof.Machine

/-- The reset of register, cycle and privilege state (R230, R44). D, A[0] to A[6] and cc become free
values (log entry 3); A[7], the pc, the latch, the clock multiplier and the table are not changed. -/
def resetState (s : State) : State :=
  { s with
    haltReq         := false
    stopped         := false
    remaining       := 0
    interruptCycles := 0
    quantumBudget   := 0
    mask            := s.params.resetMask
    supervisor      := s.params.resetSupervisor
    trace           := s.params.resetTrace
    intLevel        := 0
    d               := Vector.ofFn (fun i => Config.freeReg s.draws i.val)
    a               := Vector.ofFn (fun i => if i = 7 then s.a.get i else Config.freeReg s.draws (8 + i.val))
    cc              := s.params.srLayout.ccField (Config.freeCc s.draws)
    draws           := s.draws + 1 }

/-- `A[7] <- MemRead(0, 4)` (R230). The bus call completes, with what its collaborators do, before
the engine writes the register. -/
def loadStackPointer (s : State) : State := setA 7 (busAnswer .long 0 s) (afterRead requestIRQ s)

/-- `pc <- MemRead(4, 4)` (R230). -/
def loadProgramCounter (s : State) : State :=
  { afterRead requestIRQ s with pc := busAnswer .long 4 s }

/-- Everything of `pulseReset` after the table build (R230, R233). A COLLABORATOR's command inside
the two reads acts at once, in the first `pulseReset` too. DESIGN CHOICE, log entry 30. -/
def resetSequence (s : State) : State :=
  replyNone (loadProgramCounter (loadStackPointer (resetState s)))

/-- `pulseReset()` (R230): refused inside `execute`; the table is built by the first call only, and
a construction that aborts is fatal (R114). -/
def execPulseReset (s : State) : Answer :=
  if s.inExecute then .refused .reentrant
  else if s.tableBuilt then .next (resetSequence s)
  else
    match buildTable s.params.desc s.params.decode with
    | none => .fault .tableConstructionAbort
    | some t => .next (resetSequence { s with table := t, tableBuilt := true })

end Sys2Proof.Machine
end

