-- ==== Sys2Proof/Machine/Timeslice.lean ====
section
/-! DEFINITION. The timeslice commands (41_execution_loop.md R141 to R144). -/

namespace Sys2Proof.Machine

/-- `cyclesRun()` (R141). -/
def execCyclesRun (s : State) : Answer :=
  afterFirstReset s (fun s => reply (.count (cyclesRunValue s)) s)

/-- `cyclesRemaining()` (R142). -/
def execCyclesRemaining (s : State) : Answer :=
  afterFirstReset s (fun s => reply (.count (cyclesRemainingValue s)) s)

/-- `modifyTimeslice(cycles)` (R143), under either setting of the OPEN parameter. -/
def execModifyTimeslice (cycles : Int) (s : State) : Answer :=
  afterFirstReset s (fun s => replyNone (modifySlice cycles s))

/-- `endTimeslice()` (R144). -/
def execEndTimeslice (s : State) : Answer := afterFirstReset s (fun s => replyNone (endSlice s))

end Sys2Proof.Machine
end

