-- ==== Sys2Proof/Machine/Dispatch.lean ====
section
/-! DEFINITION. The meaning of every instruction: one arm per constructor of Instr. -/

namespace Sys2Proof.Machine

def exec (i : Instr) (s : State) : Host.Outcome State Fault Refusal :=
  match i with
  | .lineF payload => Sys2Proof.Machine.execLineF payload s
  | .lineA payload => Sys2Proof.Machine.execLineA payload s
  | .illegal op => Sys2Proof.Machine.execIllegal op s
  | .external op => Sys2Proof.Machine.execExternal op s
  | .pulseReset => Sys2Proof.Machine.execPulseReset s
  | .execute cycleBudget => Sys2Proof.Machine.execExecute cycleBudget s
  | .raiseIRQ level => Sys2Proof.Machine.execRaiseIRQ level s
  | .get reg => Sys2Proof.Machine.execGet reg s
  | .set reg value => Sys2Proof.Machine.execSet reg value s
  | .isValidInstruction opcode => Sys2Proof.Machine.execIsValidInstruction opcode s
  | .cyclesRun => Sys2Proof.Machine.execCyclesRun s
  | .cyclesRemaining => Sys2Proof.Machine.execCyclesRemaining s
  | .modifyTimeslice cycles => Sys2Proof.Machine.execModifyTimeslice cycles s
  | .endTimeslice => Sys2Proof.Machine.execEndTimeslice s
  | .setClockMultiplier value => Sys2Proof.Machine.execSetClockMultiplier value s
  | .getClockMultiplier => Sys2Proof.Machine.execGetClockMultiplier s
  | .debugHalt => Sys2Proof.Machine.execDebugHalt s
  | .debugResume => Sys2Proof.Machine.execDebugResume s

end Sys2Proof.Machine
end

