-- ==== Sys2Proof/Machine/Step.lean ====
section
/-! DEFINITION. One step: an iteration of the execution loop while `execute` is in progress
(41_execution_loop.md R132 to R139), else HOST's next command (00_scope.md R6). -/

namespace Sys2Proof.Machine

/-- The machine at the point of the fetch: parts 2 and 3 of an iteration are done (R134, R135). -/
def boundary (s : State) : State := runHook (takePending s)

/-- The loop test after an instruction that went on (R138). -/
def closeIteration : Answer → Answer
  | .next s => .next (loopEnd s)
  | .fault f => .fault f
  | .refused r => .refused r

/-- Parts 4 and 5 and the loop test (R136 to R138), from the state at the point of the fetch. -/
def dispatchAt (s : State) : Answer :=
  closeIteration (exec (decodeWord (afterFetch s).table (fetchWord s)) (afterFetch s))

/-- One CORE step (R132): the suspension check, then the other parts in their order. -/
def coreStep (s : State) : Answer :=
  if endsBefore s then .next (normalReturn s)
  else if s.haltReq then .next (haltReturn s)
  else dispatchAt (boundary s)

/-- HOST's next command; with none waiting nothing happens (log entry 17). -/
def hostStep (s : State) : Answer :=
  match s.cmds with
  | [] => .next s
  | c :: rest =>
    match decodeCommand c with
    | .ok i => exec i { s with cmds := rest }
    | .error e => .refused (.undecodable e)

/-- One step of the machine. While `execute` is in progress HOST's commands wait (R6), for ever where
the handler in flight never returns (93 U13). -/
def step (s : State) : Host.Outcome State Fault Refusal :=
  if s.inExecute then (if s.hung then .next s else coreStep s) else hostStep s

/-- `s` with an instruction where `step` fetches its next one. A 16-bit row: the word in memory at
the pc, in a running quantum with nothing else to do at its boundary (the table built, no handler hung,
no halt request, no pending interrupt, no collaborator turn before the dispatch, and a positive `remaining`
where LOOP_TEST stands before the body). A command row: the
transaction at the head of HOST's commands, outside a quantum. Log entry 26. -/
def State.withFetchWord (s : State) (nbits w : Nat) : State :=
  if nbits = 16 then
    { s with
      mem        := s.store .word s.pc (BitVec.ofNat 32 w)
      inExecute  := true
      hung       := false
      tableBuilt := true
      haltReq    := false
      irqPending := false
      hookRuns   := []
      busEvents  := []
      remaining  :=
        match s.params.loopTest with
        | .after => s.remaining
        | .before => max s.remaining 1 }
  else
    { s with
      cmds      := zeroOperandCommand (BitVec.ofNat 8 w) :: s.cmds
      inExecute := false }

end Sys2Proof.Machine
end

