-- ==== Sys2Proof/Safety.lean ====
section
/-! DEFINITION. What claims are stated in terms of: the invariant of the engine's state (10_state.md
R42, R38; the memory's canonical form), the default BUS, the frames of an answer, and what one run of
a handler does. -/

namespace Sys2Proof.Machine

/-- The invariants of R42 that the types do not already give, with the memory's canonical form, cc
within its CC_BITS bits (R26), the table being a function of DESC and DECODE once built (R38, R125),
a hung handler being inside a quantum, and IRQ_SERVICE_CYCLES not negative (without which R42's rule
for `interruptCycles` could not be kept). -/
structure State.Inv (s : State) : Prop where
  mem_wf       : s.mem.wf = true
  clock_pos    : 1 ≤ s.clockMult
  debt_nonneg  : 0 ≤ s.interruptCycles
  service      : 0 ≤ s.params.irqServiceCycles
  cc_field     : s.params.srLayout.ccField s.cc = s.cc
  table_of     : s.tableBuilt = true → buildTable s.params.desc s.params.decode = some s.table
  loop_built   : s.inExecute = true → s.tableBuilt = true
  hung_inside  : s.hung = true → s.inExecute = true

/-- The default BUS for the calls to come: the byte-addressed memory of R63, no device event. -/
abbrev State.DefaultBus (s : State) : Prop := s.busEvents = []

/-- Every bus call to come issues no command; devices may answer reads and lose writes. -/
abbrev State.SilentBus (s : State) : Prop := ∀ e ∈ s.busEvents, e.cmds = []

/-- The three kinds of word the illegal-opcode handler runs, each with the address of its vector's
entry (R74, R121 to R123). -/
def IllegalKind (i : Instr) (entry : Word) : Prop :=
  (∃ p, i = .lineF p) ∧ entry = 0x2C ∨ (∃ p, i = .lineA p) ∧ entry = 0x28 ∨
    (∃ op, i = .illegal op) ∧ entry = 0x10

/-- A level is accepted by resolution (R188): a transition into 7, or strictly above the mask. -/
abbrev State.Accepts (s : State) (level : BitVec 3) : Prop :=
  (s.intLevel ≠ 7 ∧ level = 7) ∨ s.mask < level

/-- An acknowledge answer selects a vector number (R101, R191): the sentinels' integer spellings are
ACK_AUTOVECTOR, read first, and ACK_SPURIOUS. -/
def AnswerSelects (p : Params) (level : BitVec 3) (answer : AckAnswer) (v : Nat) : Prop :=
  answer = .autovector ∧ v = 24 + level.toNat ∨ answer = .spurious ∧ v = 24 ∨
    (∃ n : Word, answer = .vector n ∧ n.toNat ≤ 255 ∧ v = n.toNat) ∨
    answer = .integer p.ackAutovector ∧ v = 24 + level.toNat ∨
    answer = .integer p.ackSpurious ∧ p.ackSpurious ≠ p.ackAutovector ∧ v = 24 ∨
    (∃ n : Word, answer = .integer n ∧ n ≠ p.ackAutovector ∧ n ≠ p.ackSpurious ∧
      n.toNat ≤ 255 ∧ v = n.toNat)

/-- The next acknowledge call is listed, issues no command and selects a vector number. -/
def State.AckSelects (s : State) (level : BitVec 3) (rest : List AckRun) (v : Nat) : Prop :=
  ∃ answer, s.ackRuns = { cmds := [], answer } :: rest ∧ AnswerSelects s.params level answer v

/-- A running quantum with nothing to do at its boundary but the fetch and the dispatch. -/
abbrev State.PlainBoundary (s : State) : Prop :=
  s.inExecute = true ∧ s.hung = false ∧ s.haltReq = false ∧ s.irqPending = false ∧ s.hookRuns = [] ∧
    s.busEvents = [] ∧ s.params.loopTest = .after

/-- Between quanta, ready to run: built, not stopped, nothing pending, no debt, no collaborator turn. -/
abbrev State.PlainIdle (s : State) : Prop :=
  s.tableBuilt = true ∧ s.inExecute = false ∧ s.hung = false ∧ s.stopped = false ∧ s.haltReq = false ∧
    s.irqPending = false ∧ s.interruptCycles = 0 ∧ s.hookRuns = [] ∧ s.busEvents = [] ∧
    s.params.loopTest = .after ∧ 1 ≤ s.clockMult

/-- The instruction goes on. -/
def Goes (i : Instr) (s : State) : Prop := ∃ t, exec i s = .next t

/-- A byte of memory (R60). -/
def State.byteAt (s : State) (x : Nat) : Byte := s.mem.byteAt x

/-- Two states agree in every general register. -/
def SameRegisters (s t : State) : Prop := t.d = s.d ∧ t.a = s.a

/-- Two states agree in every field of the status register. -/
def SameStatus (s t : State) : Prop :=
  t.cc = s.cc ∧ t.mask = s.mask ∧ t.supervisor = s.supervisor ∧ t.trace = s.trace

/-- Two states agree in the whole Register File, as R20 lists it. -/
def SameRegisterFile (s t : State) : Prop :=
  SameRegisters s t ∧ t.pc = s.pc ∧ SameStatus s t ∧ t.stopped = s.stopped ∧ t.haltReq = s.haltReq ∧
    t.remaining = s.remaining ∧ t.interruptCycles = s.interruptCycles ∧ t.intLevel = s.intLevel

/-- Two states agree in the run-control state and the interrupt latches. -/
def SameControl (s t : State) : Prop :=
  t.stopped = s.stopped ∧ t.haltReq = s.haltReq ∧ t.intLevel = s.intLevel ∧
    t.irqPending = s.irqPending ∧ t.pendingLevel = s.pendingLevel ∧ t.inExecute = s.inExecute ∧
    t.hung = s.hung

/-- Two states agree in the cycle counters and the clock multiplier. -/
def SameCounters (s t : State) : Prop :=
  t.remaining = s.remaining ∧ t.interruptCycles = s.interruptCycles ∧
    t.quantumBudget = s.quantumBudget ∧ t.clockMult = s.clockMult

/-- Two states agree in the dispatch table and the parameters. -/
def SameTable (s t : State) : Prop :=
  t.table = s.table ∧ t.tableBuilt = s.tableBuilt ∧ t.params = s.params

/-- Two states read the same byte at every address. -/
def SameMemory (s t : State) : Prop := ∀ x, t.byteAt x = s.byteAt x

/-- Memory with the exception frame of `pc` and `sr` below the stack pointer `sp` (R184). -/
def State.withFrame (s : State) (sp pc : Word) (sr : HalfWord) : Memory :=
  (s.mem.store s.params.byteOrder .long (sp - 4) pc).store s.params.byteOrder .word (sp - 6)
    (sr.setWidth 32)

/-! ## What one run of a handler does -/

/-- One action a run carries out, with the state and the values read so far it is carried out at. -/
structure HandlerMoment where
  act   : HandlerAction
  temps : List Word
  state : State

/-- The actions a run carries out, in order: its reads and choices decide which. -/
def handlerTrail (op : HalfWord) : HandlerProg → List Word → State → List HandlerMoment
  | .returns _, _, _ => []
  | .hangs, _, _ => []
  | .act act rest, temps, s =>
    { act, temps, state := s } :: handlerTrail op rest temps (handlerStep op temps act s)
  | .read size x rest, temps, s =>
    handlerTrail op rest (temps ++ [busAnswer size (exprValue op temps s x) s]) (afterRead requestIRQ s)
  | .choose c yes no, temps, s =>
    if exprValue op temps s c ≠ 0 then handlerTrail op yes temps s else handlerTrail op no temps s

/-- The actions of a run. -/
def handlerDone (op : HalfWord) (p : HandlerProg) (s : State) : List HandlerAction :=
  (handlerTrail op p [] s).map HandlerMoment.act

/-- Where one action stores: a write at the address its meaning computes, an exception at the two
slots of its frame below the stack pointer as it stands (R184). -/
def momentStores (op : HalfWord) (m : HandlerMoment) : List (Size × Word) :=
  match m.act with
  | .write size x _ => [(size, exprValue op m.temps m.state x)]
  | .raiseException _ => [(.long, stackPointer m.state - 4), (.word, stackPointer m.state - 6)]
  | .setD _ _ | .setA _ _ | .setPc _ | .setCc _ | .setMask _ | .setSupervisor _ | .setTrace _
  | .unpackSR _ | .setStopped _ | .stop => []

/-- Where a run stores, in order. -/
def handlerStores (op : HalfWord) (p : HandlerProg) (s : State) : List (Size × Word) :=
  (handlerTrail op p [] s).flatMap (momentStores op)

/-- The cost a run returns; `none` where it never returns (93 U13). -/
def handlerCost (op : HalfWord) : HandlerProg → List Word → State → Option Int
  | .returns cost, _, _ => some cost
  | .hangs, _, _ => none
  | .act act rest, temps, s => handlerCost op rest temps (handlerStep op temps act s)
  | .read size x rest, temps, s =>
    handlerCost op rest (temps ++ [busAnswer size (exprValue op temps s x) s]) (afterRead requestIRQ s)
  | .choose c yes no, temps, s =>
    if exprValue op temps s c ≠ 0 then handlerCost op yes temps s else handlerCost op no temps s

/-- Does an expression read the status register? -/
def exprReadsSR : HandlerExpr → Bool
  | .const _ | .opcode | .d _ | .a _ | .pc | .temp _ | .stopped | .haltReq | .intLevel
  | .counterPart _ _ | .counterBelow _ _ => false
  | .sr => true
  | .unary _ e => exprReadsSR e
  | .binary _ e f => exprReadsSR e || exprReadsSR f

/-- Does an action read the status register, but for the copy an exception saves in its frame? -/
def actionReadsSR : HandlerAction → Bool
  | .setD _ e | .setA _ e | .setPc e | .setCc e | .setMask e | .setSupervisor e | .setTrace e
  | .unpackSR e => exprReadsSR e
  | .write _ x e => exprReadsSR x || exprReadsSR e
  | .raiseException _ | .setStopped _ | .stop => false

/-- Can a program read memory (an exception reads its vector's entry)? -/
def handlerLoads : HandlerProg → Bool
  | .returns _ | .hangs => false
  | .act act rest =>
    (match act with
    | .raiseException _ => true
    | _ => false) || handlerLoads rest
  | .read _ _ _ => true
  | .choose _ yes no => handlerLoads yes || handlerLoads no

/-- Can a program read the status register: itself, or in memory after an exception saved it there? -/
def handlerReadsSR : HandlerProg → Bool
  | .returns _ | .hangs => false
  | .act act rest =>
    actionReadsSR act || handlerReadsSR rest ||
      (match act with
      | .raiseException _ => handlerLoads rest
      | _ => false)
  | .read _ x rest => exprReadsSR x || handlerReadsSR rest
  | .choose c yes no => exprReadsSR c || handlerReadsSR yes || handlerReadsSR no

/-! ## Dispatches at plain boundaries -/

/-- What the dispatch of the word at the pc bills, at a plain boundary: an illegal word its fixed
charge (R120), an external word what its handler returns (R115). -/
def dispatchCost (s : State) : Option Int :=
  match s.table.lookup (fetchWord s) with
  | .illegal => some s.params.illegalOpcodeCycles
  | .external id =>
    handlerCost (fetchWord s) (handlerProg id (fetchWord s) s) [] (enterHandler id s)

/-- The actions that dispatch carries out: none of a handler's for an illegal word. -/
def dispatchDone (s : State) : List HandlerAction :=
  match s.table.lookup (fetchWord s) with
  | .illegal => []
  | .external id =>
    handlerDone (fetchWord s) (handlerProg id (fetchWord s) s) (enterHandler id s)

/-- The state after `n` dispatches, the loop test left out. -/
def afterDispatches : Nat → State → State
  | 0, s => s
  | n + 1, s =>
    match exec (decodeWord s.table (fetchWord s)) s with
    | .next t => afterDispatches n t
    | .fault _ => s
    | .refused _ => s

/-! ## Commands of COLLABORATOR -/

/-- HOST's command of the same name (R5, R6). -/
def collabInstr : CollabCmd → Instr
  | .raiseIRQ level => .raiseIRQ level.toNat
  | .debugHalt => .debugHalt
  | .debugResume => .debugResume
  | .get reg => .get reg
  | .set reg v => .set reg v
  | .cyclesRun => .cyclesRun
  | .cyclesRemaining => .cyclesRemaining
  | .modifyTimeslice n => .modifyTimeslice n
  | .endTimeslice => .endTimeslice
  | .isValidInstruction op => .isValidInstruction op
  | .getClockMultiplier => .getClockMultiplier

end Sys2Proof.Machine
end

