-- ==== Sys2Proof/Certificates/Slice0/Obligations.lean ====
section
/-! DEFINITION. The statements for the provers. Each docstring names the rule of spec/ it formalises
and, where a clause rests on a choice of the model or on a decision the spec marks as its own, the
log entry or the decision. -/

open Sys2Proof Sys2Proof.Machine

/-! ## Encoding -/

/-- 30_encoding.md R91 to R99: the decoder reads back every well-formed instruction, every operand at
every value. The command transaction is the model's choice (log entry 16), codes and register numbers
are the spec's decisions D30 and D6. -/
def Obligations.DecodeReadsBackEncode : Prop :=
  ∀ (t : Table) (i : Instr), i.wellFormed t = true → decodePacket t (encode i) = .ok i

/-- R91 to R99: whatever decodes encodes back to the same word or transaction, so no bit is dropped
and no two instructions share an encoding. Log entry 16, decisions D6 and D30. -/
def Obligations.EncodeReadsBackDecode : Prop :=
  ∀ (t : Table) (p : Packet) (i : Instr), decodePacket t p = .ok i → encode i = p

/-- R94, R99: words and codes written out from the spec decode to what they stand for. The table with
one external slot is an example, not the hardware's; the codes are decision D30. -/
def Obligations.SpecWordsDecodeAsWritten : Prop :=
  decodeWord .allIllegal 0b1111000100100011 = .lineF 0b000100100011 ∧
  decodeWord .allIllegal 0b1010010001010110 = .lineA 0b010001010110 ∧
  decodeWord .allIllegal 0b0100101011111100 = .illegal 0x4AFC ∧
  decodeWord { rows := [⟨0x4E71, 0xFFFF, "nop", 0, 0⟩], slots := [] } 0b0100111001110001 =
    .external 0x4E71 ∧
  decodeCommand ⟨0b0000, []⟩ = .ok .pulseReset ∧
  decodeCommand ⟨0b0001, [10]⟩ = .ok (.execute 10) ∧
  decodeCommand ⟨0b0010, [6]⟩ = .ok (.raiseIRQ 6) ∧
  decodeCommand ⟨0b0011, [17]⟩ = .ok (.get .sr) ∧
  decodeCommand ⟨0b0100, [15, 0x1000]⟩ = .ok (.set (.a 7) 0x1000) ∧
  decodeCommand ⟨0b1010, [-5]⟩ = .ok (.setClockMultiplier (-5)) ∧
  decodeCommand ⟨0b1101, []⟩ = .ok .debugResume

/-- R93, R94, R104: the slot alone tells EXTERNAL from the illegal-opcode classes, and the top nibble
alone tells those apart, for every word and table. -/
def Obligations.SlotAndNibbleSelectTheKind : Prop :=
  ∀ (t : Table) (op : HalfWord),
    (t.lookup op ≠ .illegal → decodeWord t op = .external op) ∧
    (t.lookup op = .illegal →
      (op.toNat / 4096 = 15 → ∃ p : BitVec 12, decodeWord t op = .lineF p ∧ p.toNat = op.toNat % 4096) ∧
      (op.toNat / 4096 = 10 → ∃ p : BitVec 12, decodeWord t op = .lineA p ∧ p.toNat = op.toNat % 4096) ∧
      (op.toNat / 4096 ≠ 15 → op.toNat / 4096 ≠ 10 → decodeWord t op = .illegal op))

/-! ## The step -/

/-- R132 to R138: at a plain boundary (LOOP_TEST = after, log entry 21) the two bytes at the pc and
pc + 1, read as one word in the byte order of the BUS, select the instruction, `step` runs its `exec`
at that very state, and the loop test follows. Under BYTE_ORDER = big the byte at the pc is the high
one: R63, decision D5, log entry 6. What a hung handler does to the loop test is log entry 11. -/
def Obligations.StepRunsTheWordAtThePc : Prop :=
  ∀ (s : State) (i : Instr) (rest : List Byte), s.PlainBoundary →
    decodeBytes s.params.byteOrder s.table [s.byteAt s.pc.toNat, s.byteAt (s.pc + 1).toNat] =
      .ok (i, rest) →
    step s =
      match exec i s with
      | .next t =>
        .next (if t.hung = false ∧ t.params.loopTest = .after ∧ t.remaining ≤ 0 then normalReturn t else t)
      | .fault f => .fault f
      | .refused r => .refused r

/-- R132, R134 to R137: at any boundary that is not a halt, the pending interrupt, the hook and the
fetch come first, in that order, and the instruction runs at the state they leave. LOOP_TEST = after
(log entry 21); a handler that never returned has not reached the loop test (log entry 11). -/
def Obligations.IterationPartsComeInOrder : Prop :=
  ∀ s : State, s.inExecute = true → s.hung = false → s.haltReq = false → s.params.loopTest = .after →
    let b := runHook (if s.irqPending then resolveIRQ s.pendingLevel { s with irqPending := false } else s)
    let i := decodeWord s.table ((busAnswer .word b.pc b).setWidth 16)
    ∀ t, exec i (afterRead requestIRQ b) = .next t →
      step s = .next (if t.hung = false ∧ t.remaining ≤ 0 then normalReturn t else t)

/-- R6: outside a quantum `step` runs HOST's next command, and does nothing where none waits (the
idle step is the model's choice, log entry 17). -/
def Obligations.StepRunsTheNextCommand : Prop :=
  ∀ (s : State), s.inExecute = false →
    (s.cmds = [] → step s = .next s) ∧
    (∀ c rest i, s.cmds = c :: rest → decodeCommand c = .ok i → step s = exec i { s with cmds := rest })

/-- R6: while `execute` is in progress HOST's commands wait, untouched, whatever happens in the
iteration. -/
def Obligations.HostCommandsWaitDuringExecute : Prop :=
  ∀ s t : State, s.inExecute = true → step s = .next t → t.cmds = s.cmds

/-- The model's own loading convention (log entry 26): the word or command placed by
`withFetchWord` is the one the very next step runs. -/
def Obligations.PlacedWordIsTheNextInstruction : Prop :=
  ∀ (s : State) (w : Nat), s.mem.wf = true →
    (w < 65536 →
      step (s.withFetchWord 16 w) =
        closeIteration (exec (decodeWord s.table (BitVec.ofNat 16 w)) (s.withFetchWord 16 w))) ∧
    (∀ i, decodeTableWord 8 w = some i →
      step (s.withFetchWord 8 w) = exec i { s with inExecute := false })

/-! ## The illegal-opcode handler -/

/-- R121 to R123 with R183, R184: LINE_F, LINE_A and ILLEGAL under the default BUS, the whole next
state. The saved PC and the steps not shared with interrupts are decisions D18 and D19; the fallback
clause is the parameter ILLEGAL_ZERO_VECTOR_FALLBACK (log entry 21); the charge and the vector of the
uninitialized interrupt are parameters (4 and 15, log entries 23 and 8). -/
def Obligations.IllegalWordsTakeTheirVectors : Prop :=
  ∀ (s : State) (i : Instr) (entry : Word), IllegalKind i entry → s.DefaultBus →
    exec i s = .next { s with
      supervisor := true
      a          := s.a.set 7 (s.a.get 7 - 6)
      mem        := s.withFrame (s.a.get 7) s.pc (packSR s)
      pc         := if s.load .long entry = 0 ∧ s.params.illegalZeroVectorFallback = true
                    then s.load .long (BitVec.ofNat 32 (s.params.vecUninitializedInterrupt.toNat * 4))
                    else s.load .long entry
      remaining  := s.remaining - s.params.illegalOpcodeCycles }

/-- R118, R121 to R123, R183: the frame of the three illegal words, with devices that answer and lose
accesses as they like but issue no command: only the pc, A[7], the supervisor bit, `remaining` and
the six bytes of the stack frame change. -/
def Obligations.IllegalWordsFrame : Prop :=
  ∀ (s t : State) (i : Instr) (entry : Word), IllegalKind i entry → s.SilentBus → s.mem.wf = true →
    exec i s = .next t →
    t.d = s.d ∧ (∀ j : Fin 8, j ≠ 7 → t.a.get j = s.a.get j) ∧ t.a.get 7 = s.a.get 7 - 6 ∧
    t.supervisor = true ∧ t.cc = s.cc ∧ t.mask = s.mask ∧ t.trace = s.trace ∧ SameControl s t ∧
    t.remaining = s.remaining - s.params.illegalOpcodeCycles ∧ t.interruptCycles = s.interruptCycles ∧
    t.quantumBudget = s.quantumBudget ∧ t.clockMult = s.clockMult ∧ SameTable s t ∧
    t.cmds = s.cmds ∧ t.result = s.result ∧ t.collabResult = s.collabResult ∧
    (∀ x, (∀ k < 6, (s.a.get 7 - 6 + BitVec.ofNat 32 k).toNat ≠ x) → t.byteAt x = s.byteAt x)

/-- R76, R184: after LINE_F, LINE_A, ILLEGAL or a delivered interrupt, under the default BUS, the frame
reads back: SP down by 6, SR word at SP, PC long at SP + 2, its six bytes in order, and every byte
outside it as before. The big-endian order of the bytes is log entry 6. -/
def Obligations.DeliveredFrameReadsBack : Prop :=
  ∀ (s t : State), s.DefaultBus → s.mem.wf = true →
    ((∃ i entry, IllegalKind i entry ∧ exec i s = .next t) ∨
      (∃ l rest v, s.AckSelects l rest v ∧ t = deliver l s)) →
    let sp := t.a.get 7
    sp = s.a.get 7 - 6 ∧ t.load .word sp = (packSR s).setWidth 32 ∧ t.load .long (sp + 2) = s.pc ∧
    (s.params.byteOrder = .big →
      [0, 1, 2, 3, 4, 5].map (fun k => t.byteAt (sp + BitVec.ofNat 32 k).toNat) =
        [(packSR s).extractLsb' 8 8, (packSR s).extractLsb' 0 8, s.pc.extractLsb' 24 8,
          s.pc.extractLsb' 16 8, s.pc.extractLsb' 8 8, s.pc.extractLsb' 0 8]) ∧
    (∀ x, (∀ k < 6, (sp + BitVec.ofNat 32 k).toNat ≠ x) → t.byteAt x = s.byteAt x)

/-- 60_exceptions.md R184: the push of the frame under the default BUS, the two decrements and the two
writes, from whatever pc and status word are saved; the new stack pointer is the old one minus 6, and
the two values read back at it as written. -/
def Obligations.PushFrameWritesLongThenWord : Prop :=
  ∀ (s : State) (raise : BitVec 3 → State → State) (savedPC : Word) (savedSR : HalfWord),
    s.DefaultBus →
    pushFrame raise savedPC savedSR s = { s with
      a   := (s.a.set 7 (s.a.get 7 - 4)).set 7 (s.a.get 7 - 4 - 2)
      mem := (s.mem.store s.params.byteOrder .long (s.a.get 7 - 4) savedPC).store s.params.byteOrder
               .word (s.a.get 7 - 4 - 2) (savedSR.setWidth 32) } ∧
    (s.mem.wf = true →
      let t := pushFrame raise savedPC savedSR s
      t.a.get 7 = s.a.get 7 - 6 ∧ t.load .word (t.a.get 7) = savedSR.setWidth 32 ∧
      t.load .long (t.a.get 7 + 2) = savedPC)

/-- R13, R65, R120, R180, 93 U13: an instruction word never stops the engine: on any bus, with any
collaborators and any handlers, its dispatch is a next state. -/
def Obligations.InstructionWordsAlwaysGoOn : Prop :=
  ∀ (s : State) (op : HalfWord), Goes (decodeWord s.table op) s

/-! ## External handlers -/

/-- R115, R116, R137, 93 U13: EXTERNAL runs HANDLERS of the slot on the word: the program given, else
a free one of the id, the word, what it sees of the machine and a draw (log entry 10). A run does its
actions, reads and choices in order, and where it returns its signed cost is billed; where it never
returns, every later step of the quantum changes nothing (log entry 11). A handler has read access to
the whole Register File of R20: two machines of one status-word layout that no expression tells apart,
or that look alike to a free handler, agree in all of it. -/
def Obligations.ExternalRunsItsHandlerAndBills : Prop :=
  (∀ (s : State) (op : HalfWord) (id : Nat), s.table.lookup op = .external id →
    (∀ p, listedHandler s.params.handlers id = some p →
      exec (.external op) s = .next (runHandler op p [] s)) ∧
    (listedHandler s.params.handlers id = none →
      exec (.external op) s = .next (runHandler op (Config.freeHandler id op (handlerView s) s.draws) []
        { s with draws := s.draws + 1 }))) ∧
  (∀ (u : State) (op : HalfWord) (temps : List Word),
    (∀ c, runHandler op (.returns c) temps u = { u with remaining := u.remaining - c }) ∧
    (∀ act rest, runHandler op (.act act rest) temps u =
      runHandler op rest temps (handlerStep op temps act u)) ∧
    (∀ size x rest, runHandler op (.read size x rest) temps u =
      runHandler op rest (temps ++ [busAnswer size (exprValue op temps u x) u]) (afterRead requestIRQ u)) ∧
    (∀ c yes no, runHandler op (.choose c yes no) temps u =
      runHandler op (if exprValue op temps u c = 0 then no else yes) temps u) ∧
    (u.inExecute = true → step (runHandler op .hangs temps u) = .next (runHandler op .hangs temps u) ∧
      (runHandler op .hangs temps u).remaining = u.remaining)) ∧
  ∀ (s t : State) (op : HalfWord) (temps : List Word),
    ((∀ e, exprValue op temps t e = exprValue op temps s e) → t.params = s.params →
      s.params.srLayout.wf = true → s.params.srLayout.ccField s.cc = s.cc →
      s.params.srLayout.ccField t.cc = t.cc → SameRegisterFile s t) ∧
    (handlerView t = handlerView s → SameRegisterFile s t ∧ t.mem = s.mem)

/-- R116, R117, R118: what each register, memory and run-control action of a handler writes, and that
it writes nothing else (the example of R115 is the first clause; a value may use what a read
returned). -/
def Obligations.ExternalHandlerWritesWhatItSays : Prop :=
  ∀ (s : State) (op : HalfWord) (id : Nat) (cost : Int), s.table.lookup op = .external id →
    let v (e : HandlerExpr) := exprValue op [] s e
    let does (act : HandlerAction) := listedHandler s.params.handlers id = some (.act act (.returns cost))
    (∀ e, does (.setPc e) →
      exec (.external op) s = .next { s with pc := v e, remaining := s.remaining - cost }) ∧
    (∀ j e, does (.setD j e) →
      exec (.external op) s = .next { s with d := s.d.set j.val (v e) j.isLt, remaining := s.remaining - cost }) ∧
    (∀ j e, does (.setA j e) →
      exec (.external op) s = .next { s with a := s.a.set j.val (v e) j.isLt, remaining := s.remaining - cost }) ∧
    (∀ e, does (.setCc e) →
      exec (.external op) s = .next { s with
        cc := s.params.srLayout.ccField ((v e).setWidth 16), remaining := s.remaining - cost }) ∧
    (∀ e, does (.setMask e) →
      exec (.external op) s = .next { s with mask := (v e).setWidth 3, remaining := s.remaining - cost }) ∧
    (∀ e, does (.setSupervisor e) →
      exec (.external op) s = .next { s with
        supervisor := decide (v e ≠ 0), remaining := s.remaining - cost }) ∧
    (∀ e, does (.setTrace e) →
      exec (.external op) s = .next { s with trace := decide (v e ≠ 0), remaining := s.remaining - cost }) ∧
    (∀ e, does (.unpackSR e) →
      exec (.external op) s = .next { unpackSR ((v e).setWidth 16) s with remaining := s.remaining - cost }) ∧
    (∀ b, does (.setStopped b) →
      exec (.external op) s = .next { s with stopped := b, remaining := s.remaining - cost }) ∧
    (does .stop → exec (.external op) s = .next { s with stopped := true, remaining := 0 - cost }) ∧
    (∀ size x e, does (.write size x e) → s.DefaultBus →
      exec (.external op) s = .next { s with
        mem := s.store size (v x) (v e), remaining := s.remaining - cost }) ∧
    (∀ size x j, s.DefaultBus →
      listedHandler s.params.handlers id = some (.read size x (.act (.setD j (.temp 0)) (.returns cost))) →
      exec (.external op) s = .next { s with
        d := s.d.set j.val (s.load size (v x)) j.isLt, remaining := s.remaining - cost })

/-- R118, R183: an exception of any vector raised by a handler, under the default BUS, the whole next
state; the mask, the trace bit, `stopped` and `interruptCycles` stay (decision D19). -/
def Obligations.ExternalHandlerRaisesAnyVector : Prop :=
  ∀ (s : State) (op : HalfWord) (id : Nat) (cost : Int) (vector : Byte),
    s.table.lookup op = .external id →
    listedHandler s.params.handlers id = some (.act (.raiseException vector) (.returns cost)) →
    s.DefaultBus → s.params.illegalZeroVectorFallback = false →
    exec (.external op) s = .next { s with
      supervisor := true
      a          := s.a.set 7 (s.a.get 7 - 6)
      mem        := s.withFrame (s.a.get 7) s.pc (packSR s)
      pc         := s.load .long (BitVec.ofNat 32 (vector.toNat * 4))
      remaining  := s.remaining - cost }

/-- R118: what no external handler changes. On any bus: the table, the parameters, the clock
multiplier, the loop flag, HOST's ports. With devices that issue no command: none of the engine's
latches, budgets and switches, and no register, status field or byte of memory that the actions of the
run do not name: a byte of memory only at the addresses the run stores to, A[0] to A[6] only by a
`setA`, exception or not. The contract is the model's by type (D26, log entry 10); a run that never
returns bills nothing (log entry 11). -/
def Obligations.ExternalHandlerFrame : Prop :=
  ∀ (s t : State) (op : HalfWord) (id : Nat), s.table.lookup op = .external id →
    exec (.external op) s = .next t →
    (SameTable s t ∧ t.clockMult = s.clockMult ∧ t.inExecute = s.inExecute ∧ t.cmds = s.cmds ∧
      t.result = s.result ∧ t.hookRuns = s.hookRuns) ∧
    (s.SilentBus →
      t.interruptCycles = s.interruptCycles ∧ t.quantumBudget = s.quantumBudget ∧
      t.intLevel = s.intLevel ∧ t.irqPending = s.irqPending ∧ t.pendingLevel = s.pendingLevel ∧
      t.haltReq = s.haltReq ∧ t.ackRuns = s.ackRuns ∧ t.collabResult = s.collabResult ∧
      let p := handlerProg id op s
      let u := enterHandler id s
      let done := handlerDone op p u
      (∀ j, (∀ e, .setD j e ∉ done) → t.d.get j = s.d.get j) ∧
      (∀ j, (∀ e, .setA j e ∉ done) → (j = 7 → ∀ v, .raiseException v ∉ done) →
        t.a.get j = s.a.get j) ∧
      ((∀ e, .setMask e ∉ done) → (∀ e, .unpackSR e ∉ done) → t.mask = s.mask) ∧
      ((∀ e, .setCc e ∉ done) → (∀ e, .unpackSR e ∉ done) → t.cc = s.cc) ∧
      ((∀ e, .setTrace e ∉ done) → (∀ e, .unpackSR e ∉ done) → t.trace = s.trace) ∧
      ((∀ e, .setSupervisor e ∉ done) → (∀ e, .unpackSR e ∉ done) → (∀ v, .raiseException v ∉ done) →
        t.supervisor = s.supervisor) ∧
      ((∀ e, .setPc e ∉ done) → (∀ v, .raiseException v ∉ done) → t.pc = s.pc) ∧
      ((∀ b, .setStopped b ∉ done) → .stop ∉ done → t.stopped = s.stopped) ∧
      (.stop ∉ done → t.remaining = s.remaining - (handlerCost op p [] u).getD 0) ∧
      (s.mem.wf = true → ∀ y,
        (∀ w ∈ handlerStores op p u, ∀ k < sizeBytes w.1, (w.2 + BitVec.ofNat 32 k).toNat ≠ y) →
        t.byteAt y = s.byteAt y))

/-! ## pulseReset -/

/-- R230, R231: with 0x00001000 at address 0 and 0x00002000 at address 4, after `pulseReset` the stack
pointer and the program counter are those values, also when only the eight bytes are known (their
order is log entry 6). -/
def Obligations.ResetLoadsStackPointerAndPc : Prop :=
  ∀ s : State, s.inExecute = false → s.tableBuilt = true → s.DefaultBus →
    (s.load .long 0 = 0x1000 ∧ s.load .long 4 = 0x2000 ∨
      s.params.byteOrder = .big ∧ [0, 1, 2, 3, 4, 5, 6, 7].map s.byteAt = [0, 0, 0x10, 0, 0, 0, 0x20, 0]) →
    ∃ t, exec .pulseReset s = .next t ∧ regValue .sp t = 0x1000 ∧ regValue (.a 7) t = 0x1000 ∧
      regValue .pc t = 0x2000

/-- R44, R230, R233: every `pulseReset`, the first and the later ones, on any memory: the reset values
(7, 1 and 0 for mask, s and t are decision D9, log entry 4: here the parameters that hold them), what
it leaves alone, and the table: built by the first call, not rebuilt by a later one. D, A[0] to A[6]
and cc are not mentioned: they are free (log entry 3). -/
def Obligations.ResetLeavesTheStatedValues : Prop :=
  ∀ (s : State) (tab : Table), s.inExecute = false → s.DefaultBus →
    (s.tableBuilt = true ∧ tab = s.table ∨
      s.tableBuilt = false ∧ buildTable s.params.desc s.params.decode = some tab) →
    ∃ t, exec .pulseReset s = .next t ∧
      t.mask = s.params.resetMask ∧ t.supervisor = s.params.resetSupervisor ∧
      t.trace = s.params.resetTrace ∧ t.stopped = false ∧ t.haltReq = false ∧
      t.remaining = 0 ∧ t.interruptCycles = 0 ∧ t.quantumBudget = 0 ∧ t.intLevel = 0 ∧
      t.a.get 7 = s.load .long 0 ∧ t.pc = s.load .long 4 ∧
      t.irqPending = s.irqPending ∧ t.pendingLevel = s.pendingLevel ∧ t.clockMult = s.clockMult ∧
      t.inExecute = false ∧ t.table = tab ∧ t.tableBuilt = true ∧ t.params = s.params ∧
      SameMemory s t ∧ t.result = none ∧ t.cmds = s.cmds

/-- R113, R114, R230: the first `pulseReset` builds the table from DESC and DECODE, and an aborted
construction is fatal (the fault's form is log entry 19). -/
def Obligations.FirstResetBuildsTheTable : Prop :=
  ∀ s : State, s.inExecute = false → s.tableBuilt = false →
    (∀ t, buildTable s.params.desc s.params.decode = some t →
      ∃ u, exec .pulseReset s = .next u ∧ u.table = t ∧ u.tableBuilt = true ∧ u.params = s.params) ∧
    (buildTable s.params.desc s.params.decode = none →
      exec .pulseReset s = .fault .tableConstructionAbort)

/-- R113: the table the model builds reads, slot for slot, as the spec's loops over all 65536 opcodes
build it, and aborts exactly when they do (decision D28 for the orders; log entry 18 for the compact
form). -/
def Obligations.BuiltTableIsTheSpecsLoops : Prop :=
  ∀ (desc : List Descriptor) (decode : List (HalfWord × DecodeEntry)),
    decodeAscending 0 decode = true →
    (buildTable desc decode).map Table.lookup = buildByLoops desc decode

/-- R38, R125, R233: over every step of every machine, a built table never changes. That no step
changes the parameters is the model's choice of holding them in State (log entry 1), after R9 and R41:
parameters are configuration, not state. -/
def Obligations.BuiltTableNeverChanges : Prop :=
  ∀ s t : State, step s = .next t →
    t.params = s.params ∧ (s.tableBuilt = true → t.table = s.table ∧ t.tableBuilt = true)

/-- R95, R125: with admitted parameters, in every state that meets the invariant and has its table
built, 0xF123, 0xA456 and 0x4AFC decode to LINE_F, LINE_A and ILLEGAL and are not valid
instructions. -/
def Obligations.FixedSlotsAreIllegal : Prop :=
  ∀ s : State, s.Inv → s.tableBuilt = true → s.params.admitted = true →
    decodeWord s.table 0xF123 = .lineF 0x123 ∧ decodeWord s.table 0xA456 = .lineA 0x456 ∧
    decodeWord s.table 0x4AFC = .illegal 0x4AFC ∧
    ∀ op ∈ [(0xF123 : HalfWord), 0xA456, 0x4AFC],
      exec (.isValidInstruction op) s = .next { s with result := some (.truth false) }

/-- R44, R45, R9: `State.reset` is what the first `pulseReset` leaves of the power-on state under the
reset state's parameters, and those have the values R9 states. The choices in it are the model's: the
zeros of D, A[0] to A[6] and cc (log entry 3) are not claimed; pc and A[7] are 0 because unlisted
memory reads 0 (log entry 5); DESC and DECODE are empty (log entry 2) and so is the table. -/
def Obligations.ResetStateIsAfterTheFirstReset : Prop :=
  (∃ t, exec .pulseReset (State.powerOn .standard) = .next t ∧
    { t with d := State.reset.d, a := State.reset.a, cc := State.reset.cc, draws := 0 } = State.reset ∧
    t.a.get 7 = State.reset.a.get 7) ∧
  let p := State.reset.params
  p.illegalOpcodeCycles = 4 ∧ p.irqServiceCycles = 56 ∧ p.vecUninitializedInterrupt = 15 ∧
  p.ackAutovector = 0xFFFFFFFF ∧ p.ackSpurious = 0xFFFFFFFE ∧
  p.srLayout = ⟨15, 13, 8, 0, 5⟩ ∧ p.byteOrder = .big ∧
  p.resetMask = 7 ∧ p.resetSupervisor = true ∧ p.resetTrace = false ∧ p.clockMultPowerOn = 1 ∧
  p.loopTest = .after ∧ p.endOfQuantumOrder = .countThenDischarge ∧ p.illegalZeroVectorFallback = false

/-! ## Refusals -/

/-- R236, R45: before the first `pulseReset` nine commands are refused and the others run. Decision
D10, log entry 24. -/
def Obligations.CommandsBeforeTheFirstReset : Prop :=
  ∀ s : State, s.tableBuilt = false →
    (∀ n, exec (.execute n) s = .refused .beforeFirstReset) ∧
    (∀ l : BitVec 3, exec (.raiseIRQ l.toNat) s = .refused .beforeFirstReset) ∧
    (∀ r, exec (.get r) s = .refused .beforeFirstReset) ∧
    (∀ r v, exec (.set r v) s = .refused .beforeFirstReset) ∧
    (∀ op, exec (.isValidInstruction op) s = .refused .beforeFirstReset) ∧
    exec .cyclesRun s = .refused .beforeFirstReset ∧
    exec .cyclesRemaining s = .refused .beforeFirstReset ∧
    (∀ n, exec (.modifyTimeslice n) s = .refused .beforeFirstReset) ∧
    exec .endTimeslice s = .refused .beforeFirstReset ∧
    Goes .getClockMultiplier s ∧ Goes .debugHalt s ∧ Goes .debugResume s ∧
    (s.inExecute = false → ∀ n, Goes (.setClockMultiplier n) s)

/-- R40, R130, R147, R230, R244: inside `execute` a second `execute`, a `pulseReset` and a change of
the multiplier are refused; R99, R100, R130: so are a level outside 0 to 7, a negative budget and the
codes above 13 with whatever operands. Decisions D3, D11, D23, D30, D34. -/
def Obligations.ForbiddenCommandsAreRefused : Prop :=
  ∀ s : State, s.tableBuilt = true →
    (s.inExecute = true →
      (∀ n, exec (.execute n) s = .refused .reentrant) ∧ exec .pulseReset s = .refused .reentrant ∧
      (∀ n, exec (.setClockMultiplier n) s = .refused .multiplierInsideQuantum)) ∧
    (s.inExecute = false → ∀ n < 0, exec (.execute n) s = .refused .negativeBudget) ∧
    (∀ l : Int, l < 0 ∨ 7 < l → exec (.raiseIRQ l) s = .refused .levelOutOfRange) ∧
    (s.inExecute = false → ∀ (code : Byte) args rest, 14 ≤ code.toNat → s.cmds = ⟨code, args⟩ :: rest →
      step s = .refused (.undecodable .commandUnassigned))

/-! ## execute -/

/-- R130: the stopped path returns N itself and does nothing else but clear the two counters. -/
def Obligations.StoppedExecuteReturnsItsBudget : Prop :=
  ∀ (s : State) (n : Int), s.tableBuilt = true → s.inExecute = false → s.stopped = true → 0 ≤ n →
    exec (.execute n) s = .next { s with
      remaining := 0, interruptCycles := 0, result := some (.count n) }

/-- 41_execution_loop.md R131: the start of a running quantum. The port `result` is the model's (log
entry 16). -/
def Obligations.ExecuteBeginsAQuantum : Prop :=
  ∀ (s : State) (n : Int), s.tableBuilt = true → s.inExecute = false → s.stopped = false → 0 ≤ n →
    exec (.execute n) s = .next { s with
      inExecute       := true
      quantumBudget   := n * s.clockMult
      remaining       := n * s.clockMult - s.interruptCycles
      interruptCycles := 0
      result          := none }

/-- 41_execution_loop.md R133: the halt return at a boundary of a quantum, whatever is pending; and
from the first boundary of a quantum begun with debt d, the result d / clockMult; under the spec's
setting of LOOP_TEST (log entry 21). The port `result` is the model's (log entry 16). -/
def Obligations.HaltRequestEndsTheQuantum : Prop :=
  ∀ s : State, s.haltReq = true → s.hung = false → s.params.loopTest = .after →
    (s.inExecute = true →
      step s = .next { s with
        remaining       := 0
        interruptCycles := 0
        inExecute       := false
        result          := some (.count ((s.quantumBudget - s.remaining).tdiv s.clockMult)) }) ∧
    (∀ n u, s.tableBuilt = true → s.inExecute = false → s.stopped = false → 0 ≤ n →
      exec (.execute n) s = .next u →
      ∃ t, step u = .next t ∧ t.result = some (.count (s.interruptCycles.tdiv s.clockMult)) ∧
        t.pc = s.pc ∧ t.irqPending = s.irqPending ∧ t.haltReq = true ∧ t.remaining = 0 ∧
        t.interruptCycles = 0 ∧ t.inExecute = false)

/-- R138, R139: the loop goes on while `remaining` is positive; the normal end, in both orders of
counting and discharging (END_OF_QUANTUM_ORDER, decision D13, log entry 21). -/
def Obligations.QuantumEndsWhenTheBudgetIsUsed : Prop :=
  ∀ s : State, s.hung = false → s.params.loopTest = .after →
    (0 < s.remaining → closeIteration (.next s) = .next s) ∧
    (s.remaining ≤ 0 → s.params.endOfQuantumOrder = .countThenDischarge →
      closeIteration (.next s) = .next { s with
        remaining       := s.remaining - s.interruptCycles
        interruptCycles := 0
        inExecute       := false
        result          := some (.count ((s.quantumBudget - s.remaining).tdiv s.clockMult)) }) ∧
    (s.remaining ≤ 0 → s.params.endOfQuantumOrder = .dischargeThenCount →
      closeIteration (.next s) = .next { s with
        remaining       := s.remaining - s.interruptCycles
        interruptCycles := 0
        inExecute       := false
        result          := some (.count
          ((s.quantumBudget - (s.remaining - s.interruptCycles)).tdiv s.clockMult)) })

/-- R140, R152 for a table with no external slot: whatever memory holds, `execute(N)` ends after
exactly k iterations, k the least number of dispatches of ILLEGAL_OPCODE_CYCLES each (4, log entry 23;
here any c of at least 1) that uses up N · clockMult (at least one), returns ck / clockMult and leaves
N · clockMult - ck. -/
def Obligations.IllegalWordsQuantumIsCountedExactly : Prop :=
  ∀ (s : State) (n : Int) (k : Nat) (rest : List CmdPacket), s.PlainIdle → 0 ≤ n →
    (∀ op, s.table.lookup op = .illegal) →
    let c := s.params.illegalOpcodeCycles
    1 ≤ c → 1 ≤ k → n * s.clockMult ≤ c * k → (k = 1 ∨ c * ((k : Int) - 1) < n * s.clockMult) →
    (∃ t, Host.Core.run core (k + 1) { s with cmds := ⟨1, [n]⟩ :: rest } = .next t ∧
      t.inExecute = false ∧ t.cmds = rest ∧ t.result = some (.count ((c * k).tdiv s.clockMult)) ∧
      t.remaining = n * s.clockMult - c * k ∧ t.a.get 7 = s.a.get 7 - BitVec.ofNat 32 (6 * k)) ∧
    (∀ j, 1 ≤ j → j ≤ k → ∃ t,
      Host.Core.run core j { s with cmds := ⟨1, [n]⟩ :: rest } = .next t ∧ t.inExecute = true)

/-- R152: with no debt, halt, interrupt or timeslice command, under any table and any handlers that
return (none of those run zeroes `remaining`, R119), `execute(N)` runs the least number of dispatches
whose costs reach N · clockMult, an illegal word counting its fixed charge (R120), returns their sum
scaled down and leaves the rest in `remaining`; the registers and memory are those the dispatches
leave. Free handlers are log entry 10. -/
def Obligations.QuantumChargesTheSumOfHandlerCosts : Prop :=
  ∀ (s : State) (n : Int) (costs : List Int) (rest : List CmdPacket), s.PlainIdle → 0 ≤ n → costs ≠ [] →
    let after (j : Nat) := afterDispatches j (beginQuantum n { s with cmds := rest })
    (∀ j, j < costs.length →
      dispatchCost (after j) = costs[j]? ∧ HandlerAction.stop ∉ dispatchDone (after j)) →
    n * s.clockMult ≤ costs.sum →
    (∀ j, 1 ≤ j → j < costs.length → (costs.take j).sum < n * s.clockMult) →
    ∃ t, Host.Core.run core (costs.length + 1) { s with cmds := ⟨1, [n]⟩ :: rest } = .next t ∧
      t.inExecute = false ∧ t.cmds = rest ∧
      t.result = some (.count (costs.sum.tdiv s.clockMult)) ∧
      t.remaining = n * s.clockMult - costs.sum ∧
      SameRegisters (after costs.length) t ∧ SameStatus (after costs.length) t ∧
      t.pc = (after costs.length).pc ∧ t.mem = (after costs.length).mem

/-! ## Timeslice, clock and debug commands -/

/-- R141 to R144, R146: what the two timeslice queries return, truncated toward zero, and that they
write nothing else; the two edits, `modifyTimeslice` under both settings of the OPEN parameter.
Decisions D14 to D17, log entry 20. -/
def Obligations.TimesliceCommandsReadAndSteerTheBudget : Prop :=
  ∀ (s : State) (c : Int), s.tableBuilt = true →
    exec .cyclesRun s = .next { s with
      result := some (.count ((s.quantumBudget - s.remaining).tdiv s.clockMult)) } ∧
    exec .cyclesRemaining s = .next { s with result := some (.count (s.remaining.tdiv s.clockMult)) } ∧
    (s.params.modifyTimesliceMode = .set →
      exec (.modifyTimeslice c) s = .next { s with remaining := c * s.clockMult, result := none }) ∧
    (s.params.modifyTimesliceMode = .add →
      exec (.modifyTimeslice c) s = .next { s with
        remaining     := s.remaining + c * s.clockMult
        quantumBudget := s.quantumBudget + c * s.clockMult
        result        := none }) ∧
    exec .endTimeslice s = .next { s with remaining := 0, result := none }

/-- R147, R148: the multiplier is clamped to at least 1, nothing is rescaled, and it reads back.
Decision D11. -/
def Obligations.ClockMultiplierIsClampedAndReadsBack : Prop :=
  ∀ (s : State) (v : Int),
    exec .getClockMultiplier s = .next { s with result := some (.count s.clockMult) } ∧
    (s.inExecute = false →
      exec (.setClockMultiplier v) s = .next { s with clockMult := if v < 1 then 1 else v, result := none } ∧
      ∀ t, exec (.setClockMultiplier v) s = .next t →
        exec .getClockMultiplier t = .next { t with result := some (.count (if v < 1 then 1 else v)) })

/-- R149, R150: the debug commands set and clear the halt request and nothing else, each idempotent. -/
def Obligations.DebugCommandsSetAndClearTheRequest : Prop :=
  ∀ s : State,
    exec .debugHalt s = .next { s with haltReq := true, result := none } ∧
    exec .debugResume s = .next { s with haltReq := false, result := none } ∧
    (∀ t, exec .debugHalt s = .next t → exec .debugHalt t = .next t) ∧
    (∀ t, exec .debugResume s = .next t → exec .debugResume t = .next t)

/-- R46: the clock multiplier is changed by HOST's `setClockMultiplier` and by nothing else. -/
def Obligations.OnlyItsCommandChangesTheMultiplier : Prop :=
  ∀ s t : State, step s = .next t → t.clockMult ≠ s.clockMult →
    s.inExecute = false ∧ ∃ v rest, s.cmds = ⟨10, [v]⟩ :: rest ∧ t.clockMult = max v 1

/-! ## Register access -/

/-- 42_register_access.md R163: `get` of a data or address register returns the raw 32-bit value and
writes nothing but the answer, into the model's port `result` (log entry 16). -/
def Obligations.GetReturnsGeneralRegisters : Prop :=
  ∀ (s : State) (j : Fin 8), s.tableBuilt = true →
    exec (.get (.d j)) s = .next { s with result := some (.value (s.d.get j)) } ∧
    exec (.get (.a j)) s = .next { s with result := some (.value (s.a.get j)) }

/-- R164 to R166: `get` of the pc, the status register, the stack-pointer alias and every unsupported
identifier (0, no error). Decisions D6, D7, D36; the number in the second clause is of the spec's own
layout of SR (log entry 7), under which cc has five bits. -/
def Obligations.GetReturnsTheOtherIdentifiers : Prop :=
  ∀ (s : State) (n : Int), s.tableBuilt = true →
    exec (.get .pc) s = .next { s with result := some (.value s.pc) } ∧
    exec (.get .sr) s = .next { s with result := some (.value ((packSR s).setWidth 32)) } ∧
    (s.params.srLayout = Params.standard.srLayout → s.cc.toNat < 32 →
      exec (.get .sr) s = .next { s with result := some (.value (BitVec.ofNat 32
        (s.trace.toNat * 32768 + s.supervisor.toNat * 8192 + s.mask.toNat * 256 + s.cc.toNat))) }) ∧
    exec (.get .sp) s = exec (.get (.a 7)) s ∧
    ∀ r ∈ [RegId.usp, .prefAddr, .prefData, .ppc, .ir, .other n],
      exec (.get r) s = .next { s with result := some (.value 0) }

/-- 42_register_access.md R167: `set` of a data or address register stores the full 32 bits and
changes no other register or state (it returns nothing: the port `result`, log entry 16). -/
def Obligations.SetStoresGeneralRegisters : Prop :=
  ∀ (s : State) (j : Fin 8) (v : Word), s.tableBuilt = true →
    exec (.set (.d j) v) s = .next { s with d := s.d.set j.val v j.isLt, result := none } ∧
    exec (.set (.a j) v) s = .next { s with a := s.a.set j.val v j.isLt, result := none }

/-- R168 to R170: `set` of the pc, the status register (its upper half and its unassigned bits are
ignored, nothing is re-arbitrated), the alias, and every unsupported identifier (nothing happens).
Decisions D4, D7, D36; the third clause is for the spec's own layout of SR (log entry 7). -/
def Obligations.SetWritesTheOtherIdentifiers : Prop :=
  ∀ (s : State) (v : Word) (n : Int), s.tableBuilt = true →
    exec (.set .pc v) s = .next { s with pc := v, result := none } ∧
    exec (.set .sr v) s = .next { unpackSR (v.setWidth 16) s with result := none } ∧
    (s.params.srLayout = Params.standard.srLayout →
      exec (.set .sr v) s = .next { s with
        trace      := v.getLsbD 15
        supervisor := v.getLsbD 13
        mask       := BitVec.ofNat 3 (v.toNat / 256)
        cc         := BitVec.ofNat 16 (v.toNat % 32)
        result     := none }) ∧
    exec (.set .sp v) s = exec (.set (.a 7) v) s ∧
    ∀ r ∈ [RegId.usp, .prefAddr, .prefData, .ppc, .ir, .other n],
      exec (.set r v) s = .next { s with result := none }

/-- R171: `get` right after `set` returns what was set, for every identifier: masked to its fields for
the status register (0xA71F under the spec's own layout, log entry 7), 0 for an unsupported one. -/
def Obligations.GetAfterSetReturnsTheValue : Prop :=
  ∀ (s t u : State) (r : RegId) (v : Word), s.params.srLayout.wf = true →
    exec (.set r v) s = .next t → exec (.get r) t = .next u →
    u.result = some (.value (match r with
      | .d _ | .a _ | .pc | .sp => v
      | .sr => v &&& s.params.srLayout.fieldBits.setWidth 32
      | .usp | .prefAddr | .prefData | .ppc | .ir | .other _ => 0)) ∧
    (s.params.srLayout = Params.standard.srLayout → s.params.srLayout.fieldBits = 0xA71F)

/-- R161, R162, for every SR_LAYOUT whose fields stand apart: packing after unpacking keeps exactly the
field bits, and unpacking after packing gives the fields back. Under the spec's own layout (log entry
7, decision D4) the field bits are 0xA71F and packing is the formula of R161. -/
def Obligations.StatusWordPacksItsFields : Prop :=
  ∀ (s : State) (v : HalfWord), s.params.srLayout.wf = true →
    packSR (unpackSR v s) = v &&& s.params.srLayout.fieldBits ∧
    (s.params.srLayout.ccField s.cc = s.cc → unpackSR (packSR s) s = s) ∧
    (s.params.srLayout = Params.standard.srLayout → s.cc.toNat < 32 →
      s.params.srLayout.fieldBits = 0xA71F ∧
      (packSR s).toNat =
        s.trace.toNat * 32768 + s.supervisor.toNat * 8192 + s.mask.toNat * 256 + s.cc.toNat)

/-- 40_dispatch_table.md R124: `isValidInstruction` is false exactly for the words whose dispatch is
the illegal-opcode handler, writes no state but its answer (the port `result`, log entry 16), and is
refused before the table exists. -/
def Obligations.ValidMeansNotIllegal : Prop :=
  ∀ (s : State) (op : HalfWord),
    (s.tableBuilt = true →
      ∃ b, exec (.isValidInstruction op) s = .next { s with result := some (.truth b) } ∧
        (b = false ↔ s.table.lookup op = .illegal) ∧
        (b = false ↔ ∃ entry, IllegalKind (decodeWord s.table op) entry)) ∧
    (s.tableBuilt = false → exec (.isValidInstruction op) s = .refused .beforeFirstReset)

/-! ## Interrupts -/

/-- 60_exceptions.md R187: `raiseIRQ` latches, overwriting, where the processor is not stopped, and
resolves at once where it is, a request that does not qualify recording its level only; a level
outside 0 to 7 and a request before the first `pulseReset` are refused. The port `result` is the
model's (log entry 16). -/
def Obligations.RaiseLatchesOrResolves : Prop :=
  ∀ (s : State) (l : BitVec 3),
    (s.tableBuilt = true → s.stopped = false →
      exec (.raiseIRQ l.toNat) s = .next { s with irqPending := true, pendingLevel := l, result := none }) ∧
    (s.tableBuilt = true → s.stopped = true →
      exec (.raiseIRQ l.toNat) s = .next (resolveIRQ l { s with result := none })) ∧
    (s.tableBuilt = true → s.stopped = true → ¬ s.Accepts l →
      exec (.raiseIRQ l.toNat) s = .next { s with intLevel := l, result := none }) ∧
    (∀ (l' : BitVec 3) (t : State), s.tableBuilt = true → s.stopped = false →
      exec (.raiseIRQ l.toNat) s = .next t →
      exec (.raiseIRQ l'.toNat) t = exec (.raiseIRQ l'.toNat) s) ∧
    (∀ n : Int, n < 0 ∨ 7 < n → exec (.raiseIRQ n) s = .refused .levelOutOfRange) ∧
    (s.tableBuilt = false → exec (.raiseIRQ l.toNat) s = .refused .beforeFirstReset)

/-- 60_exceptions.md R188: every resolution records the level; a delivery is made exactly on a
transition into 7 or for a level strictly above the mask, and otherwise nothing else changes. -/
def Obligations.ResolutionArbitratesByPriority : Prop :=
  ∀ (s : State) (l : BitVec 3),
    (resolveIRQ l s).intLevel = l ∧
    (¬ s.Accepts l → resolveIRQ l s = { s with intLevel := l }) ∧
    (s.Accepts l → resolveIRQ l s = deliver l { s with intLevel := l })

/-- R191, R193: the delivery under the default BUS with an acknowledge answer that selects vector v, the
whole next state: old SR and the boundary's pc in the frame, supervisor, mask raised, zero-entry
fallback to the vector of the uninitialized interrupt (15, log entry 8), IRQ_SERVICE_CYCLES (56, log
entry 23) into the accumulator, stopped cleared; `t` and cc stay (decision D19). -/
def Obligations.DeliveryEntersTheSelectedVector : Prop :=
  ∀ (s : State) (l : BitVec 3) (rest : List AckRun) (v : Nat), s.DefaultBus → s.AckSelects l rest v →
    deliver l s = { s with
      stopped         := false
      ackRuns         := rest
      supervisor      := true
      mask            := l
      a               := s.a.set 7 (s.a.get 7 - 6)
      mem             := s.withFrame (s.a.get 7) s.pc (packSR s)
      pc              := if s.load .long (BitVec.ofNat 32 (v * 4)) = 0
                         then s.load .long (BitVec.ofNat 32 (s.params.vecUninitializedInterrupt.toNat * 4))
                         else s.load .long (BitVec.ofNat 32 (v * 4))
      interruptCycles := s.interruptCycles + s.params.irqServiceCycles }

/-- R187, R189, R193, R200: inside the command a stopped processor takes a qualifying request and is
awake at the handler routine; a request that does not qualify records its level, calls no
acknowledge and leaves it stopped. -/
def Obligations.StoppedProcessorWakesOnlyOnQualifyingRequest : Prop :=
  ∀ (s : State) (l : BitVec 3) (rest : List AckRun) (v : Nat), s.tableBuilt = true →
    s.stopped = true → s.DefaultBus → s.AckSelects l rest v →
    (s.Accepts l → ∃ t, exec (.raiseIRQ l.toNat) s = .next t ∧ t.stopped = false ∧ t.intLevel = l ∧
      t.mask = l ∧ t.supervisor = true ∧ t.interruptCycles = s.interruptCycles + s.params.irqServiceCycles ∧
      t.a.get 7 = s.a.get 7 - 6 ∧ t.irqPending = s.irqPending ∧ t.pendingLevel = s.pendingLevel ∧
      t.cc = s.cc ∧ t.trace = s.trace ∧ t.d = s.d ∧ (∀ j : Fin 8, j ≠ 7 → t.a.get j = s.a.get j) ∧
      t.remaining = s.remaining ∧ t.quantumBudget = s.quantumBudget) ∧
    (¬ s.Accepts l →
      exec (.raiseIRQ l.toNat) s = .next { s with intLevel := l, result := none })

/-- 60_exceptions.md R192: a malformed acknowledge abandons the delivery; only the new level and the
cleared stop stay, so a stopped processor is awake at its old pc. How the answer is listed is log
entry 12, the port `result` log entry 16. -/
def Obligations.MalformedAcknowledgeAbandonsDelivery : Prop :=
  ∀ (s : State) (l : BitVec 3) (rest : List AckRun) (n : Word), s.Accepts l → 255 < n.toNat →
    (s.ackRuns = ⟨[], .vector n⟩ :: rest ∨
      n ≠ s.params.ackAutovector ∧ n ≠ s.params.ackSpurious ∧ s.ackRuns = ⟨[], .integer n⟩ :: rest) →
    resolveIRQ l s = { s with intLevel := l, stopped := false, ackRuns := rest } ∧
    (s.tableBuilt = true → s.stopped = true →
      exec (.raiseIRQ l.toNat) s = .next { s with
        intLevel := l, stopped := false, ackRuns := rest, result := none })

/-- R189, R194, R197, R202: level 0 is never delivered, a level not above the mask only on a transition
into 7; after a first level-7 delivery a second level 7 is not delivered, and a lower level in
between re-arms it. -/
def Obligations.LevelSevenIsAnEdge : Prop :=
  ∀ (s : State) (rest : List AckRun) (v : Nat), s.DefaultBus → s.AckSelects 7 rest v → s.intLevel ≠ 7 →
    let t := resolveIRQ 7 s
    t.interruptCycles = s.interruptCycles + s.params.irqServiceCycles ∧ t.intLevel = 7 ∧ t.mask = 7 ∧
    resolveIRQ 7 t = t ∧ (∀ l, l < 7 → resolveIRQ l t = { t with intLevel := l }) ∧
    (∀ l, l < 7 → (resolveIRQ l t).Accepts 7) ∧ resolveIRQ 0 s = { s with intLevel := 0 }

/-- R172, R190, R193: whatever commands the acknowledge callback issues, the delivery sees what they
set: it goes on as if they had been issued just before it, with the stop already ended (step 1) and the
callback then answering alone, on any bus. Under the default BUS the frame takes the stack pointer, the
pc and the status word the callback left, and the rest is as in R193; in particular a new stack
pointer, pc and status word are what the frame is built from, and a `raiseIRQ` the callback issues
waits for the next boundary (R134). That its turn is listed is log entry 12. -/
def Obligations.AcknowledgeCommandsAreSeenByTheDelivery : Prop :=
  ∀ (s : State) (l : BitVec 3) (cmds : List CollabCmd) (answer : AckAnswer) (rest : List AckRun),
    s.ackRuns = ⟨cmds, answer⟩ :: rest →
    let u := collabTurn latchIRQ cmds { s with stopped := false }
    deliver l s = deliver l { u with ackRuns := ⟨[], answer⟩ :: rest } ∧
    (∀ v, s.DefaultBus → AnswerSelects s.params l answer v →
      deliver l s = { u with
        ackRuns         := rest
        supervisor      := true
        mask            := l
        a               := u.a.set 7 (u.a.get 7 - 6)
        mem             := s.withFrame (u.a.get 7) u.pc (packSR u)
        pc              := if s.load .long (BitVec.ofNat 32 (v * 4)) = 0
                           then s.load .long
                             (BitVec.ofNat 32 (s.params.vecUninitializedInterrupt.toNat * 4))
                           else s.load .long (BitVec.ofNat 32 (v * 4))
        interruptCycles := s.interruptCycles + s.params.irqServiceCycles }) ∧
    (∀ (x y w : Word) (l' : BitVec 3), s.DefaultBus → answer = .autovector →
      cmds = [.set .sp x, .set .pc y, .set .sr w, .raiseIRQ l'] →
      (deliver l s).a.get 7 = x - 6 ∧ (deliver l s).irqPending = true ∧
      (deliver l s).pendingLevel = l' ∧ (deliver l s).intLevel = s.intLevel ∧ (deliver l s).mask = l ∧
      (deliver l s).mem = s.withFrame x y (packSR (unpackSR (w.setWidth 16) s)))

/-- R186, R196, R240: without a request there is no interrupt: a step with nothing pending and no
collaborator command changes neither latch, whatever the mask does, and bills no interrupt. That a
lowered mask alone brings none is decision D25 (log entry 28). -/
def Obligations.NoInterruptWithoutARequest : Prop :=
  ∀ s t : State, s.inExecute = true → s.irqPending = false → s.SilentBus → s.hookRuns = [] →
    step s = .next t →
    t.intLevel = s.intLevel ∧ t.irqPending = false ∧ t.pendingLevel = s.pendingLevel ∧
    t.ackRuns = s.ackRuns ∧
    (t.interruptCycles = s.interruptCycles ∨ t.inExecute = false ∧ t.interruptCycles = 0)

/-! ## Whole-machine rules -/

/-- R42, R38, R26: every step of every machine keeps the invariant: memory canonical, the multiplier at
least 1, the debt not negative, cc within its bits, the table the one DESC and DECODE build, no
quantum before it, and a hung handler only inside one. -/
def Obligations.StepKeepsTheInvariant : Prop :=
  ∀ s t : State, s.Inv → step s = .next t → t.Inv

/-- The reset state and, under every admitted choice of parameters, the power-on state meet the
invariant. -/
def Obligations.ResetMeetsTheInvariant : Prop :=
  State.reset.Inv ∧ ∀ p : Params, p.admitted = true → (State.powerOn p).Inv

/-- R30, R210: the stopped state is entered only in a quantum, by an external handler whose run sets
it, at the dispatch of that iteration. -/
def Obligations.OnlyAHandlerStopsTheProcessor : Prop :=
  ∀ s t : State, step s = .next t → s.stopped = false → t.stopped = true →
    s.inExecute = true ∧
    let u := afterFetch (boundary s)
    let op := fetchWord (boundary s)
    ∃ id, s.table.lookup op = .external id ∧
      (HandlerAction.stop ∈ handlerDone op (handlerProg id op u) (enterHandler id u) ∨
        HandlerAction.setStopped true ∈ handlerDone op (handlerProg id op u) (enterHandler id u))

/-- R200: between quanta the stopped state is left only by `raiseIRQ` or `pulseReset`. -/
def Obligations.OnlyRequestOrResetLeavesStopped : Prop :=
  ∀ s t : State, s.inExecute = false → step s = .next t → s.stopped = true → t.stopped = false →
    (∃ l rest, s.cmds = ⟨2, [l]⟩ :: rest) ∨ (∃ rest, s.cmds = ⟨0, []⟩ :: rest)

/-- R28, R205: the engine decides nothing by the privilege bit: whatever it is, the same instructions
go on, and the registers, the mask, the latches, the counters and the answers come out the same. Only
`get` of the status register shows the bit; what a handler does that reads the status register, or
reads memory after it raised an exception that saved it there, is that handler's own decision, so of
the external words those whose handler is given as a program that does neither are claimed. -/
def Obligations.PrivilegeBitDecidesNothing : Prop :=
  ∀ (s t : State) (i : Instr) (b : Bool), s.DefaultBus → i ≠ .get .sr →
    (∀ op id, i = .external op → s.table.lookup op = .external id →
      ∃ p, listedHandler s.params.handlers id = some p ∧ handlerReadsSR p = false) →
    exec i s = .next t →
    ∃ u, exec i { s with supervisor := b } = .next u ∧ u.pc = t.pc ∧ u.d = t.d ∧ u.a = t.a ∧
      u.cc = t.cc ∧ u.trace = t.trace ∧ u.mask = t.mask ∧ SameControl t u ∧ SameCounters t u ∧
      SameTable t u ∧ u.result = t.result ∧ u.cmds = t.cmds

/-! ## Memory -/

/-- R60, R63, R64: in either byte order a load of the size stored returns the stored value (its low
bits), at every address, aligned or not, across the top of the space too; a long read as words gives
its halves, the upper one first in the big-endian order; every byte outside the store is as before.
Big-endian is the spec's order (log entry 6). -/
def Obligations.MemoryReadsBackWhatWasWritten : Prop :=
  ∀ (m : Memory) (o : ByteOrder) (x v : Word), m.wf = true →
    (m.store o .byte x v).load o .byte x = v &&& 0xFF ∧
    (m.store o .word x v).load o .word x = v &&& 0xFFFF ∧
    (m.store o .long x v).load o .long x = v ∧
    (m.store .big .long x v).load .big .word x = v >>> 16 ∧
    (m.store .big .long x v).load .big .word (x + 2) = v &&& 0xFFFF ∧
    (m.store .little .long x v).load .little .word x = v &&& 0xFFFF ∧
    (m.store .little .long x v).load .little .word (x + 2) = v >>> 16 ∧
    ∀ (size : Size) (y : Nat), (∀ k < sizeBytes size, (x + BitVec.ofNat 32 k).toNat ≠ y) →
      (m.store o size x v).byteAt y = m.byteAt y

/-! ## The other setting of LOOP_TEST -/

/-- R138 under its other setting (LOOP_TEST = before, decision D12, log entry 21): the loop test stands
before the body, ends the quantum before any other part of the iteration, and nothing tests after the
dispatch. The port `result` is log entry 16. -/
def Obligations.LoopTestBeforeTheBody : Prop :=
  ∀ s : State, s.inExecute = true → s.hung = false → s.params.loopTest = .before →
    (s.remaining ≤ 0 → step s = .next { s with
      remaining       := s.remaining - s.interruptCycles
      interruptCycles := 0
      inExecute       := false
      result          := some (.count
        ((s.quantumBudget - (match s.params.endOfQuantumOrder with
          | .countThenDischarge => s.remaining
          | .dischargeThenCount => s.remaining - s.interruptCycles)).tdiv s.clockMult)) }) ∧
    (0 < s.remaining → s.haltReq = true → step s = .next { s with
      remaining       := 0
      interruptCycles := 0
      inExecute       := false
      result          := some (.count ((s.quantumBudget - s.remaining).tdiv s.clockMult)) }) ∧
    (0 < s.remaining → s.haltReq = false →
      let b := runHook (if s.irqPending then resolveIRQ s.pendingLevel { s with irqPending := false } else s)
      ∀ t, exec (decodeWord s.table ((busAnswer .word b.pc b).setWidth 16)) (afterRead requestIRQ b) = .next t →
        step s = .next t)

/-! ## Commands of COLLABORATOR -/

/-- R5, R66, R245: each of the eleven commands a COLLABORATOR may issue does to the engine what HOST's
command of the same name does, its answer in the collaborator's own port (log entries 15, 16); and a
halt request or an end of the timeslice that comes from the hook or from the fetch lets the
instruction in flight run before the loop test or the next boundary sees it (LOOP_TEST = after, log
entry 21). Where the commands stand is the model's choice and no rule's: a bus call's transfer comes
first and the commands of its event after it (log entry 14, DESIGN CHOICE, unsafe), the callback's and
the hook's are the turns listed for them (log entries 12 and 13). -/
def Obligations.CollaboratorCommandsActAsHostsDo : Prop :=
  (∀ (s : State) (c : CollabCmd), s.tableBuilt = true →
    ∃ t, exec (collabInstr c) s = .next t ∧
      collabStep requestIRQ c s =
        { t with result := s.result, collabResult := if t.result.isSome then t.result else t.collabResult }) ∧
  (∀ (s : State) (raise : BitVec 3 → State → State) (size : Size) (x v : Word) (l : BitVec 3),
    let runs (raise : BitVec 3 → State → State) := List.foldl (fun u c => collabStep raise c u)
    (∀ turn rest, s.hookRuns = turn :: rest →
      runHook s = runs requestIRQ { s with hookRuns := rest } turn) ∧
    (∀ e rest, s.busEvents = e :: rest →
      afterRead raise s = runs raise { s with busEvents := rest } e.cmds ∧
      busWrite raise size x v s = runs raise { s with
        busEvents := rest, mem := if e.lost then s.mem else s.store size x v } e.cmds) ∧
    (∀ run rest, s.ackRuns = run :: rest →
      afterAck l s = runs latchIRQ { s with ackRuns := rest } run.cmds)) ∧
  (∀ (s : State) (c : CollabCmd), c = .debugHalt ∨ c = .endTimeslice → s.inExecute = true →
    s.hung = false → s.haltReq = false → s.irqPending = false → s.params.loopTest = .after →
    let did (u : State) := if c = .debugHalt then { u with haltReq := true } else { u with remaining := 0 }
    (∀ rest, s.hookRuns = [c] :: rest → s.busEvents = [] →
      step s = closeIteration
        (exec (decodeWord s.table (fetchWord s)) (did { s with hookRuns := rest }))) ∧
    (∀ rest, s.hookRuns = [] → s.busEvents = ⟨none, false, [c]⟩ :: rest →
      step s = closeIteration
        (exec (decodeWord s.table (fetchWord s)) (did { s with busEvents := rest }))))
end

