-- ==== Sys2Proof/Laws/Memory.lean ====
section
/-! SUPPORT. Memory: every operation keeps the canonical form, a read after a write gives the value
written, and a write leaves every other address alone. -/

namespace Sys2Proof.Machine

/-- An address below every listed one reads as unlisted. -/
theorem byteAt_below {lo x : Nat} {m : Memory} (h : Memory.wfFrom lo m = true) (hx : x < lo) :
    m.byteAt x = Config.unlistedByte := by
  induction m generalizing lo with
  | nil => rfl
  | cons e rest ih =>
    obtain ⟨k, b⟩ := e
    simp only [Memory.wfFrom, Bool.and_eq_true, decide_eq_true_eq] at h
    have hk : k ≠ x := by omega
    simp only [Memory.byteAt, hk, if_false]
    exact ih h.2 (by omega)

/-- A weaker lower bound keeps the form. -/
theorem wfFrom_weaken {lo lo' : Nat} {m : Memory} (h : Memory.wfFrom lo m = true) (hl : lo' ≤ lo) :
    Memory.wfFrom lo' m = true := by
  cases m with
  | nil => rfl
  | cons e rest =>
    simp only [Memory.wfFrom, Bool.and_eq_true, decide_eq_true_eq] at h ⊢
    exact ⟨⟨⟨by omega, h.1.1.2⟩, h.1.2⟩, h.2⟩

/-- Writing a byte keeps the canonical form. -/
theorem putByte_wfFrom {lo x : Nat} {m : Memory} (b : Byte) (h : Memory.wfFrom lo m = true)
    (hl : lo ≤ x) (hx : x < 2 ^ 32) : Memory.wfFrom lo (m.putByte x b) = true := by
  induction m generalizing lo with
  | nil =>
    by_cases hb : b = Config.unlistedByte
    · simp [Memory.putByte, hb, Memory.wfFrom]
    · simp only [Memory.putByte, hb, if_false, Memory.wfFrom, Bool.and_eq_true, decide_eq_true_eq]
      exact ⟨⟨⟨hl, hx⟩, hb⟩, trivial⟩
  | cons e rest ih =>
    obtain ⟨k, c⟩ := e
    have h' := h
    simp only [Memory.wfFrom, Bool.and_eq_true, decide_eq_true_eq] at h'
    obtain ⟨⟨⟨hlk, hk⟩, hc⟩, hr⟩ := h'
    simp only [Memory.putByte]
    by_cases h1 : x < k
    · by_cases hb : b = Config.unlistedByte
      · simpa [h1, hb] using h
      · simp only [h1, hb, if_true, if_false, Memory.wfFrom, Bool.and_eq_true, decide_eq_true_eq]
        exact ⟨⟨⟨hl, hx⟩, hb⟩, ⟨⟨by omega, hk⟩, hc⟩, hr⟩
    · by_cases h2 : x = k
      · by_cases hb : b = Config.unlistedByte
        · simp only [hb, h2, lt_irrefl, if_true, if_false]
          exact wfFrom_weaken hr (by omega)
        · simp only [h2, lt_irrefl, hb, if_true, if_false, Memory.wfFrom, Bool.and_eq_true,
            decide_eq_true_eq]
          exact ⟨⟨⟨hlk, hk⟩, hb⟩, hr⟩
      · simp only [h1, h2, if_false, Memory.wfFrom, Bool.and_eq_true, decide_eq_true_eq]
        exact ⟨⟨⟨hlk, hk⟩, hc⟩, ih hr (by omega)⟩

/-- Reading a byte after writing one. -/
theorem byteAt_putByte {lo : Nat} {m : Memory} (x y : Nat) (b : Byte)
    (h : Memory.wfFrom lo m = true) : (m.putByte x b).byteAt y = if x = y then b else m.byteAt y := by
  induction m generalizing lo with
  | nil =>
    by_cases hb : b = Config.unlistedByte <;> by_cases hxy : x = y <;>
      simp [Memory.putByte, Memory.byteAt, hb, hxy]
  | cons e rest ih =>
    obtain ⟨k, c⟩ := e
    simp only [Memory.wfFrom, Bool.and_eq_true, decide_eq_true_eq] at h
    obtain ⟨-, hr⟩ := h
    have below (z : Nat) (hz : z ≤ k) : Memory.byteAt rest z = Config.unlistedByte :=
      byteAt_below hr (by omega)
    simp only [Memory.putByte]
    by_cases h1 : x < k
    · have hkx : k ≠ x := by omega
      by_cases hb : b = Config.unlistedByte <;> by_cases hxy : x = y
      · subst hxy; simp [h1, hb, Memory.byteAt, hkx, below x (by omega)]
      · simp [h1, hb, hxy, Memory.byteAt]
      · subst hxy; simp [h1, hb, Memory.byteAt]
      · simp [h1, hb, hxy, Memory.byteAt]
    · by_cases h2 : x = k
      · subst h2
        by_cases hb : b = Config.unlistedByte <;> by_cases hxy : x = y
        · subst hxy; simp [hb, below x (by omega)]
        · simp [hb, hxy, Memory.byteAt]
        · simp [hb, hxy, Memory.byteAt]
        · simp [hb, hxy, Memory.byteAt]
      · simp only [h1, h2, if_false, Memory.byteAt, ih hr]
        by_cases hky : k = y
        · have : x ≠ y := by omega
          simp [hky, this]
        · simp [hky]

/-- Writing a byte at an address of the space keeps the canonical form. -/
theorem putByte_wf {m : Memory} (x : Word) (b : Byte) (h : m.wf = true) :
    (m.putByte x.toNat b).wf = true :=
  putByte_wfFrom b h (Nat.zero_le _) x.isLt

/-- The addresses of two different bytes of one value are different. -/
theorem toNat_add_ne {x : Word} {i j : Nat} (hi : i < 2 ^ 32) (hj : j < 2 ^ 32) (h : i ≠ j) :
    (x + BitVec.ofNat 32 i).toNat ≠ (x + BitVec.ofNat 32 j).toNat := by
  have := x.isLt
  simp only [BitVec.toNat_add, BitVec.toNat_ofNat]
  omega

/-- A byte of a value of `n` bytes lies at one of the `n` addresses from `x` upward. -/
theorem laneAddress_eq (order : ByteOrder) {n lane : Nat} (h : lane < n) (x : Word) :
    ∃ i < n, laneAddress order n lane x = (x + BitVec.ofNat 32 i).toNat := by
  cases order with
  | big => exact ⟨n - 1 - lane, by omega, rfl⟩
  | little => exact ⟨lane, h, rfl⟩

/-- Different bytes of one value lie at different addresses. -/
theorem laneAddress_ne (order : ByteOrder) {n i j : Nat} (hn : n < 2 ^ 32) (hi : i < n) (hj : j < n)
    (h : i ≠ j) (x : Word) : laneAddress order n i x ≠ laneAddress order n j x := by
  cases order with
  | big => exact toNat_add_ne (by omega) (by omega) (by omega)
  | little => exact toNat_add_ne (by omega) (by omega) h

/-- Writing a byte of a value keeps the canonical form. -/
theorem putByte_lane_wf {m : Memory} (order : ByteOrder) (n lane : Nat) (x : Word) (b : Byte)
    (h : m.wf = true) : (m.putByte (laneAddress order n lane x) b).wf = true := by
  cases order <;> exact putByte_wf _ b h

/-- A store of any size keeps the canonical form. -/
theorem store_wf {m : Memory} (order : ByteOrder) (size : Size) (x v : Word) (h : m.wf = true) :
    (m.store order size x v).wf = true := by
  cases size with
  | byte => exact putByte_wf x _ h
  | word => exact putByte_lane_wf _ _ _ _ _ (putByte_lane_wf _ _ _ _ _ h)
  | long =>
    exact putByte_lane_wf _ _ _ _ _ (putByte_lane_wf _ _ _ _ _
      (putByte_lane_wf _ _ _ _ _ (putByte_lane_wf _ _ _ _ _ h)))

/-- A store of a word, byte by byte. -/
theorem byteAt_store_word {m : Memory} (order : ByteOrder) (x v : Word) (y : Nat) (h : m.wf = true) :
    (m.store order .word x v).byteAt y =
      if laneAddress order 2 0 x = y then v.extractLsb' 0 8
      else if laneAddress order 2 1 x = y then v.extractLsb' 8 8
      else m.byteAt y := by
  simp only [Memory.store]
  rw [byteAt_putByte _ _ _ (putByte_lane_wf order 2 1 x _ h), byteAt_putByte _ _ _ h]

/-- A store of a long, byte by byte. -/
theorem byteAt_store_long {m : Memory} (order : ByteOrder) (x v : Word) (y : Nat) (h : m.wf = true) :
    (m.store order .long x v).byteAt y =
      if laneAddress order 4 0 x = y then v.extractLsb' 0 8
      else if laneAddress order 4 1 x = y then v.extractLsb' 8 8
      else if laneAddress order 4 2 x = y then v.extractLsb' 16 8
      else if laneAddress order 4 3 x = y then v.extractLsb' 24 8
      else m.byteAt y := by
  have h1 := putByte_lane_wf order 4 3 x (v.extractLsb' 24 8) h
  have h2 := putByte_lane_wf order 4 2 x (v.extractLsb' 16 8) h1
  have h3 := putByte_lane_wf order 4 1 x (v.extractLsb' 8 8) h2
  simp only [Memory.store]
  rw [byteAt_putByte _ _ _ h3, byteAt_putByte _ _ _ h2, byteAt_putByte _ _ _ h1,
    byteAt_putByte _ _ _ h]

/-- A store leaves every byte outside the ones it writes alone. -/
theorem byteAt_store_other {m : Memory} (order : ByteOrder) (size : Size) (x v : Word) (y : Nat)
    (h : m.wf = true) (hy : ∀ i < sizeBytes size, (x + BitVec.ofNat 32 i).toNat ≠ y) :
    (m.store order size x v).byteAt y = m.byteAt y := by
  have lane : ∀ k < sizeBytes size, laneAddress order (sizeBytes size) k x ≠ y := fun k hk => by
    obtain ⟨i, hi, e⟩ := laneAddress_eq order hk x
    exact e ▸ hy i hi
  cases size with
  | byte =>
    have h0 : x.toNat ≠ y := by simpa using hy 0 (by decide)
    simp only [Memory.store]
    rw [byteAt_putByte _ _ _ h, if_neg h0]
  | word =>
    simp only [sizeBytes] at lane
    rw [byteAt_store_word _ _ _ _ h, if_neg (lane 0 (by decide)), if_neg (lane 1 (by decide))]
  | long =>
    simp only [sizeBytes] at lane
    rw [byteAt_store_long _ _ _ _ h, if_neg (lane 0 (by decide)), if_neg (lane 1 (by decide)),
      if_neg (lane 2 (by decide)), if_neg (lane 3 (by decide))]

/-- A load depends only on the bytes it reads. -/
theorem load_congr {m m' : Memory} (order : ByteOrder) (size : Size) (x : Word)
    (h : ∀ i < sizeBytes size,
      m'.byteAt (x + BitVec.ofNat 32 i).toNat = m.byteAt (x + BitVec.ofNat 32 i).toNat) :
    m'.load order size x = m.load order size x := by
  have lane : ∀ k < sizeBytes size, m'.byteAt (laneAddress order (sizeBytes size) k x) =
      m.byteAt (laneAddress order (sizeBytes size) k x) := fun k hk => by
    obtain ⟨i, hi, e⟩ := laneAddress_eq order hk x
    exact e ▸ h i hi
  cases size with
  | byte =>
    have h0 : m'.byteAt x.toNat = m.byteAt x.toNat := by simpa using h 0 (by decide)
    simp only [Memory.load, h0]
  | word =>
    simp only [sizeBytes] at lane
    simp only [Memory.load, lane 0 (by decide), lane 1 (by decide)]
  | long =>
    simp only [sizeBytes] at lane
    simp only [Memory.load, lane 0 (by decide), lane 1 (by decide), lane 2 (by decide),
      lane 3 (by decide)]

end Sys2Proof.Machine
end

