-- ==== Sys2Proof/Laws/State.lean ====
section
/-! SUPPORT. One lemma per field for each plain update of the state: what it writes, and that every
other field is kept. -/

namespace Sys2Proof.Machine

variable (s : State)

/-! ## setD -/

@[simp] theorem setD_d (i : Fin 8) (v : Word) : (setD i v s).d = s.d.set i.val v i.isLt := rfl
@[simp] theorem setD_a (i : Fin 8) (v : Word) : (setD i v s).a = s.a := rfl
@[simp] theorem setD_pc (i : Fin 8) (v : Word) : (setD i v s).pc = s.pc := rfl
@[simp] theorem setD_cc (i : Fin 8) (v : Word) : (setD i v s).cc = s.cc := rfl
@[simp] theorem setD_mask (i : Fin 8) (v : Word) : (setD i v s).mask = s.mask := rfl
@[simp] theorem setD_supervisor (i : Fin 8) (v : Word) : (setD i v s).supervisor = s.supervisor := rfl
@[simp] theorem setD_trace (i : Fin 8) (v : Word) : (setD i v s).trace = s.trace := rfl
@[simp] theorem setD_stopped (i : Fin 8) (v : Word) : (setD i v s).stopped = s.stopped := rfl
@[simp] theorem setD_haltReq (i : Fin 8) (v : Word) : (setD i v s).haltReq = s.haltReq := rfl
@[simp] theorem setD_remaining (i : Fin 8) (v : Word) : (setD i v s).remaining = s.remaining := rfl
@[simp] theorem setD_interruptCycles (i : Fin 8) (v : Word) : (setD i v s).interruptCycles = s.interruptCycles := rfl
@[simp] theorem setD_quantumBudget (i : Fin 8) (v : Word) : (setD i v s).quantumBudget = s.quantumBudget := rfl
@[simp] theorem setD_clockMult (i : Fin 8) (v : Word) : (setD i v s).clockMult = s.clockMult := rfl
@[simp] theorem setD_intLevel (i : Fin 8) (v : Word) : (setD i v s).intLevel = s.intLevel := rfl
@[simp] theorem setD_irqPending (i : Fin 8) (v : Word) : (setD i v s).irqPending = s.irqPending := rfl
@[simp] theorem setD_pendingLevel (i : Fin 8) (v : Word) : (setD i v s).pendingLevel = s.pendingLevel := rfl
@[simp] theorem setD_table (i : Fin 8) (v : Word) : (setD i v s).table = s.table := rfl
@[simp] theorem setD_tableBuilt (i : Fin 8) (v : Word) : (setD i v s).tableBuilt = s.tableBuilt := rfl
@[simp] theorem setD_inExecute (i : Fin 8) (v : Word) : (setD i v s).inExecute = s.inExecute := rfl
@[simp] theorem setD_hung (i : Fin 8) (v : Word) : (setD i v s).hung = s.hung := rfl
@[simp] theorem setD_mem (i : Fin 8) (v : Word) : (setD i v s).mem = s.mem := rfl
@[simp] theorem setD_params (i : Fin 8) (v : Word) : (setD i v s).params = s.params := rfl
@[simp] theorem setD_cmds (i : Fin 8) (v : Word) : (setD i v s).cmds = s.cmds := rfl
@[simp] theorem setD_result (i : Fin 8) (v : Word) : (setD i v s).result = s.result := rfl
@[simp] theorem setD_collabResult (i : Fin 8) (v : Word) : (setD i v s).collabResult = s.collabResult := rfl
@[simp] theorem setD_ackRuns (i : Fin 8) (v : Word) : (setD i v s).ackRuns = s.ackRuns := rfl
@[simp] theorem setD_hookRuns (i : Fin 8) (v : Word) : (setD i v s).hookRuns = s.hookRuns := rfl
@[simp] theorem setD_busEvents (i : Fin 8) (v : Word) : (setD i v s).busEvents = s.busEvents := rfl
@[simp] theorem setD_draws (i : Fin 8) (v : Word) : (setD i v s).draws = s.draws := rfl

/-! ## setA -/

@[simp] theorem setA_d (i : Fin 8) (v : Word) : (setA i v s).d = s.d := rfl
@[simp] theorem setA_a (i : Fin 8) (v : Word) : (setA i v s).a = s.a.set i.val v i.isLt := rfl
@[simp] theorem setA_pc (i : Fin 8) (v : Word) : (setA i v s).pc = s.pc := rfl
@[simp] theorem setA_cc (i : Fin 8) (v : Word) : (setA i v s).cc = s.cc := rfl
@[simp] theorem setA_mask (i : Fin 8) (v : Word) : (setA i v s).mask = s.mask := rfl
@[simp] theorem setA_supervisor (i : Fin 8) (v : Word) : (setA i v s).supervisor = s.supervisor := rfl
@[simp] theorem setA_trace (i : Fin 8) (v : Word) : (setA i v s).trace = s.trace := rfl
@[simp] theorem setA_stopped (i : Fin 8) (v : Word) : (setA i v s).stopped = s.stopped := rfl
@[simp] theorem setA_haltReq (i : Fin 8) (v : Word) : (setA i v s).haltReq = s.haltReq := rfl
@[simp] theorem setA_remaining (i : Fin 8) (v : Word) : (setA i v s).remaining = s.remaining := rfl
@[simp] theorem setA_interruptCycles (i : Fin 8) (v : Word) : (setA i v s).interruptCycles = s.interruptCycles := rfl
@[simp] theorem setA_quantumBudget (i : Fin 8) (v : Word) : (setA i v s).quantumBudget = s.quantumBudget := rfl
@[simp] theorem setA_clockMult (i : Fin 8) (v : Word) : (setA i v s).clockMult = s.clockMult := rfl
@[simp] theorem setA_intLevel (i : Fin 8) (v : Word) : (setA i v s).intLevel = s.intLevel := rfl
@[simp] theorem setA_irqPending (i : Fin 8) (v : Word) : (setA i v s).irqPending = s.irqPending := rfl
@[simp] theorem setA_pendingLevel (i : Fin 8) (v : Word) : (setA i v s).pendingLevel = s.pendingLevel := rfl
@[simp] theorem setA_table (i : Fin 8) (v : Word) : (setA i v s).table = s.table := rfl
@[simp] theorem setA_tableBuilt (i : Fin 8) (v : Word) : (setA i v s).tableBuilt = s.tableBuilt := rfl
@[simp] theorem setA_inExecute (i : Fin 8) (v : Word) : (setA i v s).inExecute = s.inExecute := rfl
@[simp] theorem setA_hung (i : Fin 8) (v : Word) : (setA i v s).hung = s.hung := rfl
@[simp] theorem setA_mem (i : Fin 8) (v : Word) : (setA i v s).mem = s.mem := rfl
@[simp] theorem setA_params (i : Fin 8) (v : Word) : (setA i v s).params = s.params := rfl
@[simp] theorem setA_cmds (i : Fin 8) (v : Word) : (setA i v s).cmds = s.cmds := rfl
@[simp] theorem setA_result (i : Fin 8) (v : Word) : (setA i v s).result = s.result := rfl
@[simp] theorem setA_collabResult (i : Fin 8) (v : Word) : (setA i v s).collabResult = s.collabResult := rfl
@[simp] theorem setA_ackRuns (i : Fin 8) (v : Word) : (setA i v s).ackRuns = s.ackRuns := rfl
@[simp] theorem setA_hookRuns (i : Fin 8) (v : Word) : (setA i v s).hookRuns = s.hookRuns := rfl
@[simp] theorem setA_busEvents (i : Fin 8) (v : Word) : (setA i v s).busEvents = s.busEvents := rfl
@[simp] theorem setA_draws (i : Fin 8) (v : Word) : (setA i v s).draws = s.draws := rfl

/-! ## unpackSR -/

@[simp] theorem unpackSR_d (v : HalfWord) : (unpackSR v s).d = s.d := rfl
@[simp] theorem unpackSR_a (v : HalfWord) : (unpackSR v s).a = s.a := rfl
@[simp] theorem unpackSR_pc (v : HalfWord) : (unpackSR v s).pc = s.pc := rfl
@[simp] theorem unpackSR_cc (v : HalfWord) : (unpackSR v s).cc = s.params.srLayout.ccField (v >>> s.params.srLayout.ccShift) := rfl
@[simp] theorem unpackSR_mask (v : HalfWord) : (unpackSR v s).mask = v.extractLsb' s.params.srLayout.maskShift 3 := rfl
@[simp] theorem unpackSR_supervisor (v : HalfWord) : (unpackSR v s).supervisor = v.getLsbD s.params.srLayout.supervisorBit := rfl
@[simp] theorem unpackSR_trace (v : HalfWord) : (unpackSR v s).trace = v.getLsbD s.params.srLayout.traceBit := rfl
@[simp] theorem unpackSR_stopped (v : HalfWord) : (unpackSR v s).stopped = s.stopped := rfl
@[simp] theorem unpackSR_haltReq (v : HalfWord) : (unpackSR v s).haltReq = s.haltReq := rfl
@[simp] theorem unpackSR_remaining (v : HalfWord) : (unpackSR v s).remaining = s.remaining := rfl
@[simp] theorem unpackSR_interruptCycles (v : HalfWord) : (unpackSR v s).interruptCycles = s.interruptCycles := rfl
@[simp] theorem unpackSR_quantumBudget (v : HalfWord) : (unpackSR v s).quantumBudget = s.quantumBudget := rfl
@[simp] theorem unpackSR_clockMult (v : HalfWord) : (unpackSR v s).clockMult = s.clockMult := rfl
@[simp] theorem unpackSR_intLevel (v : HalfWord) : (unpackSR v s).intLevel = s.intLevel := rfl
@[simp] theorem unpackSR_irqPending (v : HalfWord) : (unpackSR v s).irqPending = s.irqPending := rfl
@[simp] theorem unpackSR_pendingLevel (v : HalfWord) : (unpackSR v s).pendingLevel = s.pendingLevel := rfl
@[simp] theorem unpackSR_table (v : HalfWord) : (unpackSR v s).table = s.table := rfl
@[simp] theorem unpackSR_tableBuilt (v : HalfWord) : (unpackSR v s).tableBuilt = s.tableBuilt := rfl
@[simp] theorem unpackSR_inExecute (v : HalfWord) : (unpackSR v s).inExecute = s.inExecute := rfl
@[simp] theorem unpackSR_hung (v : HalfWord) : (unpackSR v s).hung = s.hung := rfl
@[simp] theorem unpackSR_mem (v : HalfWord) : (unpackSR v s).mem = s.mem := rfl
@[simp] theorem unpackSR_params (v : HalfWord) : (unpackSR v s).params = s.params := rfl
@[simp] theorem unpackSR_cmds (v : HalfWord) : (unpackSR v s).cmds = s.cmds := rfl
@[simp] theorem unpackSR_result (v : HalfWord) : (unpackSR v s).result = s.result := rfl
@[simp] theorem unpackSR_collabResult (v : HalfWord) : (unpackSR v s).collabResult = s.collabResult := rfl
@[simp] theorem unpackSR_ackRuns (v : HalfWord) : (unpackSR v s).ackRuns = s.ackRuns := rfl
@[simp] theorem unpackSR_hookRuns (v : HalfWord) : (unpackSR v s).hookRuns = s.hookRuns := rfl
@[simp] theorem unpackSR_busEvents (v : HalfWord) : (unpackSR v s).busEvents = s.busEvents := rfl
@[simp] theorem unpackSR_draws (v : HalfWord) : (unpackSR v s).draws = s.draws := rfl

/-! ## latchIRQ -/

@[simp] theorem latchIRQ_d (l : BitVec 3) : (latchIRQ l s).d = s.d := rfl
@[simp] theorem latchIRQ_a (l : BitVec 3) : (latchIRQ l s).a = s.a := rfl
@[simp] theorem latchIRQ_pc (l : BitVec 3) : (latchIRQ l s).pc = s.pc := rfl
@[simp] theorem latchIRQ_cc (l : BitVec 3) : (latchIRQ l s).cc = s.cc := rfl
@[simp] theorem latchIRQ_mask (l : BitVec 3) : (latchIRQ l s).mask = s.mask := rfl
@[simp] theorem latchIRQ_supervisor (l : BitVec 3) : (latchIRQ l s).supervisor = s.supervisor := rfl
@[simp] theorem latchIRQ_trace (l : BitVec 3) : (latchIRQ l s).trace = s.trace := rfl
@[simp] theorem latchIRQ_stopped (l : BitVec 3) : (latchIRQ l s).stopped = s.stopped := rfl
@[simp] theorem latchIRQ_haltReq (l : BitVec 3) : (latchIRQ l s).haltReq = s.haltReq := rfl
@[simp] theorem latchIRQ_remaining (l : BitVec 3) : (latchIRQ l s).remaining = s.remaining := rfl
@[simp] theorem latchIRQ_interruptCycles (l : BitVec 3) : (latchIRQ l s).interruptCycles = s.interruptCycles := rfl
@[simp] theorem latchIRQ_quantumBudget (l : BitVec 3) : (latchIRQ l s).quantumBudget = s.quantumBudget := rfl
@[simp] theorem latchIRQ_clockMult (l : BitVec 3) : (latchIRQ l s).clockMult = s.clockMult := rfl
@[simp] theorem latchIRQ_intLevel (l : BitVec 3) : (latchIRQ l s).intLevel = s.intLevel := rfl
@[simp] theorem latchIRQ_irqPending (l : BitVec 3) : (latchIRQ l s).irqPending = true := rfl
@[simp] theorem latchIRQ_pendingLevel (l : BitVec 3) : (latchIRQ l s).pendingLevel = l := rfl
@[simp] theorem latchIRQ_table (l : BitVec 3) : (latchIRQ l s).table = s.table := rfl
@[simp] theorem latchIRQ_tableBuilt (l : BitVec 3) : (latchIRQ l s).tableBuilt = s.tableBuilt := rfl
@[simp] theorem latchIRQ_inExecute (l : BitVec 3) : (latchIRQ l s).inExecute = s.inExecute := rfl
@[simp] theorem latchIRQ_hung (l : BitVec 3) : (latchIRQ l s).hung = s.hung := rfl
@[simp] theorem latchIRQ_mem (l : BitVec 3) : (latchIRQ l s).mem = s.mem := rfl
@[simp] theorem latchIRQ_params (l : BitVec 3) : (latchIRQ l s).params = s.params := rfl
@[simp] theorem latchIRQ_cmds (l : BitVec 3) : (latchIRQ l s).cmds = s.cmds := rfl
@[simp] theorem latchIRQ_result (l : BitVec 3) : (latchIRQ l s).result = s.result := rfl
@[simp] theorem latchIRQ_collabResult (l : BitVec 3) : (latchIRQ l s).collabResult = s.collabResult := rfl
@[simp] theorem latchIRQ_ackRuns (l : BitVec 3) : (latchIRQ l s).ackRuns = s.ackRuns := rfl
@[simp] theorem latchIRQ_hookRuns (l : BitVec 3) : (latchIRQ l s).hookRuns = s.hookRuns := rfl
@[simp] theorem latchIRQ_busEvents (l : BitVec 3) : (latchIRQ l s).busEvents = s.busEvents := rfl
@[simp] theorem latchIRQ_draws (l : BitVec 3) : (latchIRQ l s).draws = s.draws := rfl

/-! ## endSlice -/

@[simp] theorem endSlice_d : (endSlice s).d = s.d := rfl
@[simp] theorem endSlice_a : (endSlice s).a = s.a := rfl
@[simp] theorem endSlice_pc : (endSlice s).pc = s.pc := rfl
@[simp] theorem endSlice_cc : (endSlice s).cc = s.cc := rfl
@[simp] theorem endSlice_mask : (endSlice s).mask = s.mask := rfl
@[simp] theorem endSlice_supervisor : (endSlice s).supervisor = s.supervisor := rfl
@[simp] theorem endSlice_trace : (endSlice s).trace = s.trace := rfl
@[simp] theorem endSlice_stopped : (endSlice s).stopped = s.stopped := rfl
@[simp] theorem endSlice_haltReq : (endSlice s).haltReq = s.haltReq := rfl
@[simp] theorem endSlice_remaining : (endSlice s).remaining = 0 := rfl
@[simp] theorem endSlice_interruptCycles : (endSlice s).interruptCycles = s.interruptCycles := rfl
@[simp] theorem endSlice_quantumBudget : (endSlice s).quantumBudget = s.quantumBudget := rfl
@[simp] theorem endSlice_clockMult : (endSlice s).clockMult = s.clockMult := rfl
@[simp] theorem endSlice_intLevel : (endSlice s).intLevel = s.intLevel := rfl
@[simp] theorem endSlice_irqPending : (endSlice s).irqPending = s.irqPending := rfl
@[simp] theorem endSlice_pendingLevel : (endSlice s).pendingLevel = s.pendingLevel := rfl
@[simp] theorem endSlice_table : (endSlice s).table = s.table := rfl
@[simp] theorem endSlice_tableBuilt : (endSlice s).tableBuilt = s.tableBuilt := rfl
@[simp] theorem endSlice_inExecute : (endSlice s).inExecute = s.inExecute := rfl
@[simp] theorem endSlice_hung : (endSlice s).hung = s.hung := rfl
@[simp] theorem endSlice_mem : (endSlice s).mem = s.mem := rfl
@[simp] theorem endSlice_params : (endSlice s).params = s.params := rfl
@[simp] theorem endSlice_cmds : (endSlice s).cmds = s.cmds := rfl
@[simp] theorem endSlice_result : (endSlice s).result = s.result := rfl
@[simp] theorem endSlice_collabResult : (endSlice s).collabResult = s.collabResult := rfl
@[simp] theorem endSlice_ackRuns : (endSlice s).ackRuns = s.ackRuns := rfl
@[simp] theorem endSlice_hookRuns : (endSlice s).hookRuns = s.hookRuns := rfl
@[simp] theorem endSlice_busEvents : (endSlice s).busEvents = s.busEvents := rfl
@[simp] theorem endSlice_draws : (endSlice s).draws = s.draws := rfl

/-! ## modifySlice -/

@[simp] theorem modifySlice_d (n : Int) : (modifySlice n s).d = s.d := rfl
@[simp] theorem modifySlice_a (n : Int) : (modifySlice n s).a = s.a := rfl
@[simp] theorem modifySlice_pc (n : Int) : (modifySlice n s).pc = s.pc := rfl
@[simp] theorem modifySlice_cc (n : Int) : (modifySlice n s).cc = s.cc := rfl
@[simp] theorem modifySlice_mask (n : Int) : (modifySlice n s).mask = s.mask := rfl
@[simp] theorem modifySlice_supervisor (n : Int) : (modifySlice n s).supervisor = s.supervisor := rfl
@[simp] theorem modifySlice_trace (n : Int) : (modifySlice n s).trace = s.trace := rfl
@[simp] theorem modifySlice_stopped (n : Int) : (modifySlice n s).stopped = s.stopped := rfl
@[simp] theorem modifySlice_haltReq (n : Int) : (modifySlice n s).haltReq = s.haltReq := rfl
@[simp] theorem modifySlice_interruptCycles (n : Int) : (modifySlice n s).interruptCycles = s.interruptCycles := rfl
@[simp] theorem modifySlice_clockMult (n : Int) : (modifySlice n s).clockMult = s.clockMult := rfl
@[simp] theorem modifySlice_intLevel (n : Int) : (modifySlice n s).intLevel = s.intLevel := rfl
@[simp] theorem modifySlice_irqPending (n : Int) : (modifySlice n s).irqPending = s.irqPending := rfl
@[simp] theorem modifySlice_pendingLevel (n : Int) : (modifySlice n s).pendingLevel = s.pendingLevel := rfl
@[simp] theorem modifySlice_table (n : Int) : (modifySlice n s).table = s.table := rfl
@[simp] theorem modifySlice_tableBuilt (n : Int) : (modifySlice n s).tableBuilt = s.tableBuilt := rfl
@[simp] theorem modifySlice_inExecute (n : Int) : (modifySlice n s).inExecute = s.inExecute := rfl
@[simp] theorem modifySlice_hung (n : Int) : (modifySlice n s).hung = s.hung := rfl
@[simp] theorem modifySlice_mem (n : Int) : (modifySlice n s).mem = s.mem := rfl
@[simp] theorem modifySlice_params (n : Int) : (modifySlice n s).params = s.params := rfl
@[simp] theorem modifySlice_cmds (n : Int) : (modifySlice n s).cmds = s.cmds := rfl
@[simp] theorem modifySlice_result (n : Int) : (modifySlice n s).result = s.result := rfl
@[simp] theorem modifySlice_collabResult (n : Int) : (modifySlice n s).collabResult = s.collabResult := rfl
@[simp] theorem modifySlice_ackRuns (n : Int) : (modifySlice n s).ackRuns = s.ackRuns := rfl
@[simp] theorem modifySlice_hookRuns (n : Int) : (modifySlice n s).hookRuns = s.hookRuns := rfl
@[simp] theorem modifySlice_busEvents (n : Int) : (modifySlice n s).busEvents = s.busEvents := rfl
@[simp] theorem modifySlice_draws (n : Int) : (modifySlice n s).draws = s.draws := rfl

/-! ## bill -/

@[simp] theorem bill_d (c : Int) : (bill c s).d = s.d := rfl
@[simp] theorem bill_a (c : Int) : (bill c s).a = s.a := rfl
@[simp] theorem bill_pc (c : Int) : (bill c s).pc = s.pc := rfl
@[simp] theorem bill_cc (c : Int) : (bill c s).cc = s.cc := rfl
@[simp] theorem bill_mask (c : Int) : (bill c s).mask = s.mask := rfl
@[simp] theorem bill_supervisor (c : Int) : (bill c s).supervisor = s.supervisor := rfl
@[simp] theorem bill_trace (c : Int) : (bill c s).trace = s.trace := rfl
@[simp] theorem bill_stopped (c : Int) : (bill c s).stopped = s.stopped := rfl
@[simp] theorem bill_haltReq (c : Int) : (bill c s).haltReq = s.haltReq := rfl
@[simp] theorem bill_remaining (c : Int) : (bill c s).remaining = s.remaining - c := rfl
@[simp] theorem bill_interruptCycles (c : Int) : (bill c s).interruptCycles = s.interruptCycles := rfl
@[simp] theorem bill_quantumBudget (c : Int) : (bill c s).quantumBudget = s.quantumBudget := rfl
@[simp] theorem bill_clockMult (c : Int) : (bill c s).clockMult = s.clockMult := rfl
@[simp] theorem bill_intLevel (c : Int) : (bill c s).intLevel = s.intLevel := rfl
@[simp] theorem bill_irqPending (c : Int) : (bill c s).irqPending = s.irqPending := rfl
@[simp] theorem bill_pendingLevel (c : Int) : (bill c s).pendingLevel = s.pendingLevel := rfl
@[simp] theorem bill_table (c : Int) : (bill c s).table = s.table := rfl
@[simp] theorem bill_tableBuilt (c : Int) : (bill c s).tableBuilt = s.tableBuilt := rfl
@[simp] theorem bill_inExecute (c : Int) : (bill c s).inExecute = s.inExecute := rfl
@[simp] theorem bill_hung (c : Int) : (bill c s).hung = s.hung := rfl
@[simp] theorem bill_mem (c : Int) : (bill c s).mem = s.mem := rfl
@[simp] theorem bill_params (c : Int) : (bill c s).params = s.params := rfl
@[simp] theorem bill_cmds (c : Int) : (bill c s).cmds = s.cmds := rfl
@[simp] theorem bill_result (c : Int) : (bill c s).result = s.result := rfl
@[simp] theorem bill_collabResult (c : Int) : (bill c s).collabResult = s.collabResult := rfl
@[simp] theorem bill_ackRuns (c : Int) : (bill c s).ackRuns = s.ackRuns := rfl
@[simp] theorem bill_hookRuns (c : Int) : (bill c s).hookRuns = s.hookRuns := rfl
@[simp] theorem bill_busEvents (c : Int) : (bill c s).busEvents = s.busEvents := rfl
@[simp] theorem bill_draws (c : Int) : (bill c s).draws = s.draws := rfl

/-! ## reply -/

@[simp] theorem reply_d (r : Result) : (reply r s).d = s.d := rfl
@[simp] theorem reply_a (r : Result) : (reply r s).a = s.a := rfl
@[simp] theorem reply_pc (r : Result) : (reply r s).pc = s.pc := rfl
@[simp] theorem reply_cc (r : Result) : (reply r s).cc = s.cc := rfl
@[simp] theorem reply_mask (r : Result) : (reply r s).mask = s.mask := rfl
@[simp] theorem reply_supervisor (r : Result) : (reply r s).supervisor = s.supervisor := rfl
@[simp] theorem reply_trace (r : Result) : (reply r s).trace = s.trace := rfl
@[simp] theorem reply_stopped (r : Result) : (reply r s).stopped = s.stopped := rfl
@[simp] theorem reply_haltReq (r : Result) : (reply r s).haltReq = s.haltReq := rfl
@[simp] theorem reply_remaining (r : Result) : (reply r s).remaining = s.remaining := rfl
@[simp] theorem reply_interruptCycles (r : Result) : (reply r s).interruptCycles = s.interruptCycles := rfl
@[simp] theorem reply_quantumBudget (r : Result) : (reply r s).quantumBudget = s.quantumBudget := rfl
@[simp] theorem reply_clockMult (r : Result) : (reply r s).clockMult = s.clockMult := rfl
@[simp] theorem reply_intLevel (r : Result) : (reply r s).intLevel = s.intLevel := rfl
@[simp] theorem reply_irqPending (r : Result) : (reply r s).irqPending = s.irqPending := rfl
@[simp] theorem reply_pendingLevel (r : Result) : (reply r s).pendingLevel = s.pendingLevel := rfl
@[simp] theorem reply_table (r : Result) : (reply r s).table = s.table := rfl
@[simp] theorem reply_tableBuilt (r : Result) : (reply r s).tableBuilt = s.tableBuilt := rfl
@[simp] theorem reply_inExecute (r : Result) : (reply r s).inExecute = s.inExecute := rfl
@[simp] theorem reply_hung (r : Result) : (reply r s).hung = s.hung := rfl
@[simp] theorem reply_mem (r : Result) : (reply r s).mem = s.mem := rfl
@[simp] theorem reply_params (r : Result) : (reply r s).params = s.params := rfl
@[simp] theorem reply_cmds (r : Result) : (reply r s).cmds = s.cmds := rfl
@[simp] theorem reply_result (r : Result) : (reply r s).result = some r := rfl
@[simp] theorem reply_collabResult (r : Result) : (reply r s).collabResult = s.collabResult := rfl
@[simp] theorem reply_ackRuns (r : Result) : (reply r s).ackRuns = s.ackRuns := rfl
@[simp] theorem reply_hookRuns (r : Result) : (reply r s).hookRuns = s.hookRuns := rfl
@[simp] theorem reply_busEvents (r : Result) : (reply r s).busEvents = s.busEvents := rfl
@[simp] theorem reply_draws (r : Result) : (reply r s).draws = s.draws := rfl

/-! ## replyNone -/

@[simp] theorem replyNone_d : (replyNone s).d = s.d := rfl
@[simp] theorem replyNone_a : (replyNone s).a = s.a := rfl
@[simp] theorem replyNone_pc : (replyNone s).pc = s.pc := rfl
@[simp] theorem replyNone_cc : (replyNone s).cc = s.cc := rfl
@[simp] theorem replyNone_mask : (replyNone s).mask = s.mask := rfl
@[simp] theorem replyNone_supervisor : (replyNone s).supervisor = s.supervisor := rfl
@[simp] theorem replyNone_trace : (replyNone s).trace = s.trace := rfl
@[simp] theorem replyNone_stopped : (replyNone s).stopped = s.stopped := rfl
@[simp] theorem replyNone_haltReq : (replyNone s).haltReq = s.haltReq := rfl
@[simp] theorem replyNone_remaining : (replyNone s).remaining = s.remaining := rfl
@[simp] theorem replyNone_interruptCycles : (replyNone s).interruptCycles = s.interruptCycles := rfl
@[simp] theorem replyNone_quantumBudget : (replyNone s).quantumBudget = s.quantumBudget := rfl
@[simp] theorem replyNone_clockMult : (replyNone s).clockMult = s.clockMult := rfl
@[simp] theorem replyNone_intLevel : (replyNone s).intLevel = s.intLevel := rfl
@[simp] theorem replyNone_irqPending : (replyNone s).irqPending = s.irqPending := rfl
@[simp] theorem replyNone_pendingLevel : (replyNone s).pendingLevel = s.pendingLevel := rfl
@[simp] theorem replyNone_table : (replyNone s).table = s.table := rfl
@[simp] theorem replyNone_tableBuilt : (replyNone s).tableBuilt = s.tableBuilt := rfl
@[simp] theorem replyNone_inExecute : (replyNone s).inExecute = s.inExecute := rfl
@[simp] theorem replyNone_hung : (replyNone s).hung = s.hung := rfl
@[simp] theorem replyNone_mem : (replyNone s).mem = s.mem := rfl
@[simp] theorem replyNone_params : (replyNone s).params = s.params := rfl
@[simp] theorem replyNone_cmds : (replyNone s).cmds = s.cmds := rfl
@[simp] theorem replyNone_result : (replyNone s).result = none := rfl
@[simp] theorem replyNone_collabResult : (replyNone s).collabResult = s.collabResult := rfl
@[simp] theorem replyNone_ackRuns : (replyNone s).ackRuns = s.ackRuns := rfl
@[simp] theorem replyNone_hookRuns : (replyNone s).hookRuns = s.hookRuns := rfl
@[simp] theorem replyNone_busEvents : (replyNone s).busEvents = s.busEvents := rfl
@[simp] theorem replyNone_draws : (replyNone s).draws = s.draws := rfl

/-! ## enterHandler -/

@[simp] theorem enterHandler_d (id : Nat) : (enterHandler id s).d = s.d := rfl
@[simp] theorem enterHandler_a (id : Nat) : (enterHandler id s).a = s.a := rfl
@[simp] theorem enterHandler_pc (id : Nat) : (enterHandler id s).pc = s.pc := rfl
@[simp] theorem enterHandler_cc (id : Nat) : (enterHandler id s).cc = s.cc := rfl
@[simp] theorem enterHandler_mask (id : Nat) : (enterHandler id s).mask = s.mask := rfl
@[simp] theorem enterHandler_supervisor (id : Nat) : (enterHandler id s).supervisor = s.supervisor := rfl
@[simp] theorem enterHandler_trace (id : Nat) : (enterHandler id s).trace = s.trace := rfl
@[simp] theorem enterHandler_stopped (id : Nat) : (enterHandler id s).stopped = s.stopped := rfl
@[simp] theorem enterHandler_haltReq (id : Nat) : (enterHandler id s).haltReq = s.haltReq := rfl
@[simp] theorem enterHandler_remaining (id : Nat) : (enterHandler id s).remaining = s.remaining := rfl
@[simp] theorem enterHandler_interruptCycles (id : Nat) : (enterHandler id s).interruptCycles = s.interruptCycles := rfl
@[simp] theorem enterHandler_quantumBudget (id : Nat) : (enterHandler id s).quantumBudget = s.quantumBudget := rfl
@[simp] theorem enterHandler_clockMult (id : Nat) : (enterHandler id s).clockMult = s.clockMult := rfl
@[simp] theorem enterHandler_intLevel (id : Nat) : (enterHandler id s).intLevel = s.intLevel := rfl
@[simp] theorem enterHandler_irqPending (id : Nat) : (enterHandler id s).irqPending = s.irqPending := rfl
@[simp] theorem enterHandler_pendingLevel (id : Nat) : (enterHandler id s).pendingLevel = s.pendingLevel := rfl
@[simp] theorem enterHandler_table (id : Nat) : (enterHandler id s).table = s.table := rfl
@[simp] theorem enterHandler_tableBuilt (id : Nat) : (enterHandler id s).tableBuilt = s.tableBuilt := rfl
@[simp] theorem enterHandler_inExecute (id : Nat) : (enterHandler id s).inExecute = s.inExecute := rfl
@[simp] theorem enterHandler_hung (id : Nat) : (enterHandler id s).hung = s.hung := rfl
@[simp] theorem enterHandler_mem (id : Nat) : (enterHandler id s).mem = s.mem := rfl
@[simp] theorem enterHandler_params (id : Nat) : (enterHandler id s).params = s.params := rfl
@[simp] theorem enterHandler_cmds (id : Nat) : (enterHandler id s).cmds = s.cmds := rfl
@[simp] theorem enterHandler_result (id : Nat) : (enterHandler id s).result = s.result := rfl
@[simp] theorem enterHandler_collabResult (id : Nat) : (enterHandler id s).collabResult = s.collabResult := rfl
@[simp] theorem enterHandler_ackRuns (id : Nat) : (enterHandler id s).ackRuns = s.ackRuns := rfl
@[simp] theorem enterHandler_hookRuns (id : Nat) : (enterHandler id s).hookRuns = s.hookRuns := rfl
@[simp] theorem enterHandler_busEvents (id : Nat) : (enterHandler id s).busEvents = s.busEvents := rfl

/-! ## Reading what an update wrote -/

/-- A register just written reads as written. -/
theorem get_set_same (v : Vector Word 8) (i : Fin 8) (x : Word) : (v.set i.val x i.isLt).get i = x := by
  simp [Vector.get_eq_getElem]

/-- Writing one register keeps every other. -/
theorem get_set_other (v : Vector Word 8) {i j : Fin 8} (x : Word) (h : i ≠ j) :
    (v.set i.val x i.isLt).get j = v.get j := by
  have hv : i.val ≠ j.val := fun e => h (Fin.ext e)
  simp [Vector.get_eq_getElem, hv]

/-- The stack pointer after a write of `A[7]`. -/
@[simp] theorem stackPointer_setA_seven (v : Word) : stackPointer (setA 7 v s) = v :=
  get_set_same s.a 7 v

/-- Writing one register twice keeps the second value. -/
theorem setA_setA (i : Fin 8) (v w : Word) : setA i w (setA i v s) = setA i w s := by
  simp [setA]

end Sys2Proof.Machine
end

