-- ==== Sys2Proof/Laws/Bus.lean ====
section
/-! SUPPORT. The bus, its collaborators, exception entry and interrupts: what each shared operation
does under the default BUS and under a silent one, and what none of them can ever change. -/

namespace Sys2Proof.Machine

variable {raise : BitVec 3 → State → State} {s : State}

/-! ## The default BUS: a call is the memory access and nothing else -/

theorem busAnswer_default (h : s.busEvents = []) (size : Size) (x : Word) :
    busAnswer size x s = s.load size x := by
  simp [busAnswer, nextBusEvent, h, BusEvent.quiet]

theorem afterRead_default (h : s.busEvents = []) : afterRead raise s = s := by
  cases s
  simp_all [afterRead, nextBusEvent, BusEvent.quiet, collabTurn]

theorem busWrite_default (h : s.busEvents = []) (size : Size) (x v : Word) :
    busWrite raise size x v s = { s with mem := s.store size x v } := by
  cases s
  simp_all [busWrite, nextBusEvent, BusEvent.quiet, collabTurn]

/-- The target of a vector under the default BUS (R183, R193 step 5). -/
def defaultTarget (s : State) (fallback : Bool) (vector : Byte) : Word :=
  if s.load .long (vectorAddress vector) = 0 ∧ fallback = true then
    s.load .long (vectorAddress s.params.vecUninitializedInterrupt)
  else s.load .long (vectorAddress vector)

theorem fetchVector_default (h : s.busEvents = []) (fallback : Bool) (vector : Byte) :
    fetchVector raise fallback vector s =
      { target := defaultTarget s fallback vector, after := s } := by
  simp only [fetchVector, defaultTarget, busAnswer_default h, afterRead_default h]
  split <;> rfl

theorem push_default (h : s.busEvents = []) (size : Size) (v : Word) :
    push raise size v s =
      { s with
        a   := (setA 7 (stackPointer s - BitVec.ofNat 32 (sizeBytes size)) s).a
        mem := s.store size (stackPointer s - BitVec.ofNat 32 (sizeBytes size)) v } := by
  simp only [push]
  rw [busWrite_default (by simpa using h)]
  rfl

/-- The pushed frame under the default BUS (R184): the stack pointer falls by 6. -/
theorem pushFrame_default (h : s.busEvents = []) (savedPC : Word) (savedSR : HalfWord) :
    pushFrame raise savedPC savedSR s =
      { s with
        a   := (setA 7 (stackPointer s - 6) s).a
        mem := s.withFrame (stackPointer s) savedPC savedSR } := by
  have e : stackPointer s - BitVec.ofNat 32 (sizeBytes .long) - BitVec.ofNat 32 (sizeBytes .word) =
      stackPointer s - 6 := by
    show stackPointer s - 4#32 - 2#32 = stackPointer s - 6#32
    bv_omega
  have hsp : ∀ (v : Word) (m : Memory),
      stackPointer { s with a := (setA 7 v s).a, mem := m } = v :=
    fun v _ => stackPointer_setA_seven s v
  have hset : ∀ (v w : Word) (m : Memory),
      (setA 7 w { s with a := (setA 7 v s).a, mem := m }).a = (setA 7 w s).a :=
    fun v w _ => by simp [setA]
  simp only [pushFrame]
  rw [push_default h, push_default (by simpa using h)]
  simp only [hsp, hset, e]
  rfl

/-- Exception entry under the default BUS, in one record (R183 to R184, R193 steps 5 to 7). -/
theorem enterVector_default (h : s.busEvents = []) (fallback : Bool) (vector : Byte)
    (savedSR : HalfWord) :
    enterVector raise fallback vector savedSR s =
      { s with
        a   := (setA 7 (stackPointer s - 6) s).a
        mem := s.withFrame (stackPointer s) s.pc savedSR
        pc  := defaultTarget s fallback vector } := by
  simp only [enterVector, fetchVector_default h, pushFrame_default h]

/-! ## A silent BUS: devices answer and lose, but issue no command -/

theorem silent_next (h : s.SilentBus) : (nextBusEvent s).cmds = [] := by
  unfold State.SilentBus at h
  unfold nextBusEvent
  cases hb : s.busEvents with
  | nil => rfl
  | cons e rest => exact h e (by simp [hb])

theorem afterRead_silent (h : s.SilentBus) :
    afterRead raise s = { s with busEvents := s.busEvents.tail } := by
  simp [afterRead, silent_next h, collabTurn]

theorem busWrite_silent (h : s.SilentBus) (size : Size) (x v : Word) :
    busWrite raise size x v s =
      { s with
        busEvents := s.busEvents.tail
        mem       := if (nextBusEvent s).lost then s.mem else s.store size x v } := by
  simp [busWrite, silent_next h, collabTurn]

/-- A bus whose next event is used up is as silent as before. -/
theorem silent_tail (h : s.SilentBus) : ∀ e ∈ s.busEvents.tail, e.cmds = [] :=
  fun e he => h e (List.mem_of_mem_tail he)

/-- A memory write that a device may lose: canonical still, and nothing outside its bytes touched. -/
theorem lossyStore_spec (size : Size) (x v : Word) (hw : s.mem.wf = true) (lost : Bool) :
    (if lost then s.mem else s.store size x v).wf = true ∧
      ∀ y, (∀ k < sizeBytes size, (x + BitVec.ofNat 32 k).toNat ≠ y) →
        (if lost then s.mem else s.store size x v).byteAt y = s.mem.byteAt y := by
  cases lost
  · exact ⟨store_wf _ size x v hw, fun y hy => byteAt_store_other _ size x v y hw hy⟩
  · exact ⟨hw, fun _ _ => rfl⟩

/-- A vector fetch on a silent BUS uses up events and changes nothing else. -/
theorem fetchVector_silent (h : s.SilentBus) (fallback : Bool) (vector : Byte) :
    ∃ events, (fetchVector raise fallback vector s).after = { s with busEvents := events } ∧
      ∀ e ∈ events, e.cmds = [] := by
  unfold fetchVector
  split
  · refine ⟨s.busEvents.tail.tail, ?_, fun e he => silent_tail h e (List.mem_of_mem_tail he)⟩
    simp only
    rw [afterRead_silent h, afterRead_silent (s := { s with busEvents := s.busEvents.tail }) (silent_tail h)]
  · exact ⟨s.busEvents.tail, afterRead_silent h, silent_tail h⟩

/-- A push on a silent BUS: the stack pointer falls, and no byte outside the slot changes. -/
theorem push_silent (h : s.SilentBus) (size : Size) (v : Word) :
    let slot := stackPointer s - BitVec.ofNat 32 (sizeBytes size)
    ∃ events mem,
      push raise size v s = { s with busEvents := events, mem := mem, a := (setA 7 slot s).a } ∧
        (∀ e ∈ events, e.cmds = []) ∧
        (s.mem.wf = true → mem.wf = true ∧
          ∀ y, (∀ k < sizeBytes size, (slot + BitVec.ofNat 32 k).toNat ≠ y) → mem.byteAt y = s.mem.byteAt y) := by
  unfold push
  rw [busWrite_silent (s := setA 7 _ s) h]
  exact ⟨_, _, rfl, silent_tail h, fun hw => lossyStore_spec size _ v hw _⟩

/-- A synchronous exception on a silent BUS (R183, R184): supervisor, the pc and A[7] down by 6, and no
byte of memory outside the two slots of the frame. -/
theorem takeException_silent (h : s.SilentBus) (vector : Byte) :
    ∃ events pc mem,
      takeException vector s = { s with
        supervisor := true, busEvents := events, pc := pc, mem := mem
        a := (setA 7 (stackPointer s - 6) s).a } ∧
      (∀ e ∈ events, e.cmds = []) ∧
      (s.mem.wf = true → mem.wf = true ∧
        ∀ y, (∀ k < 4, (stackPointer s - 4 + BitVec.ofNat 32 k).toNat ≠ y) →
          (∀ k < 2, (stackPointer s - 6 + BitVec.ofNat 32 k).toNat ≠ y) → mem.byteAt y = s.mem.byteAt y) := by
  unfold takeException enterVector pushFrame
  obtain ⟨be, hf, h0⟩ := fetchVector_silent (raise := requestIRQ) (s := { s with supervisor := true }) h
    s.params.illegalZeroVectorFallback vector
  simp only
  generalize (fetchVector requestIRQ s.params.illegalZeroVectorFallback vector
    { s with supervisor := true }).target = target
  rw [hf]
  obtain ⟨b1, m1, e1, h1, k1⟩ := push_silent (raise := requestIRQ)
    (s := { s with supervisor := true, busEvents := be }) h0 .long s.pc
  rw [e1]
  obtain ⟨b2, m2, e2, h2, k2⟩ := push_silent (raise := requestIRQ)
    (s := { s with
      supervisor := true, busEvents := b1, mem := m1, a := (setA 7 (stackPointer s - 4) s).a })
    h1 .word ((packSR s).setWidth 32)
  have slot : (setA 7 (stackPointer s - 4) s).a.get 7 - BitVec.ofNat 32 (sizeBytes .word) =
      stackPointer s - 6 := by
    rw [show (setA 7 (stackPointer s - 4) s).a.get 7 = stackPointer s - 4 from stackPointer_setA_seven s _]
    show stackPointer s - 4#32 - 2#32 = stackPointer s - 6#32
    bv_omega
  refine ⟨b2, target, m2, ?_, h2, fun hw => ?_⟩
  · refine (congrArg (fun u : State => { u with pc := target }) e2).trans ?_
    simp only [setA, stackPointer] at slot ⊢
    simp only [slot, Vector.set_set]
  · obtain ⟨w1, out1⟩ := k1 hw
    obtain ⟨w2, out2⟩ := k2 w1
    refine ⟨w2, fun y hy4 hy6 => (out2 y fun k hk => ?_).trans (out1 y hy4)⟩
    exact (congrArg (fun w : Word => (w + BitVec.ofNat 32 k).toNat) slot).trans_ne (hy6 k hk)

/-! ## Collaborators: a turn is its commands one by one -/

/-- Whatever relation every command respects, a turn respects (reflexive, transitive relations). -/
theorem collabTurn_rel {R : State → State → Prop} (refl : ∀ s, R s s)
    (trans : ∀ {s t u}, R s t → R t u → R s u) (one : ∀ c s, R s (collabStep raise c s)) :
    ∀ cs s, R s (collabTurn raise cs s)
  | [], s => refl s
  | c :: cs, s => trans (one c s) (collabTurn_rel refl trans one cs _)

/-- The fields that no collaborator, no exception and no interrupt writes (R46). -/
structure Steady where
  clockMult  : Int
  table      : Table
  tableBuilt : Bool
  params     : Params
  inExecute  : Bool
  hung       : Bool
  cmds       : List CmdPacket
  result     : Option Result
  hookRuns   : List (List CollabCmd)

/-- Those fields of a state. -/
def steady (s : State) : Steady :=
  { clockMult := s.clockMult, table := s.table, tableBuilt := s.tableBuilt, params := s.params
    inExecute := s.inExecute, hung := s.hung, cmds := s.cmds, result := s.result
    hookRuns := s.hookRuns }

/-- What every collaborator, exception and interrupt respects: the steady fields are as before,
memory stays canonical, cc stays within its bits, and the interrupt debt non-negative. -/
structure Confined (s t : State) : Prop where
  same   : steady t = steady s
  mem_wf : s.mem.wf = true → t.mem.wf = true
  cc     : s.params.srLayout.ccField s.cc = s.cc → t.params.srLayout.ccField t.cc = t.cc
  debt   : 0 ≤ s.params.irqServiceCycles → 0 ≤ s.interruptCycles → 0 ≤ t.interruptCycles

section
variable {t u : State}

theorem Confined.clockMult (h : Confined s t) : t.clockMult = s.clockMult := congrArg Steady.clockMult h.same
theorem Confined.table (h : Confined s t) : t.table = s.table := congrArg Steady.table h.same
theorem Confined.tableBuilt (h : Confined s t) : t.tableBuilt = s.tableBuilt := congrArg Steady.tableBuilt h.same
theorem Confined.params (h : Confined s t) : t.params = s.params := congrArg Steady.params h.same
theorem Confined.inExecute (h : Confined s t) : t.inExecute = s.inExecute := congrArg Steady.inExecute h.same
theorem Confined.hung (h : Confined s t) : t.hung = s.hung := congrArg Steady.hung h.same
theorem Confined.cmds (h : Confined s t) : t.cmds = s.cmds := congrArg Steady.cmds h.same
theorem Confined.result (h : Confined s t) : t.result = s.result := congrArg Steady.result h.same
theorem Confined.hookRuns (h : Confined s t) : t.hookRuns = s.hookRuns := congrArg Steady.hookRuns h.same

/-- A change of other fields than memory, cc and the debt is confined where the steady ones stay. -/
theorem Confined.plain (same : steady t = steady s) (mem : t.mem = s.mem) (cc : t.cc = s.cc)
    (debt : t.interruptCycles = s.interruptCycles) : Confined s t :=
  ⟨same, fun h => mem ▸ h, fun h => by
    rw [cc, show t.params = s.params from congrArg Steady.params same]; exact h, fun _ h => debt ▸ h⟩

theorem Confined.rfl' (s : State) : Confined s s := .plain rfl rfl rfl rfl

theorem Confined.trans (h : Confined s t) (k : Confined t u) : Confined s u :=
  ⟨k.same.trans h.same, fun m => k.mem_wf (h.mem_wf m), fun c => k.cc (h.cc c),
    fun c d => k.debt (by rw [h.params]; exact c) (h.debt c d)⟩

end

/-- The hang flag is no part of what the rest of a confined change depends on. -/
theorem Confined.hang {t : State} (h : Confined s t) (b : Bool) :
    Confined { s with hung := b } { t with hung := b } :=
  ⟨congrArg (fun k : Steady => { k with hung := b }) h.same, h.mem_wf, h.cc, h.debt⟩

/-- Cutting to the CC_BITS bits twice is cutting once. -/
theorem ccField_ccField (l : SrLayout) (v : HalfWord) : l.ccField (l.ccField v) = l.ccField v := by
  simp [SrLayout.ccField, BitVec.and_assoc]

theorem unpackSR_confined (v : HalfWord) (s : State) : Confined s (unpackSR v s) :=
  ⟨rfl, id, fun _ => ccField_ccField _ _, fun _ => id⟩

theorem setReg_confined (reg : RegId) (v : Word) (s : State) : Confined s (setReg reg v s) := by
  cases reg
  case sr => exact unpackSR_confined _ s
  all_goals exact .plain rfl rfl rfl rfl

theorem latchIRQ_confined (l : BitVec 3) (s : State) : Confined s (latchIRQ l s) :=
  .plain rfl rfl rfl rfl

theorem collabStep_confined (hr : ∀ l s, Confined s (raise l s)) (c : CollabCmd) (s : State) :
    Confined s (collabStep raise c s) := by
  cases c
  case raiseIRQ l => exact hr l s
  case set reg v => exact setReg_confined reg v s
  all_goals exact .plain rfl rfl rfl rfl

theorem collabTurn_confined (hr : ∀ l s, Confined s (raise l s)) (cs : List CollabCmd) (s : State) :
    Confined s (collabTurn raise cs s) :=
  collabTurn_rel Confined.rfl' Confined.trans (collabStep_confined hr) cs s

theorem afterRead_confined (hr : ∀ l s, Confined s (raise l s)) (s : State) :
    Confined s (afterRead raise s) :=
  Confined.trans (t := { s with busEvents := s.busEvents.tail })
    (.plain rfl rfl rfl rfl) (collabTurn_confined hr _ _)

theorem busWrite_confined (hr : ∀ l s, Confined s (raise l s)) (size : Size) (x v : Word)
    (s : State) : Confined s (busWrite raise size x v s) := by
  refine Confined.trans
    (t := { s with
      busEvents := s.busEvents.tail
      mem       := if (nextBusEvent s).lost then s.mem else s.store size x v })
    ⟨rfl, fun h => ?_, id, fun _ => id⟩ (collabTurn_confined hr _ _)
  show (if (nextBusEvent s).lost then s.mem else s.store size x v).wf = true
  split
  · exact h
  · exact store_wf _ size x v h

theorem fetchVector_confined (hr : ∀ l s, Confined s (raise l s)) (fallback : Bool) (vector : Byte)
    (s : State) : Confined s (fetchVector raise fallback vector s).after := by
  unfold fetchVector
  split
  · exact (afterRead_confined hr _).trans (afterRead_confined hr _)
  · exact afterRead_confined hr _

theorem push_confined (hr : ∀ l s, Confined s (raise l s)) (size : Size) (v : Word) (s : State) :
    Confined s (push raise size v s) :=
  (setReg_confined (.a 7) _ s).trans (busWrite_confined hr _ _ _ _)

theorem pushFrame_confined (hr : ∀ l s, Confined s (raise l s)) (savedPC : Word) (savedSR : HalfWord)
    (s : State) : Confined s (pushFrame raise savedPC savedSR s) :=
  (push_confined hr _ _ _).trans (push_confined hr _ _ _)

theorem enterVector_confined (hr : ∀ l s, Confined s (raise l s)) (fallback : Bool) (vector : Byte)
    (savedSR : HalfWord) (s : State) : Confined s (enterVector raise fallback vector savedSR s) :=
  ((fetchVector_confined hr fallback vector s).trans (pushFrame_confined hr _ _ _)).trans
    (.plain rfl rfl rfl rfl)

theorem afterAck_confined (level : BitVec 3) (s : State) : Confined s (afterAck level s) :=
  Confined.trans
    (t := { s with
      ackRuns := s.ackRuns.tail
      draws   := if s.ackRuns = [] then s.draws + 1 else s.draws })
    (.plain rfl rfl rfl rfl)
    (collabTurn_confined latchIRQ_confined _ _)

theorem enterInterrupt_confined (level : BitVec 3) (vector : Byte) (s : State) :
    Confined s (enterInterrupt level vector s) := by
  refine Confined.trans (t := { s with supervisor := true, mask := level })
    (.plain rfl rfl rfl rfl)
    (Confined.trans (enterVector_confined latchIRQ_confined true vector (packSR s) _)
      ⟨rfl, id, id, fun c h => ?_⟩)
  have c' : 0 ≤ s.params.irqServiceCycles := by
    have := (enterVector_confined (raise := latchIRQ) latchIRQ_confined true vector (packSR s)
      { s with supervisor := true, mask := level }).params
    rw [this] at c
    exact c
  exact Int.add_nonneg h c'

theorem deliver_confined (level : BitVec 3) (s : State) : Confined s (deliver level s) := by
  unfold deliver
  have h0 : Confined s { s with stopped := false } :=
    (.plain rfl rfl rfl rfl)
  have h1 := h0.trans (afterAck_confined level { s with stopped := false })
  simp only
  split
  · exact h1
  · exact h1.trans (enterInterrupt_confined _ _ _)

theorem resolveIRQ_confined (level : BitVec 3) (s : State) : Confined s (resolveIRQ level s) := by
  have h0 : Confined s { s with intLevel := level } :=
    (.plain rfl rfl rfl rfl)
  unfold resolveIRQ
  split
  · exact h0.trans (deliver_confined _ _)
  · split
    · exact h0.trans (deliver_confined _ _)
    · exact h0

theorem requestIRQ_confined (level : BitVec 3) (s : State) : Confined s (requestIRQ level s) := by
  unfold requestIRQ
  split
  · exact resolveIRQ_confined level s
  · exact latchIRQ_confined level s

theorem takeException_confined (vector : Byte) (s : State) : Confined s (takeException vector s) :=
  Confined.trans (t := { s with supervisor := true })
    (.plain rfl rfl rfl rfl)
    (enterVector_confined requestIRQ_confined _ _ _ _)

theorem illegalOpcode_confined (vector : Byte) (s : State) : Confined s (illegalOpcode vector s) :=
  (takeException_confined vector s).trans (.plain rfl rfl rfl rfl)

/-- What a handler computes depends on the Register File and the parameters only. -/
theorem exprValue_congr {op : HalfWord} {temps : List Word} {s t : State}
    (h : handlerView t = handlerView s) (hp : t.params = s.params) (e : HandlerExpr) :
    exprValue op temps t e = exprValue op temps s e := by
  simp only [handlerView, HandlerView.mk.injEq] at h
  have hc : counterValue t = counterValue s := by funext c; cases c <;> simp [counterValue, h]
  induction e with
  | unary o e ih => simp only [exprValue, ih]
  | binary o e f ih ih' => simp only [exprValue, ih, ih']
  | _ => simp [exprValue, packSR, h, hp, hc]

theorem handlerStep_confined (op : HalfWord) (temps : List Word) (act : HandlerAction) (s : State) :
    Confined s (handlerStep op temps act s) := by
  cases act
  case setCc => exact ⟨rfl, id, fun _ => ccField_ccField _ _, fun _ => id⟩
  case unpackSR => exact unpackSR_confined _ s
  case write => exact busWrite_confined requestIRQ_confined _ _ _ s
  case raiseException => exact takeException_confined _ s
  all_goals exact .plain rfl rfl rfl rfl

/-- A handler's run is confined, but that it may hang (93 U13). -/
theorem runHandler_confined (op : HalfWord) : ∀ (p : HandlerProg) (temps : List Word) (s : State),
    Confined { s with hung := (runHandler op p temps s).hung } (runHandler op p temps s)
  | .returns _, _, _ => .plain rfl rfl rfl rfl
  | .hangs, _, _ => .plain rfl rfl rfl rfl
  | .act act rest, temps, s =>
    (handlerStep_confined op temps act s).hang _ |>.trans (runHandler_confined op rest temps _)
  | .read _ _ rest, _, s =>
    (afterRead_confined requestIRQ_confined s).hang _ |>.trans (runHandler_confined op rest _ _)
  | .choose c yes no, temps, s => by
    simp only [runHandler]
    split
    · exact runHandler_confined op yes temps s
    · exact runHandler_confined op no temps s

theorem callHandler_confined (id : Nat) (op : HalfWord) (s : State) :
    Confined { s with hung := (callHandler id op s).hung } (callHandler id op s) :=
  Confined.trans (t := { enterHandler id s with hung := (callHandler id op s).hung })
    (.plain rfl rfl rfl rfl) (runHandler_confined op _ _ _)

theorem takePending_confined (s : State) : Confined s (takePending s) := by
  unfold takePending
  split
  · exact Confined.trans (t := { s with irqPending := false })
      (.plain rfl rfl rfl rfl) (resolveIRQ_confined _ _)
  · exact Confined.rfl' s

/-- The hook's turn is used up, and its commands are confined. -/
theorem runHook_confined (s : State) :
    Confined { s with hookRuns := s.hookRuns.tail } (runHook s) :=
  collabTurn_confined requestIRQ_confined _ _

/-! ## A processor that is not stopped: a request latches, in every collaborator's turn -/

/-- What a turn whose requests latch never changes. -/
structure Latched (s t : State) : Prop where
  stopped         : t.stopped = s.stopped
  intLevel        : t.intLevel = s.intLevel
  mem             : t.mem = s.mem
  interruptCycles : t.interruptCycles = s.interruptCycles
  ackRuns         : t.ackRuns = s.ackRuns
  busEvents       : t.busEvents = s.busEvents
  draws           : t.draws = s.draws

theorem Latched.trans {s t u : State} (h : Latched s t) (k : Latched t u) : Latched s u :=
  ⟨k.stopped.trans h.stopped, k.intLevel.trans h.intLevel, k.mem.trans h.mem,
    k.interruptCycles.trans h.interruptCycles, k.ackRuns.trans h.ackRuns,
    k.busEvents.trans h.busEvents, k.draws.trans h.draws⟩

theorem collabStep_latched (c : CollabCmd) (s : State) : Latched s (collabStep latchIRQ c s) := by
  cases c
  case set reg v => cases reg <;> exact ⟨rfl, rfl, rfl, rfl, rfl, rfl, rfl⟩
  all_goals exact ⟨rfl, rfl, rfl, rfl, rfl, rfl, rfl⟩

theorem collabTurn_latched (cs : List CollabCmd) (s : State) :
    Latched s (collabTurn latchIRQ cs s) :=
  collabTurn_rel (R := Latched) (fun _ => ⟨rfl, rfl, rfl, rfl, rfl, rfl, rfl⟩) Latched.trans
    collabStep_latched cs s

/-- A turn whose requests latch neither reads nor writes the listed acknowledge calls. -/
theorem collabTurn_withAckRuns (runs : List AckRun) : ∀ (cs : List CollabCmd) (s : State),
    collabTurn latchIRQ cs { s with ackRuns := runs } =
      { collabTurn latchIRQ cs s with ackRuns := runs }
  | [], _ => rfl
  | c :: cs, s => by
    have one : collabStep latchIRQ c { s with ackRuns := runs } =
        { collabStep latchIRQ c s with ackRuns := runs } := by
      cases c
      case get reg => cases reg <;> rfl
      case set reg v => cases reg <;> rfl
      all_goals rfl
    simp only [collabTurn, one]
    exact collabTurn_withAckRuns runs cs _

/-- While the processor is not stopped, `raiseIRQ` is the latch in every command of a turn, so the
turns inside a delivery are those of R187 (a delivery clears `stopped` first). -/
theorem collabTurn_awake : ∀ (cs : List CollabCmd) (s : State), s.stopped = false →
    collabTurn requestIRQ cs s = collabTurn latchIRQ cs s
  | [], _, _ => rfl
  | c :: cs, s, h => by
    have one : collabStep requestIRQ c s = collabStep latchIRQ c s := by
      cases c <;> simp [collabStep, requestIRQ, h]
    simp only [collabTurn, one]
    exact collabTurn_awake cs _ ((collabStep_latched c s).stopped.trans h)

/-! ## A delivery whose acknowledge call is listed -/

variable {level : BitVec 3} {run : AckRun} {rest : List AckRun}

theorem nextAckRun_listed (h : s.ackRuns = run :: rest) : nextAckRun level s = run := by
  simp [nextAckRun, h]

theorem afterAck_listed (h : s.ackRuns = run :: rest) :
    afterAck level s = collabTurn latchIRQ run.cmds { s with ackRuns := rest } := by
  have hne : s.ackRuns ≠ [] := by simp [h]
  have htl : s.ackRuns.tail = rest := by simp [h]
  simp only [afterAck, nextAckRun_listed h, if_neg hne, htl]

/-- R193 with the acknowledge call known: its commands, then nothing or the entry. -/
theorem deliver_listed (h : s.ackRuns = run :: rest) :
    deliver level s =
      match ackVector s.params level run.answer with
      | none => collabTurn latchIRQ run.cmds { s with stopped := false, ackRuns := rest }
      | some vector =>
        enterInterrupt level vector
          (collabTurn latchIRQ run.cmds { s with stopped := false, ackRuns := rest }) := by
  have h' : State.ackRuns { s with stopped := false } = run :: rest := h
  unfold deliver
  cases hv : ackVector s.params level run.answer <;>
    simp only [nextAckRun_listed h', afterAck_listed h', hv]

/-- R188, an accepted level. -/
theorem resolveIRQ_accepted (h : s.Accepts level) :
    resolveIRQ level s = deliver level { s with intLevel := level } := by
  unfold resolveIRQ
  rcases h with h | h
  · rw [if_pos h, h.2]
  · split
    · next h7 => rw [h7.2]
    · rfl

/-- R188, a level that is not accepted. -/
theorem resolveIRQ_ignored (h : ¬ s.Accepts level) :
    resolveIRQ level s = { s with intLevel := level } := by
  simp only [State.Accepts, not_or] at h
  unfold resolveIRQ
  rw [if_neg h.1, if_neg h.2]

end Sys2Proof.Machine
end

