-- ==== Sys2Proof/Laws/Encoding.lean ====
section
/-! SUPPORT. The small facts the round trip of decoder and encoder rests on. -/

namespace Sys2Proof

@[simp] theorem topNibble_lineFWord (p : BitVec 12) : topNibble (lineFWord p) = 0xF := by
  simp only [topNibble, lineFWord]
  exact BitVec.extractLsb'_append_eq_left

@[simp] theorem topNibble_lineAWord (p : BitVec 12) : topNibble (lineAWord p) = 0xA := by
  simp only [topNibble, lineAWord]
  exact BitVec.extractLsb'_append_eq_left

@[simp] theorem wordPayload_lineFWord (p : BitVec 12) : wordPayload (lineFWord p) = p := by
  simp only [wordPayload, lineFWord]
  exact BitVec.extractLsb'_append_eq_right

@[simp] theorem wordPayload_lineAWord (p : BitVec 12) : wordPayload (lineAWord p) = p := by
  simp only [wordPayload, lineAWord]
  exact BitVec.extractLsb'_append_eq_right

/-- A word is its top nibble and its payload. -/
theorem topNibble_append_wordPayload (op : HalfWord) : topNibble op ++ wordPayload op = op := by
  simp only [topNibble, wordPayload]
  exact (BitVec.extractLsb'_append_extractLsb'_eq_extractLsb' (by rfl)).trans (by simp)

/-- A 32-bit value survives being carried as an integer. -/
theorem decodeValue_toNat (v : Word) : decodeValue (v.toNat : Int) = .ok v := by
  simpa [decodeValue] using v.isLt

/-- A 16-bit opcode survives being carried as an integer. -/
theorem decodeOpcode_toNat (v : HalfWord) : decodeOpcode (v.toNat : Int) = .ok v := by
  simpa [decodeOpcode] using v.isLt

/-- A register identifier is read back from its number. -/
theorem RegId.ofInt_toInt (r : RegId) (h : r.wellFormed = true) : RegId.ofInt r.toInt = r := by
  cases r with
  | d i => revert i; decide
  | a i => revert i; decide
  | other n =>
    have out : n < 0 ∨ 24 ≤ n := by simpa [RegId.wellFormed] using h
    have far : ∀ k : Int, 0 ≤ k → k < 24 → n ≠ k := fun k _ _ => by omega
    have lo : n < 0 ∨ ¬ n < 16 := out.imp_right (by omega)
    show RegId.ofInt n = .other n
    rcases out with neg | -
    · simp [RegId.ofInt, neg]
    · rcases lo with neg | l16
      · simp [RegId.ofInt, neg]
      · have l8 : ¬ n < 8 := by omega
        simp [RegId.ofInt, l8, l16, far]
  | _ => rfl

/-- A register identifier's number reads back to itself: every integer names one identifier. -/
theorem RegId.toInt_ofInt (n : Int) : (RegId.ofInt n).toInt = n := by
  unfold RegId.ofInt
  repeat' split
  all_goals simp only [RegId.toInt, Fin.val_ofNat]
  all_goals omega

end Sys2Proof
end

