-- ==== Sys2Proof/Laws/PerInstr.lean ====
section
/-! SUPPORT. The family RoundTrip: for each constructor of Instr, the decoder reads back what the
encoder writes for a well-formed instruction, under every dispatch table. -/

namespace Sys2Proof.Laws.RoundTrip

/-- Decoding the encoding of a well-formed instruction gives it back. -/
def Statement (i : Instr) : Prop :=
  ∀ t : Table, i.wellFormed t = true → decodePacket t (encode i) = .ok i

theorem lineF (p : BitVec 12) : Statement (.lineF p) := by
  intro t h
  have h' : t.lookup (lineFWord p) = .illegal := by simpa [Instr.wellFormed] using h
  simp [decodePacket, encode, decodeWord, h']

theorem lineA (p : BitVec 12) : Statement (.lineA p) := by
  intro t h
  have h' : t.lookup (lineAWord p) = .illegal := by simpa [Instr.wellFormed] using h
  simp [decodePacket, encode, decodeWord, h']

theorem illegal (op : HalfWord) : Statement (.illegal op) := by
  intro t h
  obtain ⟨⟨h1, h2⟩, h3⟩ : (t.lookup op = .illegal ∧ topNibble op ≠ 0xF) ∧ topNibble op ≠ 0xA := by
    simpa [Instr.wellFormed] using h
  simp only [decodePacket, encode, decodeWord, h1, if_neg h2, if_neg h3]

theorem external (op : HalfWord) : Statement (.external op) := by
  intro t h
  have h' : t.lookup op ≠ .illegal := by simpa [Instr.wellFormed] using h
  cases hl : t.lookup op with
  | illegal => exact absurd hl h'
  | external id => simp [decodePacket, encode, decodeWord, hl]

theorem pulseReset : Statement .pulseReset := fun _ _ => rfl
theorem execute (n : Int) : Statement (.execute n) := fun _ _ => rfl
theorem raiseIRQ (n : Int) : Statement (.raiseIRQ n) := fun _ _ => rfl

theorem get (r : RegId) : Statement (.get r) := by
  intro t h
  simp [decodePacket, encode, decodeCommand, RegId.ofInt_toInt r h]

theorem set (r : RegId) (v : Word) : Statement (.set r v) := by
  intro t h
  have h' : r.wellFormed = true := h
  have e : decodePacket t (encode (.set r v)) =
      (decodeValue v.toNat).map (fun w => Instr.set (RegId.ofInt r.toInt) w) := rfl
  rw [e, decodeValue_toNat, RegId.ofInt_toInt r h']
  rfl

theorem isValidInstruction (op : HalfWord) : Statement (.isValidInstruction op) := by
  intro t _
  have e : decodePacket t (encode (.isValidInstruction op)) =
      (decodeOpcode op.toNat).map (fun w => Instr.isValidInstruction w) := rfl
  rw [e, decodeOpcode_toNat]
  rfl

theorem cyclesRun : Statement .cyclesRun := fun _ _ => rfl
theorem cyclesRemaining : Statement .cyclesRemaining := fun _ _ => rfl
theorem modifyTimeslice (n : Int) : Statement (.modifyTimeslice n) := fun _ _ => rfl
theorem endTimeslice : Statement .endTimeslice := fun _ _ => rfl
theorem setClockMultiplier (n : Int) : Statement (.setClockMultiplier n) := fun _ _ => rfl
theorem getClockMultiplier : Statement .getClockMultiplier := fun _ _ => rfl
theorem debugHalt : Statement .debugHalt := fun _ _ => rfl
theorem debugResume : Statement .debugResume := fun _ _ => rfl

end Sys2Proof.Laws.RoundTrip
end

