-- ==== Sys2Proof/Laws/Step.lean ====
section
/-! SUPPORT. What a step can do: the cases of an iteration, the confinement of every instruction word,
what no iteration changes, and what a decoded command was written as. -/

namespace Sys2Proof.Machine

/-- The four kinds of instruction a fetched word can be (R94). -/
def IsWord (i : Instr) : Prop :=
  (∃ p, i = .lineF p) ∨ (∃ p, i = .lineA p) ∨ (∃ op, i = .illegal op) ∨ (∃ op, i = .external op)

theorem decodeWord_isWord (t : Table) (op : HalfWord) : IsWord (decodeWord t op) := by
  unfold decodeWord IsWord
  split
  · simp
  · split
    · simp
    · split <;> simp

/-- An instruction word is confined, but that its handler may hang (93 U13). -/
theorem exec_word_confined {i : Instr} (hw : IsWord i) {s t : State} (h : exec i s = .next t) :
    Confined { s with hung := t.hung } t := by
  have plain : ∀ v, Confined { s with hung := (illegalOpcode v s).hung } (illegalOpcode v s) :=
    fun v => (illegalOpcode_confined v s).hang _
  rcases hw with ⟨p, rfl⟩ | ⟨p, rfl⟩ | ⟨p, rfl⟩ | ⟨p, rfl⟩
  · cases h; exact plain _
  · cases h; exact plain _
  · cases h; exact plain _
  · simp only [exec, execExternal] at h
    split at h
    · cases h; exact plain _
    · cases h; exact callHandler_confined _ _ _

/-- Parts 2 and 3 of an iteration change nothing outside the confined state but the hook's turns. -/
theorem boundary_confined (s : State) :
    Confined { s with hookRuns := (takePending s).hookRuns.tail } (boundary s) := by
  have h := takePending_confined s
  exact Confined.trans (t := { takePending s with hookRuns := (takePending s).hookRuns.tail })
    ⟨congrArg (fun k : Steady => { k with hookRuns := (takePending s).hookRuns.tail }) h.same,
      h.mem_wf, h.cc, h.debt⟩ (runHook_confined (takePending s))

/-- With nothing pending and no hook the boundary is the state itself. -/
theorem boundary_plain {s : State} (hp : s.irqPending = false) (hh : s.hookRuns = []) :
    boundary s = s := by
  cases s
  simp_all [boundary, takePending, runHook, collabTurn]

/-- The loop test leaves the state, and a hung one always, or ends the quantum. -/
theorem loopEnd_cases (s : State) : loopEnd s = s ∨ s.hung = false ∧ loopEnd s = normalReturn s := by
  unfold loopEnd
  cases hs : s.hung <;> cases s.params.loopTest <;> by_cases hr : s.remaining ≤ 0 <;> simp [hr]

/-- An iteration that answers a next state ended the quantum at its start, returned on the halt
request, or ran the fetched word and then the loop test (R132 to R138). -/
theorem coreStep_cases {s t : State} (h : coreStep s = .next t) :
    (endsBefore s = true ∧ t = normalReturn s) ∨
    (endsBefore s = false ∧ s.haltReq = true ∧ t = haltReturn s) ∨
    (endsBefore s = false ∧ s.haltReq = false ∧ ∃ u,
      exec (decodeWord (afterFetch (boundary s)).table (fetchWord (boundary s)))
        (afterFetch (boundary s)) = .next u ∧ t = loopEnd u) := by
  unfold coreStep at h
  split at h
  · next he => cases h; exact .inl ⟨he, rfl⟩
  · next he =>
    have he' : endsBefore s = false := by simpa using he
    split at h
    · next hh => cases h; exact .inr (.inl ⟨he', hh, rfl⟩)
    · next hh =>
      refine .inr (.inr ⟨he', by simpa using hh, ?_⟩)
      unfold dispatchAt at h
      generalize exec _ _ = o at h ⊢
      cases o with
      | next u => exact ⟨u, rfl, by simpa [closeIteration] using h.symm⟩
      | fault f => cases h
      | refused r => cases h

/-- What no iteration changes, and what it keeps. -/
structure IterationKeeps (s t : State) : Prop where
  clockMult  : t.clockMult = s.clockMult
  table      : t.table = s.table
  tableBuilt : t.tableBuilt = s.tableBuilt
  params     : t.params = s.params
  cmds       : t.cmds = s.cmds
  inExecute  : t.inExecute = true → s.inExecute = true
  hung       : s.inExecute = true → s.hung = false → t.hung = true → t.inExecute = true
  mem_wf     : s.mem.wf = true → t.mem.wf = true
  cc         : s.params.srLayout.ccField s.cc = s.cc → t.params.srLayout.ccField t.cc = t.cc
  debt       : 0 ≤ s.params.irqServiceCycles → 0 ≤ s.interruptCycles → 0 ≤ t.interruptCycles

/-- A return from the loop keeps all of it. -/
theorem returns_keeps {s t : State} (same : steady t = steady { s with inExecute := false, result := t.result })
    (mem : t.mem = s.mem) (cc : t.cc = s.cc) (debt : t.interruptCycles = 0) (live : t.inExecute = false) :
    IterationKeeps s t := by
  have hp : t.params = s.params := congrArg Steady.params same
  refine ⟨congrArg Steady.clockMult same, congrArg Steady.table same, congrArg Steady.tableBuilt same,
    hp, congrArg Steady.cmds same, fun e => ?_, fun _ h e => ?_, fun h => mem ▸ h, fun h => ?_,
    fun _ _ => debt.ge⟩
  · rw [live] at e; cases e
  · rw [show t.hung = s.hung from congrArg Steady.hung same, h] at e; cases e
  · rw [cc, hp]; exact h

theorem coreStep_keeps {s t : State} (h : coreStep s = .next t) : IterationKeeps s t := by
  rcases coreStep_cases h with ⟨-, rfl⟩ | ⟨-, -, rfl⟩ | ⟨-, -, u, hu, rfl⟩
  · exact returns_keeps rfl rfl rfl rfl rfl
  · exact returns_keeps rfl rfl rfl rfl rfl
  · have c := exec_word_confined (decodeWord_isWord _ _) hu
    have a := (boundary_confined s).trans (afterRead_confined requestIRQ_confined (boundary s))
    have params : u.params = s.params := c.params.trans a.params
    have service : s.params.irqServiceCycles = (afterFetch (boundary s)).params.irqServiceCycles :=
      congrArg Params.irqServiceCycles a.params.symm
    have key : IterationKeeps s u :=
      ⟨c.clockMult.trans a.clockMult, c.table.trans a.table, c.tableBuilt.trans a.tableBuilt,
        params, c.cmds.trans a.cmds, fun e => (c.inExecute.trans a.inExecute).symm.trans e,
        fun e _ _ => (c.inExecute.trans a.inExecute).trans e, fun m => c.mem_wf (a.mem_wf m),
        fun e => c.cc (a.cc e),
        fun e d => c.debt (service ▸ e) (a.debt e d)⟩
    rcases loopEnd_cases u with e | ⟨hu, e⟩ <;> rw [e]
    · exact key
    · exact ⟨key.clockMult, key.table, key.tableBuilt, key.params, key.cmds, nofun,
        fun _ _ h => absurd (hu.symm.trans (show u.hung = true from h)) nofun,
        key.mem_wf, key.cc, fun _ _ => le_refl _⟩

/-- A HOST step that answers a next state was idle, or ran a decoded command. -/
theorem hostStep_cases {s t : State} (h : hostStep s = .next t) :
    (s.cmds = [] ∧ t = s) ∨
    ∃ c rest i, s.cmds = c :: rest ∧ decodeCommand c = .ok i ∧ exec i { s with cmds := rest } = .next t := by
  unfold hostStep at h
  split at h
  · next hc => cases h; exact .inl ⟨hc, rfl⟩
  · next c rest hc =>
    split at h
    · next i hd => exact .inr ⟨c, rest, i, hc, hd, h⟩
    · cases h

/-- The illegal-opcode handler under the default BUS, in one record (R120 to R123). -/
theorem illegalOpcode_default {s : State} (h : s.busEvents = []) (vector : Byte) :
    illegalOpcode vector s =
      { s with
        supervisor := true
        a          := (setA 7 (stackPointer s - 6) s).a
        mem        := s.withFrame (stackPointer s) s.pc (packSR s)
        pc         := defaultTarget s s.params.illegalZeroVectorFallback vector
        remaining  := s.remaining - s.params.illegalOpcodeCycles } := by
  unfold illegalOpcode takeException
  rw [enterVector_default (by simpa using h)]
  rfl

end Sys2Proof.Machine
end

