-- ==== Sys2Proof/Laws/Run.lean ====
section
/-! SUPPORT. Runs of the machine, step by step, and the step at a plain boundary. -/

namespace Sys2Proof.Machine

/-- Runs of `core`, with the machine's own types. -/
theorem run_zero (s : State) : Host.Core.run core 0 s = .next s := rfl

/-- The first step of a run. -/
theorem run_succ (k : Nat) (s : State) :
    Host.Core.run core (k + 1) s =
      match step s with
      | .next t => Host.Core.run core k t
      | .fault f => .fault f
      | .refused r => .refused r := by
  refine (Host.Core.run.eq_2 core s k).trans ?_
  have h : core.step s = step s := rfl
  rw [h]
  cases step s <;> rfl

/-- The last step of a run. -/
theorem run_snoc : ∀ {k : Nat} {s t : State}, Host.Core.run core k s = .next t →
    Host.Core.run core (k + 1) s = step t
  | 0, s, t, h => by
    cases h
    rw [run_succ]
    cases step s <;> rfl
  | k + 1, s, t, h => by
    rw [run_succ] at h ⊢
    cases hs : step s with
    | next u => rw [hs] at h; exact run_snoc h
    | fault f => rw [hs] at h; cases h
    | refused r => rw [hs] at h; cases h

/-- The step at a plain boundary: the word at the pc, then the loop test (R136 to R138). -/
theorem step_plain {s : State} (h : s.PlainBoundary) :
    step s = closeIteration (exec (decodeWord s.table (fetchWord s)) s) := by
  obtain ⟨h1, hh, h2, h3, h4, h5, h6⟩ := h
  have hb : boundary s = s := boundary_plain h3 h4
  have hf : afterFetch s = s := afterRead_default h5
  have he : endsBefore s = false := by simp [endsBefore, h6]
  simp [step, h1, hh, coreStep, he, h2, hb, dispatchAt, hf]

end Sys2Proof.Machine
end

