-- ==== Sys2Proof/Tests/Slice0.lean ====
section
/-! SUPPORT. The model's own tests: ill-formed terms refused, words and codes written out from
30_encoding.md, single steps of the vectors of 95_test_vectors.md (the name ends with the vector's),
and for every obligation with hypotheses a state that meets them. -/

namespace Sys2Proof.Tests

open Sys2Proof Sys2Proof.Machine

/-! ## Fixtures (95_test_vectors.md part 1) -/

/-- DESC_FIX: handlers 0 F_NOP, 1 F_STOP, 2 F_RTE, 3 F_SETD0. -/
def descFix : List Descriptor :=
  [⟨0x4E71, 0xFFFF, "nop", 0, 0⟩, ⟨0x4E72, 0xFFFF, "stop", 1, 0⟩, ⟨0x4E73, 0xFFFF, "rte", 2, 0⟩,
    ⟨0x7000, 0xFF00, "setd0", 3, 0⟩]

/-- DECODE_FIX. -/
def decodeFix : List (HalfWord × DecodeEntry) :=
  [(0x4E75, ⟨false, 0, some 0x4E71⟩), (0x4E76, ⟨false, 1, some 0x4E71⟩), (0x4E77, ⟨true, 0, some 0x4E71⟩)]

/-- The pc past `n` bytes. -/
def pastPc (n : Word) : HandlerAction := .setPc (.binary .add .pc (.const n))

/-- F_NOP. -/
def nopProg : HandlerProg := .act (pastPc 2) (.returns 4)

/-- F_STOP. -/
def stopProg : HandlerProg :=
  .read .word (.binary .add .pc (.const 2))
    (.act (.unpackSR (.temp 0)) (.act (pastPc 4) (.act .stop (.returns 4))))

/-- F_RTE. -/
def rteProg : HandlerProg :=
  .read .word (.a 7) (.read .long (.binary .add (.a 7) (.const 2))
    (.act (.setA 7 (.binary .add (.a 7) (.const 6)))
      (.act (.unpackSR (.temp 0)) (.act (.setPc (.temp 1)) (.returns 20)))))

/-- F_SETD0. -/
def setD0Prog : HandlerProg := .act (.setD 0 (.unary .signExtend8 .opcode)) (.act (pastPc 2) (.returns 4))

/-- TABLE_FIX. -/
def tableFix : Table := ⟨descFix.reverse, [(0x4E75, 0)]⟩

def paramsFix : Params :=
  { Params.standard with
    desc := descFix, decode := decodeFix, modifyTimesliceMode := .set
    handlers := [(0, nopProg), (1, stopProg), (2, rteProg), (3, setD0Prog)] }

/-- A memory from longs at addresses. -/
def memOf (longs : List (Word × Word)) : Memory :=
  longs.foldl (fun m e => m.store .big .long e.1 e.2) []

/-- The reset state under the fixture tables, stack pointer 0x1000, pc 0x2000. -/
def fix : State :=
  setA 7 0x1000 { State.reset with params := paramsFix, table := tableFix, pc := 0x2000 }

/-- The same in a running quantum with 10 cycles left. -/
def running : State := { fix with inExecute := true, quantumBudget := 10, remaining := 10 }

/-- The running state with one program for the handlers 0 and 3. -/
def handling (p : HandlerProg) : State :=
  { running with params := { paramsFix with handlers := [(0, p), (3, p)] } }

/-- What a field is after an answer that goes on. -/
def got {α : Type} (f : State → α) : Answer → Option α
  | .next t => some (f t)
  | .fault _ => none
  | .refused _ => none

/-! ## WellFormed: an ill-formed term for each check -/

theorem test_wf_lineF_slot : (Instr.lineF 0x123).wellFormed ⟨[⟨0xF000, 0xF000, "x", 0, 0⟩], []⟩ = false := by decide
theorem test_wf_lineA_slot : (Instr.lineA 0x456).wellFormed ⟨[⟨0xA000, 0xF000, "x", 0, 0⟩], []⟩ = false := by decide
theorem test_wf_illegal_slot : (Instr.illegal 0x4E71).wellFormed tableFix = false := by decide
theorem test_wf_illegal_lineF : (Instr.illegal 0xF000).wellFormed tableFix = false := by decide
theorem test_wf_illegal_lineA : (Instr.illegal 0xAFFF).wellFormed tableFix = false := by decide
theorem test_wf_external_slot : (Instr.external 0x4AFC).wellFormed tableFix = false := by decide
theorem test_wf_execute_negative : (Instr.execute (-1)).wellFormed tableFix = false := by decide
theorem test_wf_raiseIRQ_low : (Instr.raiseIRQ (-1)).wellFormed tableFix = false := by decide
theorem test_wf_raiseIRQ_high : (Instr.raiseIRQ 8).wellFormed tableFix = false := by decide
theorem test_wf_get_name : (Instr.get (.other 3)).wellFormed tableFix = false := by decide
theorem test_wf_set_name : (Instr.set (.other 23) 0).wellFormed tableFix = false := by decide

/-! ## Decoding: words and codes written out from R94 and R99 -/

theorem test_decode_lineF : decodeWord tableFix 0b1111000100100011 = .lineF 0x123 := by decide
theorem test_decode_lineA : decodeWord tableFix 0b1010010001010110 = .lineA 0x456 := by decide
theorem test_decode_illegal : decodeWord tableFix 0b0100101011111100 = .illegal 0x4AFC := by decide
theorem test_decode_external : decodeWord tableFix 0b0100111001110001 = .external 0x4E71 := by decide
theorem test_decode_external_lineF : decodeWord ⟨[⟨0xF200, 0xFFFF, "x", 7, 0⟩], []⟩ 0xF200 = .external 0xF200 := by decide
theorem test_decode_bytes : decodeBytes .big tableFix [0x4A, 0xFC, 0x12] = .ok (.illegal 0x4AFC, [0x12]) := by rfl
theorem test_decode_bytes_little : decodeBytes .little tableFix [0xFC, 0x4A] = .ok (.illegal 0x4AFC, []) := by rfl
theorem test_decode_truncated : decodeBytes .big tableFix [0x4A] = .error .wordTruncated := by rfl
theorem test_decode_pulseReset : decodeCommand ⟨0b0000, []⟩ = .ok .pulseReset := by rfl
theorem test_decode_execute : decodeCommand ⟨0b0001, [100]⟩ = .ok (.execute 100) := by rfl
theorem test_decode_raiseIRQ : decodeCommand ⟨0b0010, [7]⟩ = .ok (.raiseIRQ 7) := by rfl
theorem test_decode_get_d7 : decodeCommand ⟨0b0011, [7]⟩ = .ok (.get (.d 7)) := by rfl
theorem test_decode_get_ir : decodeCommand ⟨0b0011, [23]⟩ = .ok (.get .ir) := by rfl
theorem test_decode_set_a0 : decodeCommand ⟨0b0100, [8, 0xFFFFFFFF]⟩ = .ok (.set (.a 0) 0xFFFFFFFF) := by rfl
theorem test_decode_set_unknown : decodeCommand ⟨0b0100, [24, 0]⟩ = .ok (.set (.other 24) 0) := by rfl
theorem test_decode_set_too_wide : decodeCommand ⟨0b0100, [8, 0x100000000]⟩ = .error .operandOutOfRange := by rfl
theorem test_decode_isValid : decodeCommand ⟨0b0101, [0xF123]⟩ = .ok (.isValidInstruction 0xF123) := by rfl
theorem test_decode_isValid_too_wide : decodeCommand ⟨0b0101, [0x10000]⟩ = .error .operandOutOfRange := by rfl
theorem test_decode_cyclesRun : decodeCommand ⟨0b0110, []⟩ = .ok .cyclesRun := by rfl
theorem test_decode_cyclesRemaining : decodeCommand ⟨0b0111, []⟩ = .ok .cyclesRemaining := by rfl
theorem test_decode_modifyTimeslice : decodeCommand ⟨0b1000, [-3]⟩ = .ok (.modifyTimeslice (-3)) := by rfl
theorem test_decode_endTimeslice : decodeCommand ⟨0b1001, []⟩ = .ok .endTimeslice := by rfl
theorem test_decode_setClockMultiplier : decodeCommand ⟨0b1010, [2]⟩ = .ok (.setClockMultiplier 2) := by rfl
theorem test_decode_getClockMultiplier : decodeCommand ⟨0b1011, []⟩ = .ok .getClockMultiplier := by rfl
theorem test_decode_debugHalt : decodeCommand ⟨0b1100, []⟩ = .ok .debugHalt := by rfl
theorem test_decode_debugResume : decodeCommand ⟨0b1101, []⟩ = .ok .debugResume := by rfl
theorem test_decode_code_14 : decodeCommand ⟨0b1110, [1]⟩ = .error .commandUnassigned := by rfl
theorem test_decode_code_15 : decodeCommand ⟨0b1111, []⟩ = .error .commandUnassigned := by rfl
theorem test_decode_operand_count : decodeCommand ⟨0b0001, []⟩ = .error .operandCount := by rfl
theorem test_decodeTableWord_code : decodeTableWord 8 0b0011 = some (.get (.d 0)) := by rfl
theorem test_decodeTableWord_word : decodeTableWord 16 0xA000 = some (.lineA 0) := by rfl

/-! ## Table construction (T1 to T4) -/

theorem test_table_T1 :
    (buildTable descFix decodeFix).map (fun t => [(0x4E71 : HalfWord), 0x4E72, 0x4E73, 0x7000, 0x70FF,
      0x7100, 0x4E75, 0x4E76, 0x4E77, 0x0000, 0x4AFC, 0xA456, 0xF123, 0xFFFF].map t.lookup) =
    some [.external 0, .external 1, .external 2, .external 3, .external 3, .illegal, .external 0,
      .illegal, .illegal, .illegal, .illegal, .illegal, .illegal, .illegal] := by decide
theorem test_table_T2 :
    (buildTable [⟨0x7000, 0xF000, "a", 1, 0⟩, ⟨0x7000, 0xFF00, "b", 2, 0⟩] []).map
      (fun t => (t.lookup 0x7055, t.lookup 0x7155)) = some (.external 2, .external 1) := by decide
theorem test_table_T3a :
    (buildTable descFix [(0x0010, ⟨false, 0, some 0x4E71⟩), (0x0020, ⟨false, 0, some 0x0010⟩)]).map
      (fun t => t.lookup 0x0020) = some (.external 0) := by decide
theorem test_table_T3b :
    buildTable descFix [(0x0010, ⟨false, 0, some 0x0020⟩), (0x0020, ⟨false, 0, some 0x4E71⟩)] = none := by decide
theorem test_table_T4 : buildTable descFix [(0x4E78, ⟨false, 0, some 0x4AFC⟩)] = none := by decide

/-! ## Instruction words (I1 to I7) and an external handler -/

theorem test_lineF_I1 :
    got (fun t => (t.pc, stackPointer t, t.load .long 0xFFC, t.remaining))
      (exec (.lineF 0x123) { running with mem := memOf [(0x2C, 0x3000)] }) =
    some (0x3000, 0xFFA, 0x2000, 6) := by decide
theorem test_lineF_stack_wrap_I7 :
    got (fun t => (stackPointer t, [0xFFFFFFFE, 0xFFFFFFFF, 0, 1].map t.byteAt))
      (exec (.lineF 0x123) (setA 7 2 { running with mem := memOf [(0x2C, 0x3000)] })) =
    some (0xFFFFFFFC, [0, 0, 0x20, 0]) := by decide
theorem test_lineA_I2 :
    got (fun t => (t.pc, stackPointer t, t.load .word 0xFF4))
      (exec (.lineA 0x456) (setA 7 0xFFA { running with pc := 0x3000, mem := memOf [(0x28, 0x4000)] })) =
    some (0x4000, 0xFF4, 0x2700) := by decide
theorem test_lineA_zero_entry_I6 :
    got (fun t => (t.pc, t.remaining)) (exec (.lineA 0) { running with pc := 0x3000 }) = some (0, 6) := by decide
theorem test_illegal_I3 :
    got (fun t => (t.pc, t.load .word 0xFFA, packSR t))
      (exec (.illegal 0x4AFC) { running with
        mem := memOf [(0x10, 0x5000)], trace := true, supervisor := false, mask := 0, cc := 0b10101 }) =
    some (0x5000, 0x8015, 0xA015) := by decide
theorem test_illegal_fallback_I6 :
    got (fun t => t.pc)
      (exec (.illegal 0) { running with
        mem := memOf [(0x3C, 0x7000)], params := { paramsFix with illegalZeroVectorFallback := true } }) =
    some 0x7000 := by decide
theorem test_illegal_other_layout_and_order :
    got (fun t => ([0xFFA, 0xFFB, 0xFFC, 0xFFD].map t.byteAt, t.remaining))
      (exec (.illegal 0) { running with
        trace := true, mask := 5, params :=
          { paramsFix with srLayout := ⟨7, 6, 0, 8, 3⟩, byteOrder := .little, illegalOpcodeCycles := 1 } }) =
    some ([0xC5, 0x00, 0x00, 0x20], 9) := by decide
theorem test_external_cost_R115 :
    got (fun t => (t.pc, t.remaining)) (exec (.external 0x4E71) running) = some (0x2002, 6) := by decide
theorem test_external_negative_cost_E12 :
    got (fun t => t.remaining)
      (exec (.external 0x4E71) { handling (.act (pastPc 2) (.returns (-2))) with remaining := 4 }) =
    some 6 := by decide
theorem test_external_setD0_sign :
    got (fun t => (t.d.get 0, t.pc)) (exec (.external 0x70FF) running) = some (0xFFFFFFFF, 0x2002) := by decide
theorem test_external_stop_R119 :
    got (fun t => (packSR t, t.pc, t.stopped, t.remaining))
      (exec (.external 0x4E72) { running with mem := memOf [(0x2000, 0x4E722500)] }) =
    some (0x2500, 0x2004, true, -4) := by decide
theorem test_external_rte_R198 :
    got (fun t => (packSR t, t.pc, stackPointer t, t.remaining))
      (exec (.external 0x4E73) (setA 7 0xFFA { running with mem := memOf [(0xFFA, 0x03040000), (0xFFE, 0x31230000)] })) =
    some (0x0304, 0x3123, 0x1000, -10) := by decide

/-! ## The loop (E1 to E13) -/

theorem test_execute_debt_E9 :
    got (fun t => (t.remaining, t.interruptCycles, t.quantumBudget))
      (exec (.execute 10) { fix with interruptCycles := 56 }) = some (-46, 0, 10) := by decide
theorem test_execute_stopped_E4 :
    got (fun t => (t.result, t.remaining, t.irqPending))
      (exec (.execute 1000) { fix with
        stopped := true, clockMult := 3, interruptCycles := 56, remaining := -2, irqPending := true }) =
    some (some (.count 1000), 0, true) := by decide
theorem test_step_last_nop_E1 :
    got (fun t => (t.result, t.remaining, t.inExecute))
      (step { running with remaining := 2, mem := memOf [(0x2000, 0x4E714E71)] }) =
    some (some (.count 12), -2, false) := by decide
theorem test_step_before_loop_test_E2 :
    got (fun t => (t.result, t.pc))
      (step { running with quantumBudget := 0, remaining := 0, params := { paramsFix with loopTest := .before } }) =
    some (some (.count 0), 0x2000) := by decide
theorem test_step_multiplier_E7 :
    got (fun t => (t.result, cyclesRemainingValue t))
      (step { running with
        clockMult := 3, quantumBudget := 3, remaining := 3, mem := memOf [(0x2000, 0x4E714E71)] }) =
    some (some (.count 1), 0) := by decide
theorem test_step_hung_U13 :
    got (fun t => (t.hung, t.inExecute, t.remaining))
      (step { handling .hangs with mem := memOf [(0x2000, 0x4E714E71)], remaining := 0 }) =
    some (true, true, 0) := by decide
theorem test_step_halt_E11 :
    got (fun t => (t.result, t.irqPending))
      (step { running with remaining := 10, haltReq := true, irqPending := true, pendingLevel := 7 }) =
    some (some (.count 0), true) := by decide
theorem test_step_endTimeslice_E13 :
    got (fun t => (t.result, t.remaining))
      (step { running with
        quantumBudget := 100, remaining := 60, mem := memOf [(0x2000, 0x4E714E71)]
        busEvents := [⟨none, false, [.endTimeslice]⟩] }) =
    some (some (.count 104), -4) := by decide
theorem test_step_hook_halts_P5 :
    got (fun t => (t.haltReq, t.pc))
      (step { running with
        mem := memOf [(0x2000, 0x4E714E71)], hookRuns := [[.debugHalt]] }) =
    some (true, 0x2002) := by decide

/-! ## Commands (E14, E17, G, Z) -/

theorem test_modifyTimeslice_set_E14 :
    got (fun t => (t.remaining, t.quantumBudget))
      (exec (.modifyTimeslice 20) { fix with remaining := 6, quantumBudget := 10, clockMult := 2 }) =
    some (40, 10) := by decide
theorem test_modifyTimeslice_add_E14 :
    got (fun t => (t.remaining, t.quantumBudget))
      (exec (.modifyTimeslice 20) { fix with
        remaining := 6, quantumBudget := 10, clockMult := 2, params := { paramsFix with modifyTimesliceMode := .add } }) =
    some (46, 50) := by decide
theorem test_cyclesRun_E6 :
    got (fun t => t.result) (exec .cyclesRun { fix with quantumBudget := 9, remaining := -3, clockMult := 3 }) =
    some (some (.count 4)) := by decide
theorem test_cyclesRemaining_truncates_R142 :
    got (fun t => t.result) (exec .cyclesRemaining { fix with remaining := -2, clockMult := 3 }) =
    some (some (.count 0)) := by decide
theorem test_endTimeslice_R144 :
    got (fun t => t.remaining) (exec .endTimeslice { fix with remaining := 60 }) = some 0 := by decide
theorem test_setClockMultiplier_E17 :
    got (fun t => t.clockMult) (exec (.setClockMultiplier (-5)) fix) = some 1 := by decide
theorem test_setClockMultiplier_inside_E15 :
    exec (.setClockMultiplier 2) running = .refused .multiplierInsideQuantum := by rfl
theorem test_getClockMultiplier_Z5 :
    got (fun t => t.result) (exec .getClockMultiplier (State.powerOn paramsFix)) = some (some (.count 1)) := by decide
theorem test_debugHalt_R149 : got (fun t => t.haltReq) (exec .debugHalt fix) = some true := by decide
theorem test_debugResume_R150 :
    got (fun t => t.haltReq) (exec .debugResume { fix with haltReq := true }) = some false := by decide
theorem test_set_sr_G4 :
    got packSR (exec (.set .sr 0xFFFF) fix) = some 0xA71F := by decide
theorem test_set_sr_G5 :
    got packSR (exec (.set .sr 0x12340300) fix) = some 0x0300 := by decide
theorem test_get_sr_G3 :
    got (fun t => t.result) (exec (.get .sr) { fix with trace := true, mask := 0, cc := 0b00100 }) =
    some (some (.value 0xA004)) := by decide
theorem test_get_usp_G6 :
    got (fun t => t.result) (exec (.get .usp) fix) = some (some (.value 0)) := by decide
theorem test_isValid_redirected_T1 :
    got (fun t => t.result) (exec (.isValidInstruction 0x4E75) fix) = some (some (.truth true)) := by decide
theorem test_isValid_skipped_T1 :
    got (fun t => t.result) (exec (.isValidInstruction 0x4E76) fix) = some (some (.truth false)) := by decide
theorem test_pulseReset_Z2 :
    got (fun t => ((t.mask, t.supervisor, t.trace), t.intLevel, t.remaining, t.clockMult))
      (exec .pulseReset { fix with
        stopped := true, haltReq := true, remaining := -2, interruptCycles := 56, intLevel := 7, clockMult := 2
        mask := 0, supervisor := false }) = some ((7, true, false), 0, 0, 2) := by rfl
theorem test_pulseReset_old_sp_R230 :
    got (fun t => (t.collabResult, stackPointer t))
      (exec .pulseReset { fix with mem := memOf [(0, 0x1002)], busEvents := [⟨none, false, [.get .sp]⟩] }) =
    some (some (.value 0x1000), 0x1002) := by rfl
theorem test_pulseReset_misaligned_Z4 :
    got (fun t => (stackPointer t, t.pc)) (exec .pulseReset { fix with mem := memOf [(0, 0x1001), (4, 0x2001)] }) =
    some (0x1001, 0x2001) := by rfl

/-! ## Interrupts (V20 to V41) -/

/-- Memory of the V vectors: the autovectors 25 to 31, 24 and 15. -/
def memV : Memory :=
  memOf [(0x3C, 0x6200), (0x60, 0x6100), (0x64, 0x6000), (0x78, 0x6000), (0x7C, 0x6000)]

/-- Mask 5, acknowledge answers Autovector. -/
def irqFix : State := { fix with mask := 5, mem := memV, ackRuns := [⟨[], .autovector⟩] }

theorem test_raiseIRQ_latches_V20 :
    got (fun t => (t.irqPending, t.pendingLevel, t.intLevel)) (exec (.raiseIRQ 3) irqFix) = some (true, 3, 0) := by decide
theorem test_raiseIRQ_wakes_V34 :
    got (fun t => (t.stopped, t.pc, t.load .word 0xFFA, t.interruptCycles))
      (exec (.raiseIRQ 6) { irqFix with stopped := true }) = some (false, 0x6000, 0x2500, 56) := by decide
theorem test_take_V21 :
    let t := takePending { irqFix with irqPending := true, pendingLevel := 6 }
    (t.pc, stackPointer t, packSR t, t.load .long 0xFFC) = (0x6000, 0xFFA, 0x2600, 0x2000) := by decide
theorem test_not_above_mask_V22 :
    let t := resolveIRQ 5 irqFix
    (t.intLevel, t.pc, t.mask) = (5, 0x2000, 5) := by decide
theorem test_level7_V25 :
    let t := resolveIRQ 7 { irqFix with mask := 7 }
    (t.pc, t.load .word 0xFFA, t.intLevel) = (0x6000, 0x2700, 7) := by decide
theorem test_level7_repeated_V26 :
    let t := resolveIRQ 7 { irqFix with mask := 7, intLevel := 7 }
    (t.pc, t.interruptCycles) = (0x2000, 0) := by decide
theorem test_level7_lowered_mask_V28 :
    (resolveIRQ 7 { irqFix with mask := 3, intLevel := 7 }).pc = 0x6000 := by decide
theorem test_spurious_V29 :
    let t := resolveIRQ 6 { irqFix with ackRuns := [⟨[], .spurious⟩] }
    (t.pc, t.mask) = (0x6100, 6) := by decide
theorem test_malformed_V31 :
    let t := resolveIRQ 6 { irqFix with stopped := true, ackRuns := [⟨[], .integer 0x100⟩] }
    (t.stopped, t.pc, t.intLevel, t.interruptCycles) = (false, 0x2000, 6, 0) := by decide
theorem test_zero_entry_V32 :
    (resolveIRQ 6 { irqFix with mem := memOf [(0x3C, 0x6200)] }).pc = 0x6200 := by decide
theorem test_trace_kept_V40 :
    packSR (resolveIRQ 2 { irqFix with trace := true, supervisor := false, mask := 1, cc := 0b00100 }) = 0xA204 := by decide
theorem test_ack_sets_sp_V41 :
    let t := resolveIRQ 6 { irqFix with ackRuns := [⟨[.set (.a 7) 0x800, .raiseIRQ 7], .autovector⟩] }
    (stackPointer t, t.load .word 0x7FA, t.irqPending) = (0x7FA, 0x2500, true) := by decide

theorem test_ack_sets_pc_and_sr_R172 :
    let t := resolveIRQ 6
      { irqFix with ackRuns := [⟨[.set .pc 0x3000, .set .sr 0x0003], .autovector⟩] }
    (t.load .long 0xFFC, t.load .word 0xFFA, t.mask, t.supervisor) = (0x3000, 3, 6, true) := by decide

/-- R116, R20: a handler reads the special flag, `stopped`, the latched level and the counters. -/
theorem test_handler_reads_the_register_file :
    let s := { irqFix with haltReq := true, stopped := true, intLevel := 5, remaining := -1, interruptCycles := 56 }
    [HandlerExpr.haltReq, .stopped, .intLevel, .counterPart .remaining 0, .counterPart .remaining 3,
      .counterBelow .remaining 0, .counterBelow .interruptCycles 56, .counterPart .interruptCycles 0].map
      (exprValue 0 [] s) = [1, 1, 5, 0xFFFFFFFF, 0xFFFFFFFF, 1, 0, 56] := by decide

/-! ## Witnesses: a state and operands that meet the hypotheses of each obligation -/

/-- A table with no external slot, a plain idle state under it. -/
def idle : State := { fix with table := .allIllegal }

/-- One action, then a cost of 4. -/
def once (act : HandlerAction) : HandlerProg := .act act (.returns 4)

theorem witness_DecodeReadsBackEncode :
    ∀ i ∈ [Instr.lineF 0xFFF, .lineA 0, .illegal 0, .illegal 0xEFFF, .external 0x70FF, .pulseReset, .execute 0,
      .raiseIRQ 0, .raiseIRQ 7, .get (.d 7), .get (.other 24), .get (.other (-1)), .set .ir 0xFFFFFFFF,
      .isValidInstruction 0xFFFF, .cyclesRun, .cyclesRemaining, .modifyTimeslice (-1), .endTimeslice,
      .setClockMultiplier (-1), .getClockMultiplier, .debugHalt, .debugResume],
      i.wellFormed tableFix = true := by decide
theorem witness_EncodeReadsBackDecode :
    decodePacket tableFix (.word 0xF000) = .ok (.lineF 0) ∧
    decodePacket tableFix (.command ⟨13, []⟩) = .ok .debugResume := ⟨rfl, rfl⟩
theorem witness_SlotAndNibbleSelectTheKind :
    tableFix.lookup 0x4E71 ≠ .illegal ∧ tableFix.lookup 0xFFFF = .illegal ∧ tableFix.lookup 0xA000 = .illegal ∧
    tableFix.lookup 0x0000 = .illegal ∧ (0xFFFF : HalfWord).toNat / 4096 = 15 ∧
    (0xA000 : HalfWord).toNat / 4096 = 10 ∧ (0 : HalfWord).toNat / 4096 ≠ 15 := by decide
theorem witness_StepRunsTheWordAtThePc :
    running.PlainBoundary ∧
    decodeBytes running.params.byteOrder running.table [running.byteAt running.pc.toNat, running.byteAt (running.pc + 1).toNat] =
      .ok (.illegal 0, []) := ⟨by decide, rfl⟩
theorem witness_IterationPartsComeInOrder :
    let s := { irqFix with inExecute := true, irqPending := true, pendingLevel := 6, hookRuns := [[.endTimeslice]] }
    let b := runHook (if s.irqPending then resolveIRQ s.pendingLevel { s with irqPending := false } else s)
    s.inExecute = true ∧ s.hung = false ∧ s.haltReq = false ∧ s.params.loopTest = .after ∧ b.pc = 0x6000 ∧
    ∃ t, exec (decodeWord s.table ((busAnswer .word b.pc b).setWidth 16)) (afterRead requestIRQ b) = .next t :=
  ⟨rfl, rfl, rfl, rfl, by decide, _, rfl⟩
theorem witness_StepRunsTheNextCommand :
    (fix.inExecute = false ∧ fix.cmds = []) ∧
    (State.cmds { fix with cmds := [⟨12, []⟩] } = [⟨12, []⟩] ∧ decodeCommand ⟨12, []⟩ = .ok .debugHalt) :=
  ⟨⟨rfl, rfl⟩, rfl, rfl⟩
theorem witness_HostCommandsWaitDuringExecute :
    running.inExecute = true ∧ ∃ t, step { running with cmds := [⟨13, []⟩] } = .next t := ⟨rfl, _, rfl⟩
theorem witness_PlacedWordIsTheNextInstruction :
    fix.mem.wf = true ∧ 0xFFFF < 65536 ∧ decodeTableWord 8 13 = some .debugResume := ⟨rfl, by decide, rfl⟩
theorem witness_IllegalWordsTakeTheirVectors :
    IllegalKind (.lineF 0xFFF) 0x2C ∧ IllegalKind (.lineA 0) 0x28 ∧ IllegalKind (.illegal 0) 0x10 ∧
      running.DefaultBus :=
  ⟨.inl ⟨⟨_, rfl⟩, rfl⟩, .inr (.inl ⟨⟨_, rfl⟩, rfl⟩), .inr (.inr ⟨⟨_, rfl⟩, rfl⟩), rfl⟩
theorem witness_IllegalWordsFrame :
    let s := { running with busEvents := [⟨some 0x8000, false, []⟩, ⟨none, true, []⟩] }
    s.SilentBus ∧ s.mem.wf = true ∧ IllegalKind (.lineA 1) 0x28 ∧ ∃ t, exec (.lineA 1) s = .next t :=
  ⟨by decide, rfl, .inr (.inl ⟨⟨_, rfl⟩, rfl⟩), _, rfl⟩
theorem witness_DeliveredFrameReadsBack :
    (running.DefaultBus ∧ running.mem.wf = true ∧ IllegalKind (.lineF 0) 0x2C ∧ ∃ t, exec (.lineF 0) running = .next t) ∧
    (irqFix.DefaultBus ∧ irqFix.mem.wf = true ∧ irqFix.AckSelects 6 [] 30) :=
  ⟨⟨rfl, rfl, .inl ⟨⟨_, rfl⟩, rfl⟩, _, rfl⟩, rfl, by decide, .autovector, rfl, .inl ⟨rfl, rfl⟩⟩
theorem witness_PushFrameWritesLongThenWord : irqFix.DefaultBus ∧ irqFix.mem.wf = true := ⟨rfl, by decide⟩
theorem witness_ExternalRunsItsHandlerAndBills :
    running.table.lookup 0x4E71 = .external 0 ∧ listedHandler running.params.handlers 0 = some nopProg ∧
    (let s := { running with params := { paramsFix with handlers := [] } }
     s.table.lookup 0x4E71 = .external 0 ∧ listedHandler s.params.handlers 0 = none) ∧
    running.inExecute = true ∧
    (let t := { running with hookRuns := [[]] }
     (∀ e, exprValue 0x4E71 [] t e = exprValue 0x4E71 [] running e) ∧ t.params = running.params ∧
     running.params.srLayout.wf = true ∧ running.params.srLayout.ccField running.cc = running.cc ∧
     handlerView t = handlerView running) :=
  ⟨by decide, by decide, ⟨by decide, by decide⟩, rfl, exprValue_congr (s := running) (t := { running with hookRuns := [[]] }) rfl rfl, rfl, by decide, by decide, rfl⟩
theorem witness_ExternalHandlerWritesWhatItSays :
    (∀ act ∈ [pastPc 1, .setD 7 (.const 1), .setA 7 .opcode, .setCc .sr, .setMask (.const 7), .setSupervisor (.const 0),
      .setTrace (.d 0), .unpackSR (.const 0xFFFF), .setStopped true, .stop, .write .long (.const 0xFFFFFFFF) .pc],
      (handling (once act)).table.lookup 0x70FF = .external 3 ∧
      listedHandler (handling (once act)).params.handlers 3 = some (.act act (.returns 4)) ∧
      (handling (once act)).DefaultBus) ∧
    listedHandler (handling (.read .byte .pc (once (.setD 1 (.temp 0))))).params.handlers 3 =
      some (.read .byte .pc (.act (.setD 1 (.temp 0)) (.returns 4))) := by decide
theorem witness_ExternalHandlerRaisesAnyVector :
    let s := handling (once (.raiseException 255))
    s.table.lookup 0x4E71 = .external 0 ∧
    listedHandler s.params.handlers 0 = some (.act (.raiseException 255) (.returns 4)) ∧
    s.DefaultBus ∧ s.params.illegalZeroVectorFallback = false := by decide
theorem witness_ExternalHandlerFrame :
    let p := HandlerProg.act (.write .word (.const 0x4000) .pc) (once (.raiseException 32))
    let s := handling p
    s.table.lookup 0x4E71 = .external 0 ∧ s.SilentBus ∧ s.mem.wf = true ∧
    (∃ t, exec (.external 0x4E71) s = .next t) ∧
    handlerDone 0x4E71 p s = [.write .word (.const 0x4000) .pc, .raiseException 32] ∧
    handlerStores 0x4E71 p s = [(.word, 0x4000), (.long, 0xFFC), (.word, 0xFFA)] ∧
    handlerCost 0x4E71 p [] s = some 4 :=
  ⟨by decide, by decide, rfl, ⟨_, rfl⟩, by decide, by decide, by decide⟩
theorem witness_ResetLoadsStackPointerAndPc :
    let s := { fix with mem := memOf [(0, 0x1000), (4, 0x2000)] }
    s.inExecute = false ∧ s.tableBuilt = true ∧ s.DefaultBus ∧
    (s.load .long 0 = 0x1000 ∧ s.load .long 4 = 0x2000) ∧ s.params.byteOrder = .big ∧
    [0, 1, 2, 3, 4, 5, 6, 7].map s.byteAt = [0, 0, 0x10, 0, 0, 0, 0x20, 0] := by decide
theorem witness_ResetLeavesTheStatedValues :
    (fix.inExecute = false ∧ fix.DefaultBus ∧ fix.tableBuilt = true) ∧
    (let s := State.powerOn paramsFix
     s.inExecute = false ∧ s.DefaultBus ∧ s.tableBuilt = false ∧
     buildTable s.params.desc s.params.decode = some tableFix) := by decide
theorem witness_FirstResetBuildsTheTable :
    let s := State.powerOn paramsFix
    let bad := State.powerOn { paramsFix with decode := [(0x4E78, ⟨false, 0, some 0x4AFC⟩)] }
    s.inExecute = false ∧ s.tableBuilt = false ∧
    buildTable s.params.desc s.params.decode = some tableFix ∧ bad.tableBuilt = false ∧
    buildTable bad.params.desc bad.params.decode = none := by decide
theorem witness_BuiltTableIsTheSpecsLoops :
    decodeAscending 0 decodeFix = true ∧ decodeAscending 0 [(0, ⟨false, 0, none⟩), (0xFFFF, ⟨true, 0, none⟩)] = true := by decide
theorem witness_BuiltTableNeverChanges :
    fix.tableBuilt = true ∧ ∃ t, step { fix with cmds := [⟨0, []⟩] } = .next t := ⟨rfl, _, rfl⟩
theorem witness_FixedSlotsAreIllegal : fix.Inv ∧ fix.tableBuilt = true ∧ fix.params.admitted = true :=
  ⟨⟨rfl, by decide, by decide, by decide, by decide, fun _ => by decide, nofun, nofun⟩, rfl, by decide⟩
theorem witness_CommandsBeforeTheFirstReset :
    (State.powerOn paramsFix).tableBuilt = false ∧ (State.powerOn paramsFix).inExecute = false := ⟨rfl, rfl⟩
theorem witness_ForbiddenCommandsAreRefused :
    (running.tableBuilt = true ∧ running.inExecute = true) ∧
    (let s := { fix with cmds := [⟨14, [1]⟩] }
     s.tableBuilt = true ∧ s.inExecute = false ∧ 14 ≤ (14 : Byte).toNat ∧ s.cmds = ⟨14, [1]⟩ :: []) ∧
    14 ≤ (255 : Byte).toNat ∧ (-1 : Int) < 0 ∧ (7 : Int) < 8 := by decide
theorem witness_StoppedExecuteReturnsItsBudget :
    let s := { fix with stopped := true }
    s.tableBuilt = true ∧ s.inExecute = false ∧ s.stopped = true ∧ (0 : Int) ≤ 0 := by decide
theorem witness_ExecuteBeginsAQuantum :
    fix.tableBuilt = true ∧ fix.inExecute = false ∧ fix.stopped = false ∧ (0 : Int) ≤ 0 := by decide
theorem witness_HaltRequestEndsTheQuantum :
    let s := { running with haltReq := true }
    let r := { fix with haltReq := true, interruptCycles := 56 }
    (s.haltReq = true ∧ s.hung = false ∧ s.params.loopTest = .after ∧ s.inExecute = true) ∧
    (r.haltReq = true ∧ r.hung = false ∧ r.params.loopTest = .after ∧ r.tableBuilt = true ∧ r.inExecute = false ∧
      r.stopped = false ∧ ∃ u, exec (.execute 100) r = .next u) :=
  ⟨⟨rfl, rfl, rfl, rfl⟩, rfl, rfl, rfl, rfl, rfl, rfl, _, rfl⟩
theorem witness_QuantumEndsWhenTheBudgetIsUsed :
    let a := { running with remaining := 1 }
    let b := { running with remaining := 0 }
    let c := { b with params := { paramsFix with endOfQuantumOrder := .dischargeThenCount } }
    running.hung = false ∧ (a.params.loopTest = .after ∧ 0 < a.remaining) ∧
    (b.params.loopTest = .after ∧ b.remaining ≤ 0 ∧ b.params.endOfQuantumOrder = .countThenDischarge) ∧
    (c.params.loopTest = .after ∧ c.remaining ≤ 0 ∧ c.params.endOfQuantumOrder = .dischargeThenCount) := by decide
theorem witness_LoopTestBeforeTheBody :
    let s := { running with params := { paramsFix with loopTest := .before } }
    s.inExecute = true ∧ s.hung = false ∧ s.params.loopTest = .before ∧ State.remaining { s with remaining := 0 } ≤ 0 ∧
    (0 < s.remaining ∧ State.haltReq { s with haltReq := true } = true) ∧ s.haltReq = false ∧
    ∃ t, exec (decodeWord s.table ((busAnswer .word s.pc s).setWidth 16)) s = .next t :=
  ⟨rfl, rfl, rfl, by decide, by decide, rfl, _, rfl⟩
theorem witness_IllegalWordsQuantumIsCountedExactly :
    idle.PlainIdle ∧ (∀ op, idle.table.lookup op = .illegal) ∧ idle.params.illegalOpcodeCycles = 4 ∧
    (10 * idle.clockMult ≤ 4 * (3 : Nat) ∧ 4 * (((3 : Nat) : Int) - 1) < 10 * idle.clockMult) ∧
    (8 * idle.clockMult ≤ 4 * (2 : Nat) ∧ 4 * (((2 : Nat) : Int) - 1) < 8 * idle.clockMult) ∧
    0 * idle.clockMult ≤ 4 * (1 : Nat) :=
  ⟨by decide, fun _ => rfl, rfl, by decide, by decide, by decide⟩

/-- A word whose handler returns -2, then an illegal word, then a NOP at the illegal word's vector. -/
def mixed : State :=
  { fix with
    mem := memOf [(0x10, 0x3000), (0x2000, 0x70014AFC), (0x3000, 0x4E714E71)]
    params := { paramsFix with handlers := [(0, nopProg), (3, .act (pastPc 2) (.returns (-2)))] } }

theorem witness_QuantumChargesTheSumOfHandlerCosts :
    let costs : List Int := [-2, 4, 4]
    let after (j : Nat) := afterDispatches j (beginQuantum 6 mixed)
    mixed.PlainIdle ∧ costs ≠ [] ∧
    (∀ j ∈ [0, 1, 2], dispatchCost (after j) = costs[j]? ∧ HandlerAction.stop ∉ dispatchDone (after j)) ∧
    6 * mixed.clockMult ≤ costs.sum ∧ (∀ j ∈ [1, 2], (costs.take j).sum < 6 * mixed.clockMult) := by decide
theorem witness_TimesliceCommandsReadAndSteerTheBudget :
    fix.tableBuilt = true ∧ fix.params.modifyTimesliceMode = .set ∧
    (State.params { fix with params := { paramsFix with modifyTimesliceMode := .add } }).modifyTimesliceMode = .add :=
  ⟨rfl, rfl, rfl⟩
theorem witness_ClockMultiplierIsClampedAndReadsBack :
    fix.inExecute = false ∧ ∃ t, exec (.setClockMultiplier 0) fix = .next t := ⟨rfl, _, rfl⟩
theorem witness_DebugCommandsSetAndClearTheRequest :
    (∃ t, exec .debugHalt fix = .next t) ∧ ∃ t, exec .debugResume fix = .next t := ⟨⟨_, rfl⟩, _, rfl⟩
theorem witness_OnlyItsCommandChangesTheMultiplier :
    ∃ t, step { fix with cmds := [⟨10, [2]⟩] } = .next t ∧ t.clockMult ≠ fix.clockMult := ⟨_, rfl, by decide⟩
theorem witness_GetReturnsGeneralRegisters : fix.tableBuilt = true := rfl
theorem witness_GetReturnsTheOtherIdentifiers :
    fix.tableBuilt = true ∧ fix.params.srLayout = Params.standard.srLayout ∧ fix.cc.toNat < 32 := by decide
theorem witness_SetStoresGeneralRegisters : running.tableBuilt = true := rfl
theorem witness_SetWritesTheOtherIdentifiers :
    running.tableBuilt = true ∧ running.params.srLayout = Params.standard.srLayout := ⟨rfl, rfl⟩
theorem witness_GetAfterSetReturnsTheValue :
    fix.params.srLayout.wf = true ∧ fix.params.srLayout = Params.standard.srLayout ∧
    ∃ t u, exec (.set .sr 0xFFFFFFFF) fix = .next t ∧ exec (.get .sr) t = .next u :=
  ⟨by decide, rfl, _, _, rfl, rfl⟩
theorem witness_StatusWordPacksItsFields :
    fix.params.srLayout.wf = true ∧ SrLayout.wf ⟨7, 6, 0, 8, 3⟩ = true ∧ SrLayout.wf ⟨15, 13, 14, 0, 5⟩ = false ∧
    fix.params.srLayout.ccField 0x1F = 0x1F ∧ fix.params.srLayout = Params.standard.srLayout ∧ fix.cc.toNat < 32 := by
  decide
theorem witness_ValidMeansNotIllegal : fix.tableBuilt = true ∧ (State.powerOn paramsFix).tableBuilt = false := ⟨rfl, rfl⟩
theorem witness_RaiseLatchesOrResolves :
    (fix.tableBuilt = true ∧ fix.stopped = false ∧ ∃ t, exec (.raiseIRQ (7 : BitVec 3).toNat) fix = .next t) ∧
    (let s := { irqFix with stopped := true }
     s.tableBuilt = true ∧ s.stopped = true ∧ ¬ s.Accepts 5) ∧
    (State.powerOn paramsFix).tableBuilt = false ∧ ((-1 : Int) < 0 ∧ (7 : Int) < 8) :=
  ⟨⟨rfl, rfl, _, rfl⟩, by decide, rfl, by decide⟩
theorem witness_ResolutionArbitratesByPriority :
    irqFix.Accepts 6 ∧ ¬ irqFix.Accepts 5 ∧ State.Accepts { irqFix with mask := 7 } 7 ∧
    ¬ State.Accepts { irqFix with mask := 7, intLevel := 7 } 7 := by decide
theorem witness_DeliveryEntersTheSelectedVector :
    irqFix.DefaultBus ∧ irqFix.AckSelects 7 [] 31 ∧
    State.AckSelects { irqFix with ackRuns := [⟨[], .spurious⟩] } 6 [] 24 ∧
    State.AckSelects { irqFix with ackRuns := [⟨[], .vector 255⟩] } 6 [] 255 ∧
    State.AckSelects { irqFix with ackRuns := [⟨[], .integer 0xFFFFFFFF⟩] } 1 [] 25 ∧
    State.AckSelects { irqFix with ackRuns := [⟨[], .integer 0xFFFFFFFE⟩] } 1 [] 24 ∧
    State.AckSelects { irqFix with ackRuns := [⟨[], .integer 0⟩] } 1 [] 0 :=
  ⟨rfl, ⟨_, rfl, .inl ⟨rfl, by decide⟩⟩, ⟨_, rfl, .inr (.inl ⟨rfl, rfl⟩)⟩,
    ⟨_, rfl, .inr (.inr (.inl ⟨_, rfl, by decide, by decide⟩))⟩,
    ⟨_, rfl, .inr (.inr (.inr (.inl ⟨rfl, by decide⟩)))⟩,
    ⟨_, rfl, .inr (.inr (.inr (.inr (.inl ⟨rfl, by decide, rfl⟩))))⟩,
    ⟨_, rfl, .inr (.inr (.inr (.inr (.inr ⟨_, rfl, by decide, by decide, by decide, by decide⟩))))⟩⟩
theorem witness_StoppedProcessorWakesOnlyOnQualifyingRequest :
    let s := { irqFix with stopped := true }
    s.tableBuilt = true ∧ s.stopped = true ∧ s.DefaultBus ∧ (s.AckSelects 6 [] 30 ∧ s.Accepts 6) ∧
    (s.AckSelects 5 [] 29 ∧ ¬ s.Accepts 5) :=
  ⟨rfl, rfl, rfl, ⟨⟨_, rfl, .inl ⟨rfl, by decide⟩⟩, by decide⟩, ⟨_, rfl, .inl ⟨rfl, by decide⟩⟩, by decide⟩
theorem witness_MalformedAcknowledgeAbandonsDelivery :
    irqFix.Accepts 6 ∧ 255 < (256 : Word).toNat ∧ 255 < (0xFFFFFFFD : Word).toNat ∧
    State.ackRuns { irqFix with ackRuns := [⟨[], .vector 256⟩] } = ⟨[], .vector 256⟩ :: [] ∧
    ((0xFFFFFFFD : Word) ≠ irqFix.params.ackAutovector ∧ (0xFFFFFFFD : Word) ≠ irqFix.params.ackSpurious ∧
      State.ackRuns { irqFix with ackRuns := [⟨[], .integer 0xFFFFFFFD⟩] } = ⟨[], .integer 0xFFFFFFFD⟩ :: []) ∧
    State.tableBuilt { irqFix with stopped := true } = true := by decide
theorem witness_LevelSevenIsAnEdge :
    irqFix.DefaultBus ∧ irqFix.AckSelects 7 [] 31 ∧ irqFix.intLevel ≠ 7 ∧ (0 : BitVec 3) < 7 ∧ (6 : BitVec 3) < 7 :=
  ⟨rfl, ⟨_, rfl, .inl ⟨rfl, by decide⟩⟩, by decide, by decide, by decide⟩
theorem witness_AcknowledgeCommandsAreSeenByTheDelivery :
    let cmds := [CollabCmd.set .sp 0x800, .set .pc 0x3000, .set .sr 0xFFFF, .raiseIRQ 7]
    let s := { irqFix with ackRuns := [⟨cmds, .autovector⟩] }
    s.ackRuns = ⟨cmds, .autovector⟩ :: [] ∧ s.DefaultBus ∧ AnswerSelects s.params 6 .autovector 30 ∧
    AnswerSelects s.params 6 (.vector 255) 255 :=
  ⟨rfl, rfl, .inl ⟨rfl, by decide⟩, .inr (.inr (.inl ⟨_, rfl, by decide, by decide⟩))⟩
theorem witness_NoInterruptWithoutARequest :
    running.inExecute = true ∧ running.irqPending = false ∧ running.SilentBus ∧ running.hookRuns = [] ∧
    ∃ t, step running = .next t := ⟨rfl, rfl, nofun, rfl, _, rfl⟩
theorem witness_StepKeepsTheInvariant : State.reset.Inv ∧ ∃ t, step State.reset = .next t :=
  ⟨⟨rfl, by decide, by decide, by decide, by decide, fun _ => rfl, nofun, nofun⟩, _, rfl⟩
theorem witness_ResetMeetsTheInvariant : paramsFix.admitted = true := by decide
theorem witness_CollaboratorCommandsActAsHostsDo :
    irqFix.tableBuilt = true ∧
    (let s := { irqFix with
       hookRuns := [[.debugHalt]], busEvents := [⟨some 1, true, [.get .pc]⟩], ackRuns := [⟨[.debugResume], .spurious⟩] }
     s.hookRuns = [.debugHalt] :: [] ∧ s.busEvents = ⟨some 1, true, [.get .pc]⟩ :: [] ∧
     s.ackRuns = ⟨[.debugResume], .spurious⟩ :: []) ∧
    (∀ c ∈ [CollabCmd.debugHalt, .endTimeslice],
      (c = .debugHalt ∨ c = .endTimeslice) ∧
      (let s := { running with hookRuns := [[c]] }
       s.inExecute = true ∧ s.hung = false ∧ s.haltReq = false ∧ s.irqPending = false ∧ s.params.loopTest = .after ∧
       s.hookRuns = [c] :: [] ∧ s.busEvents = []) ∧
      (let s := { running with busEvents := [⟨none, false, [c]⟩] }
       s.hookRuns = [] ∧ s.busEvents = ⟨none, false, [c]⟩ :: [])) := by decide
theorem witness_OnlyAHandlerStopsTheProcessor :
    let s := { handling (once (.setStopped true)) with mem := memOf [(0x2000, 0x4E714E71)] }
    s.stopped = false ∧ ∃ t, step s = .next t ∧ t.stopped = true := ⟨rfl, _, rfl, by decide⟩
theorem witness_OnlyRequestOrResetLeavesStopped :
    let s := { irqFix with stopped := true, cmds := [⟨2, [6]⟩] }
    s.inExecute = false ∧ s.stopped = true ∧ ∃ t, step s = .next t ∧ t.stopped = false := ⟨rfl, rfl, _, rfl, by decide⟩
theorem witness_PrivilegeBitDecidesNothing :
    let p := HandlerProg.read .long (.a 7) (.act (.setD 0 (.temp 0)) (once (.raiseException 40)))
    let s := handling p
    s.DefaultBus ∧ Instr.external 0x4E71 ≠ .get .sr ∧ s.table.lookup 0x4E71 = .external 0 ∧
    listedHandler s.params.handlers 0 = some p ∧ handlerReadsSR p = false ∧
    ∃ t, exec (.external 0x4E71) s = .next t :=
  ⟨rfl, nofun, by decide, by decide, rfl, _, rfl⟩
theorem witness_MemoryReadsBackWhatWasWritten :
    memV.wf = true ∧ ∀ k < sizeBytes .long, ((0xFFFFFFFE : Word) + BitVec.ofNat 32 k).toNat ≠ 2 := by decide

end Sys2Proof.Tests
end

section
/-! SUPPORT. The scope statements (00_scope.md): HOST's commands in and out of a quantum, what an
instruction word answers, and the commands of a COLLABORATOR. -/

namespace Sys2Proof.Machine

/-! ## Whose turn a step is -/

theorem step_outside {s : State} (h : s.inExecute = false) : step s = hostStep s := by
  simp [step, h]

theorem step_inside {s : State} (he : s.inExecute = true) (hh : s.hung = false) :
    step s = coreStep s := by
  simp [step, he, hh]

theorem step_hung {s : State} (he : s.inExecute = true) (hh : s.hung = true) : step s = .next s := by
  simp [step, he, hh]

theorem hostStep_idle {s : State} (h : s.cmds = []) : hostStep s = .next s := by
  simp [hostStep, h]

theorem hostStep_command {s : State} {c : CmdPacket} {rest : List CmdPacket} {i : Instr}
    (hc : s.cmds = c :: rest) (hd : decodeCommand c = .ok i) :
    hostStep s = exec i { s with cmds := rest } := by
  simp [hostStep, hc, hd]

/-- Settles O7: outside a quantum a step is a HOST step, idle or the command at the head. -/
theorem stepRunsTheNextCommand : Obligations.StepRunsTheNextCommand := by
  intro s h
  rw [step_outside h]
  exact ⟨hostStep_idle, fun _ _ _ => hostStep_command⟩

/-- Settles O8: a hung step changes nothing, and an iteration keeps the queue (`coreStep_keeps`). -/
theorem hostCommandsWaitDuringExecute : Obligations.HostCommandsWaitDuringExecute := by
  intro s t he hstep
  cases hh : s.hung with
  | true =>
    rw [step_hung he hh] at hstep
    cases hstep
    rfl
  | false =>
    rw [step_inside he hh] at hstep
    exact (coreStep_keeps hstep).cmds

/-! ## An instruction word answers a next state -/

/-- Each of the four kinds of a fetched word goes on (R13, R118, R120, R180). -/
theorem isWord_goes {i : Instr} (hw : IsWord i) (s : State) : Goes i s := by
  rcases hw with ⟨p, rfl⟩ | ⟨p, rfl⟩ | ⟨op, rfl⟩ | ⟨op, rfl⟩
  · exact ⟨illegalOpcode Config.vecLineF s, rfl⟩
  · exact ⟨illegalOpcode Config.vecLineA s, rfl⟩
  · exact ⟨illegalOpcode Config.vecIllegal s, rfl⟩
  · cases hl : s.table.lookup op with
    | illegal => exact ⟨illegalOpcode (illegalVector op) s, by simp [exec, execExternal, hl]⟩
    | external id => exact ⟨callHandler id op s, by simp [exec, execExternal, hl]⟩

/-- Settles O14: whatever a fetched word decodes to is one of the four kinds that go on. -/
theorem instructionWordsAlwaysGoOn : Obligations.InstructionWordsAlwaysGoOn :=
  fun s op => isWord_goes (decodeWord_isWord s.table op) s

/-! ## HOST's answer port is never read

A COLLABORATOR's `raiseIRQ` runs at a state whose answer port HOST's own command would have cleared
first. The two come out the same because no part of a request, a delivery or a turn reads the port. -/

/-- The operation carries HOST's answer port along and does not depend on it. -/
def ResultBlind (f : State → State) : Prop :=
  ∀ (s : State) (r : Option Result), f { s with result := r } = { f s with result := r }

theorem ResultBlind.comp {f g : State → State} (hg : ResultBlind g) (hf : ResultBlind f) :
    ResultBlind (fun s => g (f s)) := fun s r => by
  simp only [hf s r, hg (f s) r]

theorem latchIRQ_resultBlind (l : BitVec 3) : ResultBlind (latchIRQ l) := fun _ _ => rfl

theorem setReg_resultBlind (reg : RegId) (v : Word) : ResultBlind (setReg reg v) := fun _ _ => by
  cases reg <;> rfl

theorem regValue_result (reg : RegId) (s : State) (r : Option Result) :
    regValue reg { s with result := r } = regValue reg s := by
  cases reg <;> rfl

section
variable {raise : BitVec 3 → State → State} (hr : ∀ l, ResultBlind (raise l))
include hr

theorem collabStep_resultBlind (c : CollabCmd) : ResultBlind (collabStep raise c) := fun s r => by
  cases c
  case raiseIRQ l => exact hr l s r
  case set reg v => exact setReg_resultBlind reg v s r
  case get reg => simp only [collabStep, regValue_result]
  all_goals rfl

theorem collabTurn_resultBlind : ∀ cs : List CollabCmd, ResultBlind (collabTurn raise cs)
  | [] => fun _ _ => rfl
  | c :: cs => (collabTurn_resultBlind cs).comp (collabStep_resultBlind hr c)

theorem afterRead_resultBlind : ResultBlind (afterRead raise) := fun s r =>
  collabTurn_resultBlind hr (nextBusEvent s).cmds { s with busEvents := s.busEvents.tail } r

theorem busWrite_resultBlind (size : Size) (x v : Word) : ResultBlind (busWrite raise size x v) :=
  fun s r => collabTurn_resultBlind hr (nextBusEvent s).cmds
    { s with
      busEvents := s.busEvents.tail
      mem       := if (nextBusEvent s).lost then s.mem else s.store size x v } r

theorem push_resultBlind (size : Size) (v : Word) : ResultBlind (push raise size v) := fun s r =>
  busWrite_resultBlind hr size _ v (setA 7 (stackPointer s - BitVec.ofNat 32 (sizeBytes size)) s) r

theorem pushFrame_resultBlind (savedPC : Word) (savedSR : HalfWord) :
    ResultBlind (pushFrame raise savedPC savedSR) :=
  (push_resultBlind hr .word (savedSR.setWidth 32)).comp (push_resultBlind hr .long savedPC)

/-- The vector's target does not depend on the port, and the fetch carries the port along. -/
theorem fetchVector_result (fallback : Bool) (vector : Byte) (s : State) (r : Option Result) :
    fetchVector raise fallback vector { s with result := r } =
      { target := (fetchVector raise fallback vector s).target
        after  := { (fetchVector raise fallback vector s).after with result := r } } := by
  have first := afterRead_resultBlind hr s r
  have second := afterRead_resultBlind hr (afterRead raise s) r
  have answer (x : Word) : busAnswer .long x { s with result := r } = busAnswer .long x s := rfl
  simp only [fetchVector, first, second, answer]
  split <;> rfl

theorem enterVector_resultBlind (fallback : Bool) (vector : Byte) (savedSR : HalfWord) :
    ResultBlind (enterVector raise fallback vector savedSR) := fun s r => by
  have frame := pushFrame_resultBlind hr (fetchVector raise fallback vector s).after.pc savedSR
    (fetchVector raise fallback vector s).after r
  simp only [enterVector, fetchVector_result hr fallback vector s r, frame]

end

theorem afterAck_resultBlind (level : BitVec 3) : ResultBlind (afterAck level) := fun s r =>
  collabTurn_resultBlind latchIRQ_resultBlind (nextAckRun level s).cmds
    { s with
      ackRuns := s.ackRuns.tail
      draws   := if s.ackRuns = [] then s.draws + 1 else s.draws } r

theorem enterInterrupt_resultBlind (level : BitVec 3) (vector : Byte) :
    ResultBlind (enterInterrupt level vector) := fun s r => by
  have entry := enterVector_resultBlind latchIRQ_resultBlind true vector (packSR s)
    { s with supervisor := true, mask := level } r
  exact congrArg
    (fun u : State => { u with interruptCycles := u.interruptCycles + s.params.irqServiceCycles }) entry

theorem deliver_resultBlind (level : BitVec 3) : ResultBlind (deliver level) := fun s r => by
  have ack := afterAck_resultBlind level { s with stopped := false } r
  have answer : nextAckRun level { s with stopped := false, result := r } =
      nextAckRun level { s with stopped := false } := rfl
  simp only [deliver, answer, ack]
  split
  · rfl
  · exact enterInterrupt_resultBlind level _ _ r

theorem resolveIRQ_resultBlind (level : BitVec 3) : ResultBlind (resolveIRQ level) := fun s r => by
  simp only [resolveIRQ]
  split
  · exact deliver_resultBlind 7 { s with intLevel := level } r
  · split
    · exact deliver_resultBlind level { s with intLevel := level } r
    · rfl

theorem requestIRQ_resultBlind (level : BitVec 3) : ResultBlind (requestIRQ level) := fun s r => by
  simp only [requestIRQ]
  split
  · exact resolveIRQ_resultBlind level s r
  · rfl

/-! ## A COLLABORATOR's command against HOST's -/

/-- The state a COLLABORATOR's command leaves, from the one HOST's leaves: HOST's port as it was, and an
answer, if any, in the collaborator's port (log entries 15, 16). -/
def answeredToCollab (s t : State) : State :=
  { t with
    result       := s.result
    collabResult := if t.result.isSome then t.result else t.collabResult }

/-- R187 has one meaning for HOST and COLLABORATOR: a request never answers, and it neither reads nor
writes the port HOST's command clears. -/
theorem requestIRQ_answeredToCollab (level : BitVec 3) (s : State) :
    requestIRQ level s = answeredToCollab s (requestIRQ level (replyNone s)) := by
  have silent : (requestIRQ level (replyNone s)).result = none :=
    (requestIRQ_confined level (replyNone s)).result
  have restored := requestIRQ_resultBlind level (replyNone s) s.result
  simp only [answeredToCollab, silent, Option.isSome_none]
  exact restored

/-- HOST's `raiseIRQ` at one of the eight levels is not refused (R100, R187). -/
theorem exec_raiseIRQ_level {s : State} (h : s.tableBuilt = true) (level : BitVec 3) :
    exec (.raiseIRQ level.toNat) s = .next (requestIRQ level (replyNone s)) := by
  have inRange : ¬ ((level.toNat : Int) < 0 ∨ 7 < (level.toNat : Int)) := by
    have := level.isLt
    omega
  have read : BitVec.ofInt 3 (level.toNat : Int) = level := by simp
  simp only [exec, execRaiseIRQ, if_neg inRange, read, afterFirstReset, h, if_true]

/-- R5: each of the eleven commands of a COLLABORATOR does to the engine what HOST's does. -/
theorem collabStep_eq_exec {s : State} (h : s.tableBuilt = true) (c : CollabCmd) :
    ∃ t, exec (collabInstr c) s = .next t ∧ collabStep requestIRQ c s = answeredToCollab s t := by
  have built (k : State → State) : afterFirstReset s k = .next (k s) := by simp [afterFirstReset, h]
  cases c
  case raiseIRQ level => exact ⟨_, exec_raiseIRQ_level h level, requestIRQ_answeredToCollab level s⟩
  case set reg v =>
    exact ⟨_, built fun s => replyNone (setReg reg v s), by cases reg <;> rfl⟩
  case modifyTimeslice n => exact ⟨_, built fun s => replyNone (modifySlice n s), rfl⟩
  case endTimeslice => exact ⟨_, built fun s => replyNone (endSlice s), rfl⟩
  case debugHalt => exact ⟨_, rfl, rfl⟩
  case debugResume => exact ⟨_, rfl, rfl⟩
  case getClockMultiplier => exact ⟨_, rfl, rfl⟩
  all_goals exact ⟨_, built _, rfl⟩

/-! ## When the commands of a turn are issued -/

/-- A turn is its commands one after the other. -/
theorem collabTurn_eq_foldl (raise : BitVec 3 → State → State) : ∀ (cs : List CollabCmd) (s : State),
    collabTurn raise cs s = cs.foldl (fun u c => collabStep raise c u) s
  | [], _ => rfl
  | _ :: cs, _ => collabTurn_eq_foldl raise cs _

theorem runHook_listed {s : State} {turn : List CollabCmd} {rest : List (List CollabCmd)}
    (h : s.hookRuns = turn :: rest) :
    runHook s = collabTurn requestIRQ turn { s with hookRuns := rest } := by
  simp [runHook, h]

section
variable {s : State} {raise : BitVec 3 → State → State} {e : BusEvent} {rest : List BusEvent}

theorem nextBusEvent_listed (h : s.busEvents = e :: rest) : nextBusEvent s = e := by
  simp [nextBusEvent, h]

theorem afterRead_listed (h : s.busEvents = e :: rest) :
    afterRead raise s = collabTurn raise e.cmds { s with busEvents := rest } := by
  simp [afterRead, nextBusEvent_listed h, h]

theorem busWrite_listed (h : s.busEvents = e :: rest) (size : Size) (x v : Word) :
    busWrite raise size x v s = collabTurn raise e.cmds
      { s with busEvents := rest, mem := if e.lost then s.mem else s.store size x v } := by
  simp [busWrite, nextBusEvent_listed h, h]

end

/-! ## A halt or an end of the timeslice with an instruction in flight (R245) -/

/-- An iteration with no request before it: the hook, the fetch, the dispatch, the loop test. -/
theorem step_fetches {s : State} (he : s.inExecute = true) (hh : s.hung = false)
    (hhalt : s.haltReq = false) (hp : s.irqPending = false) (hl : s.params.loopTest = .after) :
    step s = dispatchAt (runHook s) := by
  have hb : endsBefore s = false := by simp [endsBefore, hl]
  simp [step_inside he hh, coreStep, hb, hhalt, boundary, takePending, hp]

/-- What `debugHalt` and `endTimeslice` write, issued by a COLLABORATOR (R144, R149). -/
def haltOrEnd (c : CollabCmd) (s : State) : State :=
  if c = .debugHalt then { s with haltReq := true } else { s with remaining := 0 }

@[simp] theorem haltOrEnd_busEvents (c : CollabCmd) (s : State) :
    (haltOrEnd c s).busEvents = s.busEvents := by
  unfold haltOrEnd
  split <;> rfl

@[simp] theorem haltOrEnd_table (c : CollabCmd) (s : State) : (haltOrEnd c s).table = s.table := by
  unfold haltOrEnd
  split <;> rfl

@[simp] theorem fetchWord_haltOrEnd (c : CollabCmd) (s : State) :
    fetchWord (haltOrEnd c s) = fetchWord s := by
  unfold haltOrEnd
  split <;> rfl

section
variable {c : CollabCmd} (hc : c = .debugHalt ∨ c = .endTimeslice)
include hc

theorem collabTurn_haltOrEnd (raise : BitVec 3 → State → State) (s : State) :
    collabTurn raise [c] s = haltOrEnd c s := by
  rcases hc with rfl | rfl <;> rfl

/-- Issued by the hook: the fetch and the dispatch follow at the state the command leaves. -/
theorem dispatchAt_hookHaltOrEnd {s : State} {rest : List (List CollabCmd)}
    (hh : s.hookRuns = [c] :: rest) (hb : s.busEvents = []) :
    dispatchAt (runHook s) = closeIteration
      (exec (decodeWord s.table (fetchWord s)) (haltOrEnd c { s with hookRuns := rest })) := by
  have hook : runHook s = haltOrEnd c { s with hookRuns := rest } :=
    (runHook_listed hh).trans (collabTurn_haltOrEnd hc _ _)
  have fetched : afterFetch (runHook s) = runHook s :=
    afterRead_default (by simpa [hook] using hb)
  unfold dispatchAt
  rw [fetched, hook, haltOrEnd_table, fetchWord_haltOrEnd]
  rfl

/-- Issued in the fetch: the word was read before it, and is dispatched at the state it leaves. -/
theorem dispatchAt_fetchHaltOrEnd {s : State} {e : BusEvent} {rest : List BusEvent}
    (hb : s.busEvents = e :: rest) (he : e.cmds = [c]) :
    dispatchAt s = closeIteration
      (exec (decodeWord s.table (fetchWord s)) (haltOrEnd c { s with busEvents := rest })) := by
  have fetched : afterFetch s = haltOrEnd c { s with busEvents := rest } :=
    (afterRead_listed hb).trans (he ▸ collabTurn_haltOrEnd hc _ _)
  unfold dispatchAt
  rw [fetched, haltOrEnd_table]

end

theorem runHook_absent {s : State} (h : s.hookRuns = []) : runHook s = s := by
  cases s
  simp_all [runHook, collabTurn]

/-- Settles O60: what a command does is HOST's (`collabStep_eq_exec`), a turn is its commands in order,
and R245's instruction in flight is dispatched after the command. -/
theorem collaboratorCommandsActAsHostsDo : Obligations.CollaboratorCommandsActAsHostsDo := by
  refine ⟨fun s c h => collabStep_eq_exec h c, fun s raise size x v l => ⟨?hook, ?bus, ?ack⟩,
    fun s c hc he hh hhalt hp hl => ⟨?inHook, ?inFetch⟩⟩
  case hook => exact fun _ _ h => (runHook_listed h).trans (collabTurn_eq_foldl _ _ _)
  case bus =>
    exact fun _ _ h => ⟨(afterRead_listed h).trans (collabTurn_eq_foldl _ _ _),
      (busWrite_listed h size x v).trans (collabTurn_eq_foldl _ _ _)⟩
  case ack => exact fun _ _ h => (afterAck_listed h).trans (collabTurn_eq_foldl _ _ _)
  case inHook =>
    intro rest hr hb
    exact (step_fetches he hh hhalt hp hl).trans (dispatchAt_hookHaltOrEnd hc hr hb)
  case inFetch =>
    intro rest hr hb
    rw [step_fetches he hh hhalt hp hl, runHook_absent hr]
    exact dispatchAt_fetchHaltOrEnd hc hb rfl

end Sys2Proof.Machine
end

section
/-! SUPPORT. What HOST's commands can do, one case for each kind of command, and the rules every step of
every machine keeps: the table, the parameters, the clock multiplier, the invariant. -/

namespace Sys2Proof.Machine

/-! ## What a decoded command was written as -/

/-- A 32-bit operand that decodes is carried as its own integer. -/
theorem toNat_of_decodeValue {v : Int} {w : Word} (h : decodeValue v = .ok w) : (w.toNat : Int) = v := by
  unfold decodeValue at h
  split at h
  · next hv =>
    cases h
    rw [BitVec.toNat_ofInt]
    omega
  · cases h

/-- A 16-bit operand that decodes is carried as its own integer. -/
theorem toNat_of_decodeOpcode {v : Int} {w : HalfWord} (h : decodeOpcode v = .ok w) :
    (w.toNat : Int) = v := by
  unfold decodeOpcode at h
  split at h
  · next hv =>
    cases h
    rw [BitVec.toNat_ofInt]
    omega
  · cases h

/-- What a mapped decoding answers, it answers from a decoded operand. -/
theorem map_eq_ok {α β : Type} {x : Except DecodeError α} {f : α → β} {b : β} (h : x.map f = .ok b) :
    ∃ a, x = .ok a ∧ f a = b := by
  cases x with
  | error e => cases h
  | ok a => exact ⟨a, rfl, by cases h; rfl⟩

/-- A transaction is its code and its operands. -/
theorem command_eq {c : CmdPacket} {n : Nat} {args : List Int} (hc : c.code.toNat = n)
    (ha : c.args = args) : Packet.command ⟨BitVec.ofNat 8 n, args⟩ = .command c := by
  rw [← hc, ← ha, BitVec.ofNat_toNat, BitVec.setWidth_eq]

/-- R99: a transaction that decodes is the one the instruction encodes to. -/
theorem encode_of_decodeCommand {c : CmdPacket} {i : Instr} (h : decodeCommand c = .ok i) :
    encode i = .command c := by
  unfold decodeCommand at h
  split at h
  case h_4 reg hc ha =>
    cases h
    rw [← command_eq hc ha]
    simp [encode, RegId.toInt_ofInt]
  case h_5 reg v hc ha =>
    obtain ⟨w, hw, rfl⟩ := map_eq_ok h
    rw [← command_eq hc ha, ← toNat_of_decodeValue hw]
    simp [encode, RegId.toInt_ofInt]
  case h_6 op hc ha =>
    obtain ⟨w, hw, rfl⟩ := map_eq_ok h
    rw [← command_eq hc ha, ← toNat_of_decodeOpcode hw]
    rfl
  case h_15 => split at h <;> cases h
  all_goals
    rename_i hc ha
    cases h
    exact command_eq hc ha

/-- No transaction of the command port decodes to an instruction word. -/
theorem not_isWord_of_decodeCommand {c : CmdPacket} {i : Instr} (h : decodeCommand c = .ok i) :
    ¬ IsWord i := by
  have e := encode_of_decodeCommand h
  rintro (⟨p, rfl⟩ | ⟨p, rfl⟩ | ⟨op, rfl⟩ | ⟨op, rfl⟩) <;> cases e

/-! ## HOST's commands, one case for each kind -/

/-- The table `pulseReset` leaves (R230, R233): the one it found built, or the one it builds. -/
abbrev TableAfterReset (s : State) (tab : Table) : Prop :=
  s.tableBuilt = true ∧ tab = s.table ∨
    s.tableBuilt = false ∧ buildTable s.params.desc s.params.decode = some tab

/-- What a command that completes did: `CommandEffect s i t` where `i` took `s` to `t`. The ten commands
of `other` keep `stopped` and, but for HOST's answer port, what `Confined` keeps. -/
inductive CommandEffect (s : State) : Instr → State → Prop
  | reset (tab : Table) (outside : s.inExecute = false)
      (found : TableAfterReset s tab) :
      CommandEffect s .pulseReset (resetSequence { s with table := tab, tableBuilt := true })
  | stoppedExecute (n : Int) (stopped : s.stopped = true) :
      CommandEffect s (.execute n) (stoppedReturn n s)
  | execute (n : Int) (built : s.tableBuilt = true) (awake : s.stopped = false) :
      CommandEffect s (.execute n) (beginQuantum n s)
  | multiplier (v : Int) (outside : s.inExecute = false) :
      CommandEffect s (.setClockMultiplier v) (replyNone { s with clockMult := max v 1 })
  | request (l : Int) :
      CommandEffect s (.raiseIRQ l) (requestIRQ (BitVec.ofInt 3 l) (replyNone s))
  | other {i : Instr} {t : State} (same : Confined { s with result := t.result } t)
      (stopped : t.stopped = s.stopped) : CommandEffect s i t

/-- A command that R236 refuses before the first `pulseReset` and that completes ran its body. -/
theorem afterFirstReset_next {s t : State} {k : State → State} (h : afterFirstReset s k = .next t) :
    t = k s := by
  unfold afterFirstReset at h
  split at h
  · cases h; rfl
  · cases h

/-- A built table stands where `pulseReset` would write it. -/
theorem withTable_self {s : State} (h : s.tableBuilt = true) :
    { s with table := s.table, tableBuilt := true } = s := by
  cases s; cases h; rfl

/-- HOST's answer port is no part of what the rest of a confined change depends on. -/
theorem Confined.answer {s t : State} (h : Confined s t) (r : Option Result) :
    Confined { s with result := r } { t with result := r } :=
  ⟨congrArg (fun k : Steady => { k with result := r }) h.same, h.mem_wf, h.cc, h.debt⟩

/-- `pulseReset` completes outside `execute`, and has built the table if none was built (R230, R233). -/
theorem execPulseReset_next {s t : State} (h : execPulseReset s = .next t) :
    s.inExecute = false ∧ ∃ tab, TableAfterReset s tab ∧
      t = resetSequence { s with table := tab, tableBuilt := true } := by
  unfold execPulseReset at h
  split at h
  · cases h
  next outside =>
    refine ⟨by simpa using outside, ?_⟩
    split at h
    next built =>
      cases h
      exact ⟨s.table, .inl ⟨built, rfl⟩, by rw [withTable_self built]⟩
    next fresh =>
      split at h
      · cases h
      next tab build =>
        cases h
        exact ⟨tab, .inr ⟨by simpa using fresh, build⟩, rfl⟩

/-- `execute` completes where none of R130's refusals holds: the stopped path, or a quantum begins. -/
theorem execExecute_next {s t : State} {n : Int} (h : execExecute n s = .next t) :
    s.tableBuilt = true ∧ s.inExecute = false ∧ 0 ≤ n ∧
      (s.stopped = true ∧ t = stoppedReturn n s ∨ s.stopped = false ∧ t = beginQuantum n s) := by
  unfold execExecute at h
  split at h
  · cases h
  next built =>
    split at h
    · cases h
    next outside =>
      split at h
      · cases h
      next budget =>
        refine ⟨by simpa using built, by simpa using outside, not_lt.mp budget, ?_⟩
        split at h
        next stopped => cases h; exact .inl ⟨stopped, rfl⟩
        next awake => cases h; exact .inr ⟨by simpa using awake, rfl⟩

section
variable {s : State} {n : Int}
variable (built : s.tableBuilt = true) (outside : s.inExecute = false) (budget : 0 ≤ n)
include built outside budget

/-- R130: the stopped path. -/
theorem exec_execute_stopped (stopped : s.stopped = true) :
    exec (.execute n) s = .next (stoppedReturn n s) := by
  simp [exec, execExecute, built, outside, not_lt.mpr budget, stopped]

/-- R131: a quantum begins. -/
theorem exec_execute_begins (awake : s.stopped = false) :
    exec (.execute n) s = .next (beginQuantum n s) := by
  simp [exec, execExecute, built, outside, not_lt.mpr budget, awake]

end

/-- The inversion of `exec` on HOST's commands. -/
theorem exec_command {i : Instr} (hw : ¬ IsWord i) {s t : State} (h : exec i s = .next t) :
    CommandEffect s i t := by
  cases i
  case lineF p => exact absurd (.inl ⟨p, rfl⟩) hw
  case lineA p => exact absurd (.inr (.inl ⟨p, rfl⟩)) hw
  case illegal op => exact absurd (.inr (.inr (.inl ⟨op, rfl⟩))) hw
  case external op => exact absurd (.inr (.inr (.inr ⟨op, rfl⟩))) hw
  case pulseReset =>
    obtain ⟨outside, tab, found, rfl⟩ := execPulseReset_next h
    exact .reset tab outside found
  case execute n =>
    obtain ⟨built, -, -, ⟨stopped, rfl⟩ | ⟨awake, rfl⟩⟩ := execExecute_next h
    · exact .stoppedExecute n stopped
    · exact .execute n built awake
  case raiseIRQ l =>
    simp only [exec, execRaiseIRQ] at h
    split at h
    · cases h
    · cases afterFirstReset_next h
      exact .request l
  case setClockMultiplier v =>
    simp only [exec, execSetClockMultiplier] at h
    split at h
    · cases h
    next outside =>
      cases h
      exact .multiplier v (by simpa using outside)
  case set reg v =>
    cases afterFirstReset_next (k := fun s => replyNone (setReg reg v s)) h
    exact .other ((setReg_confined reg v s).answer none) (by cases reg <;> rfl)
  case modifyTimeslice n =>
    cases afterFirstReset_next (k := fun s => replyNone (modifySlice n s)) h
    exact .other (.plain rfl rfl rfl rfl) rfl
  case endTimeslice =>
    cases afterFirstReset_next (k := fun s => replyNone (endSlice s)) h
    exact .other (.plain rfl rfl rfl rfl) rfl
  case getClockMultiplier => cases h; exact .other (.plain rfl rfl rfl rfl) rfl
  case debugHalt => cases h; exact .other (.plain rfl rfl rfl rfl) rfl
  case debugResume => cases h; exact .other (.plain rfl rfl rfl rfl) rfl
  all_goals
    cases afterFirstReset_next h
    exact .other (.plain rfl rfl rfl rfl) rfl

/-- The inversion of `step`: an iteration of the loop, nothing at all (a hung handler, no command), or a
command that HOST wrote and that completed. -/
theorem step_cases {s t : State} (h : step s = .next t) :
    (s.inExecute = true ∧ s.hung = false ∧ coreStep s = .next t) ∨ t = s ∨
    (s.inExecute = false ∧ ∃ rest i c, s.cmds = c :: rest ∧ encode i = .command c ∧
      CommandEffect { s with cmds := rest } i t) := by
  by_cases he : s.inExecute = true
  · by_cases hh : s.hung = true
    · rw [step_hung he hh] at h
      cases h
      exact .inr (.inl rfl)
    · have live : s.hung = false := by simpa using hh
      exact .inl ⟨he, live, step_inside he live ▸ h⟩
  · have outside : s.inExecute = false := by simpa using he
    rw [step_outside outside] at h
    obtain ⟨-, rfl⟩ | ⟨c, rest, i, hc, hd, hx⟩ := hostStep_cases h
    · exact .inr (.inl rfl)
    · exact .inr (.inr ⟨outside, rest, i, c, hc, encode_of_decodeCommand hd,
        exec_command (not_isWord_of_decodeCommand hd) hx⟩)

/-! ## What a command keeps -/

section
variable {s t : State} {i : Instr}

/-- After the reset of the registers, `pulseReset` reads memory and writes `A[7]` and the pc (R230). -/
theorem resetSequence_confined (s : State) : Confined (replyNone (resetState s)) (resetSequence s) := by
  have sp : Confined (resetState s) (loadStackPointer (resetState s)) :=
    (afterRead_confined requestIRQ_confined _).trans (setReg_confined (.a 7) _ _)
  have pc : Confined (loadStackPointer (resetState s))
      (loadProgramCounter (loadStackPointer (resetState s))) :=
    (afterRead_confined requestIRQ_confined _).trans (.plain rfl rfl rfl rfl)
  exact (sp.trans pc).answer none

/-- R9, R41: no command changes the parameters. -/
theorem CommandEffect.params (h : CommandEffect s i t) : t.params = s.params := by
  cases h with
  | reset tab => exact (resetSequence_confined { s with table := tab, tableBuilt := true }).params
  | stoppedExecute => rfl
  | execute => rfl
  | multiplier => rfl
  | request => exact (requestIRQ_confined _ _).params
  | other same => exact same.params

/-- R38, R233: no command changes a built table. -/
theorem CommandEffect.table (h : CommandEffect s i t) (built : s.tableBuilt = true) :
    t.table = s.table ∧ t.tableBuilt = true := by
  cases h with
  | reset tab _ found =>
    have c := resetSequence_confined { s with table := tab, tableBuilt := true }
    obtain ⟨-, rfl⟩ | ⟨fresh, -⟩ := found
    · exact ⟨c.table, c.tableBuilt⟩
    · rw [built] at fresh; cases fresh
  | stoppedExecute => exact ⟨rfl, built⟩
  | execute => exact ⟨rfl, built⟩
  | multiplier => exact ⟨rfl, built⟩
  | request l =>
    have c := requestIRQ_confined (BitVec.ofInt 3 l) (replyNone s)
    exact ⟨c.table, c.tableBuilt.trans built⟩
  | other same => exact ⟨same.table, same.tableBuilt.trans built⟩

/-- R46, R147: only `setClockMultiplier` writes the multiplier. -/
theorem CommandEffect.clockMult (h : CommandEffect s i t) (changed : t.clockMult ≠ s.clockMult) :
    ∃ v, i = .setClockMultiplier v ∧ t.clockMult = max v 1 := by
  cases h with
  | reset tab =>
    exact absurd (resetSequence_confined { s with table := tab, tableBuilt := true }).clockMult changed
  | stoppedExecute => exact absurd rfl changed
  | execute => exact absurd rfl changed
  | multiplier v => exact ⟨v, rfl, rfl⟩
  | request => exact absurd (requestIRQ_confined _ (replyNone s)).clockMult changed
  | other same => exact absurd same.clockMult changed

end

/-! ## The table, the parameters and the multiplier -/

/-- Settles O23: an iteration changes neither (`coreStep_keeps`), a command no parameter and no built
table. -/
theorem builtTableNeverChanges : Obligations.BuiltTableNeverChanges := by
  intro s t h
  obtain ⟨-, -, hc⟩ | rfl | ⟨-, rest, i, c, -, -, eff⟩ := step_cases h
  · have keeps := coreStep_keeps hc
    exact ⟨keeps.params, fun built => ⟨keeps.table, keeps.tableBuilt.trans built⟩⟩
  · exact ⟨rfl, fun built => ⟨rfl, built⟩⟩
  · exact ⟨eff.params, eff.table⟩

/-- Settles O37: an iteration keeps the multiplier, and of HOST's commands one writes it. -/
theorem onlyItsCommandChangesTheMultiplier : Obligations.OnlyItsCommandChangesTheMultiplier := by
  intro s t h changed
  obtain ⟨-, -, hc⟩ | rfl | ⟨outside, rest, i, c, cmds, wrote, eff⟩ := step_cases h
  · exact absurd (coreStep_keeps hc).clockMult changed
  · exact absurd rfl changed
  · obtain ⟨v, rfl, value⟩ := eff.clockMult changed
    cases wrote
    exact ⟨outside, v, rest, cmds, value⟩

/-! ## The invariant -/

section
variable {s t : State} {i : Instr}

/-- A confined change keeps the invariant. -/
theorem Confined.inv (h : Confined s t) (inv : s.Inv) : t.Inv where
  mem_wf := h.mem_wf inv.mem_wf
  clock_pos := h.clockMult ▸ inv.clock_pos
  debt_nonneg := h.debt inv.service inv.debt_nonneg
  service := h.params ▸ inv.service
  cc_field := h.cc inv.cc_field
  table_of := by rw [h.tableBuilt, h.params, h.table]; exact inv.table_of
  loop_built := by rw [h.inExecute, h.tableBuilt]; exact inv.loop_built
  hung_inside := by rw [h.hung, h.inExecute]; exact inv.hung_inside

/-- The invariant does not speak of HOST's queue and answer port. -/
theorem State.Inv.withPorts (inv : s.Inv) (cmds : List CmdPacket) (r : Option Result) :
    State.Inv { s with cmds := cmds, result := r } :=
  ⟨inv.mem_wf, inv.clock_pos, inv.debt_nonneg, inv.service, inv.cc_field, inv.table_of,
    inv.loop_built, inv.hung_inside⟩

/-- Outside a quantum no handler is hung. -/
theorem State.Inv.not_hung (inv : s.Inv) (outside : s.inExecute = false) : s.hung ≠ true :=
  fun hung => by simp [inv.hung_inside hung] at outside

/-- The registers' reset keeps the invariant, the table being the one DESC and DECODE build (R44). -/
theorem resetState_inv {tab : Table} (inv : s.Inv) (outside : s.inExecute = false)
    (build : buildTable s.params.desc s.params.decode = some tab) :
    State.Inv (replyNone (resetState { s with table := tab, tableBuilt := true })) where
  mem_wf := inv.mem_wf
  clock_pos := inv.clock_pos
  debt_nonneg := le_refl 0
  service := inv.service
  cc_field := ccField_ccField _ _
  table_of := fun _ => build
  loop_built := fun _ => rfl
  hung_inside := fun hung => absurd hung (inv.not_hung outside)

/-- A quantum starts, and returns at once where the processor is stopped, in a state that meets the
invariant (R130, R131). -/
theorem beginQuantum_inv (n : Int) (inv : s.Inv) (built : s.tableBuilt = true) :
    (beginQuantum n s).Inv where
  mem_wf := inv.mem_wf
  clock_pos := inv.clock_pos
  debt_nonneg := le_refl 0
  service := inv.service
  cc_field := inv.cc_field
  table_of := inv.table_of
  loop_built := fun _ => built
  hung_inside := fun _ => rfl

@[inherit_doc beginQuantum_inv]
theorem stoppedReturn_inv (n : Int) (inv : s.Inv) : (stoppedReturn n s).Inv where
  mem_wf := inv.mem_wf
  clock_pos := inv.clock_pos
  debt_nonneg := le_refl 0
  service := inv.service
  cc_field := inv.cc_field
  table_of := inv.table_of
  loop_built := inv.loop_built
  hung_inside := inv.hung_inside

/-- R147: the clamp is what keeps the multiplier positive. -/
theorem clampedMultiplier_inv (v : Int) (inv : s.Inv) :
    State.Inv (replyNone { s with clockMult := max v 1 }) where
  mem_wf := inv.mem_wf
  clock_pos := le_max_right v 1
  debt_nonneg := inv.debt_nonneg
  service := inv.service
  cc_field := inv.cc_field
  table_of := inv.table_of
  loop_built := inv.loop_built
  hung_inside := inv.hung_inside

theorem CommandEffect.inv (h : CommandEffect s i t) (inv : s.Inv) : t.Inv := by
  cases h with
  | reset tab outside found =>
    have build : buildTable s.params.desc s.params.decode = some tab := by
      obtain ⟨built, rfl⟩ | ⟨-, build⟩ := found
      · exact inv.table_of built
      · exact build
    exact (resetSequence_confined _).inv (resetState_inv inv outside build)
  | stoppedExecute n => exact stoppedReturn_inv n inv
  | execute n built => exact beginQuantum_inv n inv built
  | multiplier v => exact clampedMultiplier_inv v inv
  | request l => exact (requestIRQ_confined _ _).inv (inv.withPorts s.cmds none)
  | other same => exact same.inv (inv.withPorts s.cmds t.result)

/-- What an iteration keeps is enough for the invariant. -/
theorem IterationKeeps.inv (h : IterationKeeps s t) (inv : s.Inv) (inside : s.inExecute = true)
    (live : s.hung = false) : t.Inv where
  mem_wf := h.mem_wf inv.mem_wf
  clock_pos := h.clockMult ▸ inv.clock_pos
  debt_nonneg := h.debt inv.service inv.debt_nonneg
  service := h.params ▸ inv.service
  cc_field := h.cc inv.cc_field
  table_of := by rw [h.tableBuilt, h.params, h.table]; exact inv.table_of
  loop_built := fun e => h.tableBuilt ▸ inv.loop_built (h.inExecute e)
  hung_inside := h.hung inside live

end

/-- Settles O53: an iteration keeps the invariant (`coreStep_keeps`), and so does every command. -/
theorem stepKeepsTheInvariant : Obligations.StepKeepsTheInvariant := by
  intro s t inv h
  obtain ⟨inside, live, hc⟩ | rfl | ⟨-, rest, i, c, -, -, eff⟩ := step_cases h
  · exact (coreStep_keeps hc).inv inv inside live
  · exact inv
  · exact eff.inv (inv.withPorts rest s.result)

/-- What admission gives of the parameters' numbers (R33, R35). -/
theorem admitted_bounds {p : Params} (h : p.admitted = true) :
    1 ≤ p.clockMultPowerOn ∧ 0 ≤ p.irqServiceCycles := by
  simp only [Params.admitted, Bool.and_eq_true, decide_eq_true_eq] at h
  obtain ⟨⟨⟨-, clock⟩, service⟩, -⟩ := h
  exact ⟨clock, service⟩

theorem reset_inv : State.reset.Inv where
  mem_wf := rfl
  clock_pos := by decide
  debt_nonneg := by decide
  service := by decide
  cc_field := by decide
  table_of := fun _ => rfl
  loop_built := nofun
  hung_inside := nofun

theorem powerOn_inv {p : Params} (h : p.admitted = true) : (State.powerOn p).Inv where
  mem_wf := rfl
  clock_pos := (admitted_bounds h).1
  debt_nonneg := Int.natCast_nonneg _
  service := (admitted_bounds h).2
  cc_field := ccField_ccField _ _
  table_of := nofun
  loop_built := nofun
  hung_inside := nofun

/-- Settles O54: of what R45 leaves free the invariant bounds cc, cut to its bits, and the debt, a
natural number; admission bounds the rest. -/
theorem resetMeetsTheInvariant : Obligations.ResetMeetsTheInvariant :=
  ⟨reset_inv, fun _ => powerOn_inv⟩

end Sys2Proof.Machine
end

section
/-! SUPPORT. Who enters and who leaves the stopped state (10_state.md R30): no collaborator, exception or
interrupt stops a processor, a handler's run does only by its own action. -/

namespace Sys2Proof.Machine

/-! ## What cannot stop a processor -/

/-- A processor that was not stopped is not stopped. -/
def StaysAwake (s t : State) : Prop := s.stopped = false → t.stopped = false

section
variable {raise : BitVec 3 → State → State} {s t u : State}

theorem StaysAwake.of_eq (h : t.stopped = s.stopped) : StaysAwake s t := fun awake => h.trans awake

theorem StaysAwake.trans (h : StaysAwake s t) (k : StaysAwake t u) : StaysAwake s u :=
  fun awake => k (h awake)

theorem latchIRQ_staysAwake (l : BitVec 3) (s : State) : StaysAwake s (latchIRQ l s) := .of_eq rfl

/-- R187: where the processor is not stopped a request is latched, and a latch stops nothing. -/
theorem requestIRQ_staysAwake (l : BitVec 3) (s : State) : StaysAwake s (requestIRQ l s) := fun awake => by
  simp [requestIRQ, awake]

theorem setReg_stopped (reg : RegId) (v : Word) (s : State) : (setReg reg v s).stopped = s.stopped := by
  cases reg <;> rfl

section
variable (hr : ∀ l s, StaysAwake s (raise l s))
include hr

theorem collabStep_staysAwake (c : CollabCmd) (s : State) : StaysAwake s (collabStep raise c s) := by
  cases c
  case raiseIRQ l => exact hr l s
  case set reg v => exact .of_eq (setReg_stopped reg v s)
  all_goals exact .of_eq rfl

theorem collabTurn_staysAwake (cs : List CollabCmd) (s : State) : StaysAwake s (collabTurn raise cs s) :=
  collabTurn_rel (R := StaysAwake) (fun _ => .of_eq rfl) StaysAwake.trans (collabStep_staysAwake hr) cs s

theorem afterRead_staysAwake (s : State) : StaysAwake s (afterRead raise s) :=
  collabTurn_staysAwake hr _ { s with busEvents := s.busEvents.tail }

theorem busWrite_staysAwake (size : Size) (x v : Word) (s : State) :
    StaysAwake s (busWrite raise size x v s) :=
  collabTurn_staysAwake hr (nextBusEvent s).cmds
    { s with
      busEvents := s.busEvents.tail
      mem       := if (nextBusEvent s).lost then s.mem else s.store size x v }

theorem fetchVector_staysAwake (fallback : Bool) (vector : Byte) (s : State) :
    StaysAwake s (fetchVector raise fallback vector s).after := by
  unfold fetchVector
  split
  · exact (afterRead_staysAwake hr s).trans (afterRead_staysAwake hr _)
  · exact afterRead_staysAwake hr s

theorem push_staysAwake (size : Size) (v : Word) (s : State) : StaysAwake s (push raise size v s) :=
  busWrite_staysAwake hr size _ v (setA 7 (stackPointer s - BitVec.ofNat 32 (sizeBytes size)) s)

theorem pushFrame_staysAwake (savedPC : Word) (savedSR : HalfWord) (s : State) :
    StaysAwake s (pushFrame raise savedPC savedSR s) :=
  (push_staysAwake hr .long savedPC s).trans (push_staysAwake hr .word _ _)

theorem enterVector_staysAwake (fallback : Bool) (vector : Byte) (savedSR : HalfWord) (s : State) :
    StaysAwake s (enterVector raise fallback vector savedSR s) :=
  (fetchVector_staysAwake hr fallback vector s).trans (pushFrame_staysAwake hr _ savedSR _)

end

/-- R193 step 1: a delivery leaves the processor not stopped, whatever it was. -/
theorem deliver_stopped (level : BitVec 3) (s : State) : (deliver level s).stopped = false := by
  have ack : (afterAck level { s with stopped := false }).stopped = false :=
    collabTurn_staysAwake latchIRQ_staysAwake _ _ rfl
  simp only [deliver]
  split
  · exact ack
  · exact enterVector_staysAwake latchIRQ_staysAwake true _ _ _ ack

theorem resolveIRQ_staysAwake (level : BitVec 3) (s : State) : StaysAwake s (resolveIRQ level s) := by
  by_cases accepts : s.Accepts level
  · rw [resolveIRQ_accepted accepts]
    exact fun _ => deliver_stopped level _
  · rw [resolveIRQ_ignored accepts]
    exact .of_eq rfl

theorem takeException_staysAwake (vector : Byte) (s : State) : StaysAwake s (takeException vector s) :=
  enterVector_staysAwake requestIRQ_staysAwake _ vector (packSR s) { s with supervisor := true }

theorem illegalOpcode_staysAwake (vector : Byte) (s : State) : StaysAwake s (illegalOpcode vector s) :=
  takeException_staysAwake vector s

theorem takePending_staysAwake (s : State) : StaysAwake s (takePending s) := by
  unfold takePending
  split
  · exact resolveIRQ_staysAwake s.pendingLevel { s with irqPending := false }
  · exact .of_eq rfl

/-- Parts 2 to 4 of an iteration stop no processor (R134 to R136). -/
theorem afterFetch_boundary_staysAwake (s : State) : StaysAwake s (afterFetch (boundary s)) :=
  ((takePending_staysAwake s).trans
    (collabTurn_staysAwake requestIRQ_staysAwake _
      { takePending s with hookRuns := (takePending s).hookRuns.tail })).trans
    (afterRead_staysAwake requestIRQ_staysAwake _)

theorem resetSequence_stopped (s : State) : (resetSequence s).stopped = false := by
  have sp : (loadStackPointer (resetState s)).stopped = false :=
    afterRead_staysAwake requestIRQ_staysAwake (resetState s) rfl
  exact afterRead_staysAwake requestIRQ_staysAwake _ sp

end

/-! ## What does: a handler's own action -/

/-- The actions that set `stopped` (R119, R210). -/
def Stops (act : HandlerAction) : Prop := act = .stop ∨ act = .setStopped true

theorem handlerStep_staysAwake (op : HalfWord) (temps : List Word) {act : HandlerAction}
    (goes : ¬ Stops act) (s : State) : StaysAwake s (handlerStep op temps act s) := by
  cases act
  case setStopped b =>
    cases b
    · exact fun _ => rfl
    · exact absurd (.inr rfl) goes
  case stop => exact absurd (.inl rfl) goes
  case write => exact busWrite_staysAwake requestIRQ_staysAwake _ _ _ s
  case raiseException v => exact takeException_staysAwake v s
  all_goals exact .of_eq rfl

/-- A run that stops a processor carries out an action that sets `stopped`. -/
theorem runHandler_staysAwake (op : HalfWord) : ∀ (p : HandlerProg) (temps : List Word) (s : State),
    (∀ m ∈ handlerTrail op p temps s, ¬ Stops m.act) → StaysAwake s (runHandler op p temps s)
  | .returns _, _, _, _ => .of_eq rfl
  | .hangs, _, _, _ => .of_eq rfl
  | .act act rest, temps, s, h => by
    simp only [handlerTrail, List.forall_mem_cons] at h
    exact (handlerStep_staysAwake op temps h.1 s).trans (runHandler_staysAwake op rest temps _ h.2)
  | .read _ _ rest, _, s, h =>
    (afterRead_staysAwake requestIRQ_staysAwake s).trans (runHandler_staysAwake op rest _ _ h)
  | .choose c yes no, temps, s, h => by
    simp only [handlerTrail, runHandler] at h ⊢
    split at h
    next taken => rw [if_pos taken]; exact runHandler_staysAwake op yes temps s h
    next skipped => rw [if_neg skipped]; exact runHandler_staysAwake op no temps s h

/-- A word that stops a processor is external, and its handler's run sets `stopped`. -/
theorem exec_word_stops {s t : State} {op : HalfWord} (h : exec (decodeWord s.table op) s = .next t)
    (awake : s.stopped = false) (stopped : t.stopped = true) :
    ∃ id, s.table.lookup op = .external id ∧
      ∃ act ∈ handlerDone op (handlerProg id op s) (enterHandler id s), Stops act := by
  have illegal : ∀ v, t ≠ illegalOpcode v s := by
    rintro v rfl
    rw [illegalOpcode_staysAwake v s awake] at stopped
    cases stopped
  unfold decodeWord at h
  cases hl : s.table.lookup op with
  | illegal =>
    rw [hl] at h
    simp only at h
    split at h
    · cases h; exact absurd rfl (illegal _)
    · split at h <;> cases h <;> exact absurd rfl (illegal _)
  | external id =>
    rw [hl] at h
    simp only [exec, execExternal, hl] at h
    cases h
    refine ⟨id, rfl, ?_⟩
    by_contra none
    have quiet : ∀ m ∈ handlerTrail op (handlerProg id op s) [] (enterHandler id s), ¬ Stops m.act :=
      fun m hm sets => none ⟨m.act, List.mem_map_of_mem hm, sets⟩
    rw [callHandler, runHandler_staysAwake op _ _ _ quiet awake] at stopped
    cases stopped

/-! ## The stopped state over a step -/

theorem loopEnd_stopped (s : State) : (loopEnd s).stopped = s.stopped := by
  rcases loopEnd_cases s with e | ⟨-, e⟩ <;> rw [e]
  rfl

/-- The table the dispatch reads is the one the iteration began with. -/
theorem afterFetch_boundary_table (s : State) : (afterFetch (boundary s)).table = s.table :=
  ((boundary_confined s).trans (afterRead_confined requestIRQ_confined (boundary s))).table

/-- No command stops a processor. -/
theorem CommandEffect.staysAwake {s t : State} {i : Instr} (h : CommandEffect s i t) : StaysAwake s t := by
  cases h with
  | reset => exact fun _ => resetSequence_stopped _
  | stoppedExecute => exact .of_eq rfl
  | execute => exact .of_eq rfl
  | multiplier => exact .of_eq rfl
  | request => exact requestIRQ_staysAwake _ (replyNone s)
  | other _ stopped => exact .of_eq stopped

/-- Settles O55: no command stops a processor (`CommandEffect.staysAwake`), and of an iteration only the
dispatch can, by its handler (`exec_word_stops`). -/
theorem onlyAHandlerStopsTheProcessor : Obligations.OnlyAHandlerStopsTheProcessor := by
  intro s t h awake stopped
  have same : t.stopped ≠ s.stopped := by simp [awake, stopped]
  obtain ⟨inside, -, hc⟩ | rfl | ⟨-, rest, i, c, -, -, eff⟩ := step_cases h
  · refine ⟨inside, ?_⟩
    obtain ⟨-, rfl⟩ | ⟨-, -, rfl⟩ | ⟨-, -, u, hu, rfl⟩ := coreStep_cases hc
    · exact absurd rfl same
    · exact absurd rfl same
    · rw [loopEnd_stopped] at stopped
      obtain ⟨id, hl, act, hact, sets⟩ :=
        exec_word_stops hu (afterFetch_boundary_staysAwake s awake) stopped
      refine ⟨id, afterFetch_boundary_table s ▸ hl, ?_⟩
      rcases sets with rfl | rfl
      · exact .inl hact
      · exact .inr hact
  · exact absurd rfl same
  · rw [eff.staysAwake awake] at stopped
    cases stopped

/-- Settles O56: of the commands only `pulseReset` and `raiseIRQ` do not keep `stopped`. -/
theorem onlyRequestOrResetLeavesStopped : Obligations.OnlyRequestOrResetLeavesStopped := by
  intro s t outside h stopped awake
  have same : t.stopped ≠ s.stopped := by simp [awake, stopped]
  obtain ⟨inside, -⟩ | rfl | ⟨-, rest, i, c, cmds, wrote, eff⟩ := step_cases h
  · rw [outside] at inside; cases inside
  · exact absurd rfl same
  · cases eff with
    | reset => cases wrote; exact .inr ⟨rest, cmds⟩
    | request l => cases wrote; exact .inl ⟨l, rest, cmds⟩
    | stoppedExecute => exact absurd rfl same
    | execute => exact absurd rfl same
    | multiplier => exact absurd rfl same
    | other _ kept => exact absurd kept same

end Sys2Proof.Machine
end

section
/-! SUPPORT. `pulseReset` under the default BUS in one record (70_reset_and_hazards.md R230), and the
commands that are refused (10_state.md R40, R45; 70_reset_and_hazards.md R236). -/

namespace Sys2Proof.Machine

/-! ## pulseReset under the default BUS -/

/-- R230 under the default BUS: the registers' reset, A[7] and the pc from addresses 0 and 4. -/
theorem resetSequence_default {s : State} (h : s.busEvents = []) :
    resetSequence s =
      { setA 7 (s.load .long 0) (resetState s) with pc := s.load .long 4, result := none } := by
  have sp : loadStackPointer (resetState s) = setA 7 (s.load .long 0) (resetState s) := by
    unfold loadStackPointer
    rw [busAnswer_default (s := resetState s) h, afterRead_default (s := resetState s) h]
    rfl
  have h' : (setA 7 (s.load .long 0) (resetState s)).busEvents = [] := h
  unfold resetSequence loadProgramCounter
  rw [sp, busAnswer_default h', afterRead_default h']
  rfl

/-- `pulseReset` where it is not refused and construction does not abort (R113, R230, R233). -/
theorem exec_pulseReset {s : State} {tab : Table} (outside : s.inExecute = false)
    (found : TableAfterReset s tab) :
    exec .pulseReset s = .next (resetSequence { s with table := tab, tableBuilt := true }) := by
  obtain ⟨built, rfl⟩ | ⟨fresh, build⟩ := found
  · rw [withTable_self built]
    simp [exec, execPulseReset, outside, built]
  · simp [exec, execPulseReset, outside, fresh, build]

/-- Settles O20, on the record `pulseReset` leaves under the default BUS. -/
theorem resetLeavesTheStatedValues : Obligations.ResetLeavesTheStatedValues := by
  intro s tab outside quiet found
  refine ⟨_, exec_pulseReset outside found, ?_⟩
  rw [resetSequence_default (s := { s with table := tab, tableBuilt := true }) quiet]
  exact ⟨rfl, rfl, rfl, rfl, rfl, rfl, rfl, rfl, rfl, get_set_same _ 7 _, rfl, rfl, rfl, rfl, outside,
    rfl, rfl, rfl, fun _ => rfl, rfl, rfl⟩

/-- Settles O25: the first `pulseReset` builds the empty table and reads 0 at addresses 0 and 4. -/
theorem resetStateIsAfterTheFirstReset : Obligations.ResetStateIsAfterTheFirstReset := by
  refine ⟨⟨_, exec_pulseReset (tab := .allIllegal) rfl (.inr ⟨rfl, rfl⟩), ?_⟩, ?parameters⟩
  case parameters => exact ⟨rfl, rfl, rfl, rfl, rfl, rfl, rfl, rfl, rfl, rfl, rfl, rfl, rfl, rfl⟩
  rw [resetSequence_default rfl]
  exact ⟨rfl, get_set_same _ 7 _⟩

/-! ## Refusals -/

/-- R236: the nine commands that need a table. -/
theorem afterFirstReset_refused {s : State} (h : s.tableBuilt = false) (k : State → State) :
    afterFirstReset s k = .refused .beforeFirstReset := by
  simp [afterFirstReset, h]

/-- R100: a level of three bits is none of those refused as out of range. -/
theorem level_in_range (l : BitVec 3) : ¬ ((l.toNat : Int) < 0 ∨ 7 < (l.toNat : Int)) := by
  have := l.isLt
  omega

/-- Settles O26: the nine refused ones test the table first. -/
theorem commandsBeforeTheFirstReset : Obligations.CommandsBeforeTheFirstReset := by
  intro s fresh
  have refused := afterFirstReset_refused fresh
  refine ⟨fun n => by simp [exec, execExecute, fresh], fun l => ?raise, fun _ => refused _,
    fun r v => refused fun s => replyNone (setReg r v s), fun _ => refused _, refused _, refused _,
    fun n => refused fun s => replyNone (modifySlice n s), refused fun s => replyNone (endSlice s),
    ⟨_, rfl⟩, ⟨_, rfl⟩, ⟨_, rfl⟩, fun outside n => ?clock⟩
  case raise =>
    simp only [exec, execRaiseIRQ, if_neg (level_in_range l)]
    exact refused _
  case clock => exact ⟨_, by simp only [exec, execSetClockMultiplier, outside]; rfl⟩

/-- R99: a code above 13 decodes to no command, whatever its operands. -/
theorem decodeCommand_unassigned {code : Byte} {args : List Int} (h : 14 ≤ code.toNat) :
    decodeCommand ⟨code, args⟩ = .error .commandUnassigned := by
  unfold decodeCommand
  split
  case h_15 => exact if_neg (Nat.not_lt.mpr h)
  all_goals
    rename_i hc _
    exact absurd (hc ▸ h) (by decide)

/-- Settles O27: the refusals by their tests, an unassigned code by the decoder. -/
theorem forbiddenCommandsAreRefused : Obligations.ForbiddenCommandsAreRefused := by
  intro s built
  refine ⟨fun inside => ⟨fun n => ?execute, ?reset, fun n => ?clock⟩, fun outside n hn => ?negative,
    fun l hl => ?level, fun outside code args rest hcode hcmds => ?unassigned⟩
  case execute => simp [exec, execExecute, built, inside]
  case reset => simp [exec, execPulseReset, inside]
  case clock => simp [exec, execSetClockMultiplier, inside]
  case negative => simp [exec, execExecute, built, outside, hn]
  case level => exact if_pos hl
  case unassigned =>
    rw [step_outside outside]
    simp only [hostStep, hcmds, decodeCommand_unassigned hcode]

end Sys2Proof.Machine
end

section
/-! SUPPORT. EXTERNAL (40_dispatch_table.md R115, R116): the handler a slot runs, and what a handler can
tell apart. It sees four fields through the packed status word alone, so their bits are read back from
it here (42_register_access.md R161). -/

namespace Sys2Proof.Machine

/-! ## The bits of a packed status word -/

/-- The fields of a layout stand inside the word, and no two of them share a bit (R161). -/
structure FieldsApart (l : SrLayout) : Prop where
  trace_inside : l.traceBit < 16
  supervisor_inside : l.supervisorBit < 16
  mask_inside : ∀ i < 3, l.maskShift + i < 16
  cc_inside : ∀ i < l.ccBits, l.ccShift + i < 16
  trace_supervisor : l.traceBit ≠ l.supervisorBit
  trace_mask : ∀ i < 3, l.traceBit ≠ l.maskShift + i
  trace_cc : ∀ i < l.ccBits, l.traceBit ≠ l.ccShift + i
  supervisor_mask : ∀ i < 3, l.supervisorBit ≠ l.maskShift + i
  supervisor_cc : ∀ i < l.ccBits, l.supervisorBit ≠ l.ccShift + i
  mask_cc : ∀ i < 3, ∀ j < l.ccBits, l.maskShift + i ≠ l.ccShift + j

theorem fieldsApart_of_wf {l : SrLayout} (h : l.wf = true) : FieldsApart l := by
  simp only [SrLayout.wf, Bool.and_eq_true, decide_eq_true_eq] at h
  obtain ⟨apart, inside⟩ := h
  simp only [SrLayout.positions, List.cons_append, List.nodup_cons, List.nodup_append,
    List.mem_cons, List.mem_append, List.mem_map, List.mem_range, not_or, not_exists, not_and] at apart
  simp only [SrLayout.positions, List.cons_append, List.all_cons, List.all_append, List.all_map,
    Bool.and_eq_true, decide_eq_true_eq, List.all_eq_true, List.mem_range, Function.comp_apply] at inside
  obtain ⟨⟨ts, tm, tc⟩, ⟨sm, sc⟩, -, -, mc⟩ := apart
  obtain ⟨t, s, m, c⟩ := inside
  exact ⟨t, s, m, c, ts, fun i hi e => tm i hi e.symm, fun i hi e => tc i hi e.symm,
    fun i hi e => sm i hi e.symm, fun i hi e => sc i hi e.symm,
    fun i hi j hj => mc _ ⟨i, hi, rfl⟩ _ ⟨j, hj, rfl⟩⟩

/-- A bit of the condition-code field: the low CC_BITS bits are kept. -/
theorem getLsbD_ccField (l : SrLayout) (v : HalfWord) (j : Nat) :
    (l.ccField v).getLsbD j = (decide (j < l.ccBits) && v.getLsbD j) := by
  simp only [SrLayout.ccField, BitVec.getLsbD_and, BitVec.getLsbD_ofNat, Nat.testBit_two_pow_sub_one]
  by_cases hj : j < 16
  · simp [hj, Bool.and_comm]
  · simp [BitVec.getLsbD_of_ge v j (by omega)]

/-- A bit of a field of any width placed in the status word. -/
theorem getLsbD_placed {n : Nat} (v : BitVec n) (place : Nat) {k : Nat} (hk : k < 16) :
    (v.setWidth 16 <<< place).getLsbD k = (decide (place ≤ k) && v.getLsbD (k - place)) := by
  have above : (!decide (k < place)) = decide (place ≤ k) := by simp [← decide_not]
  simp [hk, above]

/-- A flag placed in the status word is one bit of it. -/
theorem getLsbD_placedFlag (b : Bool) (place : Nat) {k : Nat} (hk : k < 16) :
    ((BitVec.ofBool b).setWidth 16 <<< place).getLsbD k = (decide (k = place) && b) := by
  rw [getLsbD_placed _ _ hk]
  by_cases here : k = place
  · simp [here]
  · by_cases above : place ≤ k
    · have far : ¬ k - place = 0 := by omega
      simp [here, far]
    · simp [here, above]

/-- A bit of the packed status word: of one of the four fields. -/
theorem getLsbD_packSR (s : State) {k : Nat} (hk : k < 16) :
    (packSR s).getLsbD k =
      (decide (k = s.params.srLayout.traceBit) && s.trace ||
        decide (k = s.params.srLayout.supervisorBit) && s.supervisor ||
        decide (s.params.srLayout.maskShift ≤ k) && s.mask.getLsbD (k - s.params.srLayout.maskShift) ||
        decide (s.params.srLayout.ccShift ≤ k) &&
          (s.params.srLayout.ccField s.cc).getLsbD (k - s.params.srLayout.ccShift)) := by
  have cc := getLsbD_placed (s.params.srLayout.ccField s.cc) s.params.srLayout.ccShift hk
  rw [BitVec.setWidth_eq] at cc
  simp only [packSR, BitVec.getLsbD_or, getLsbD_placedFlag _ _ hk, getLsbD_placed s.mask _ hk, cc]

/-- A field has no bit outside its own places. -/
theorem placed_clear {n : Nat} {v : BitVec n} {width place k : Nat}
    (narrow : ∀ i, width ≤ i → v.getLsbD i = false) (apart : ∀ i < width, k ≠ place + i) :
    (decide (place ≤ k) && v.getLsbD (k - place)) = false := by
  by_cases above : place ≤ k
  · have far : width ≤ k - place := by
      by_contra near
      exact apart (k - place) (by omega) (by omega)
    simp [narrow _ far]
  · simp [above]

section
variable {s : State} {k : Nat}

/-- The mask has no bit outside its own places. -/
theorem placed_mask_clear (apart : ∀ i < 3, k ≠ s.params.srLayout.maskShift + i) :
    (decide (s.params.srLayout.maskShift ≤ k) &&
      s.mask.getLsbD (k - s.params.srLayout.maskShift)) = false :=
  placed_clear (fun i hi => BitVec.getLsbD_of_ge s.mask i hi) apart

/-- The condition codes have no bit outside their own places. -/
theorem placed_cc_clear (apart : ∀ i < s.params.srLayout.ccBits, k ≠ s.params.srLayout.ccShift + i) :
    (decide (s.params.srLayout.ccShift ≤ k) &&
      (s.params.srLayout.ccField s.cc).getLsbD (k - s.params.srLayout.ccShift)) = false :=
  placed_clear (fun i hi => by simp [getLsbD_ccField, hi]) apart

variable (f : FieldsApart s.params.srLayout)
include f

theorem packSR_traceBit : (packSR s).getLsbD s.params.srLayout.traceBit = s.trace := by
  rw [getLsbD_packSR s f.trace_inside, placed_mask_clear f.trace_mask, placed_cc_clear f.trace_cc]
  simp [f.trace_supervisor]

theorem packSR_supervisorBit : (packSR s).getLsbD s.params.srLayout.supervisorBit = s.supervisor := by
  rw [getLsbD_packSR s f.supervisor_inside, placed_mask_clear f.supervisor_mask,
    placed_cc_clear f.supervisor_cc]
  simp [f.trace_supervisor.symm]

theorem packSR_maskBit {i : Nat} (hi : i < 3) :
    (packSR s).getLsbD (s.params.srLayout.maskShift + i) = s.mask.getLsbD i := by
  rw [getLsbD_packSR s (f.mask_inside i hi), placed_cc_clear (f.mask_cc i hi)]
  simp [(f.trace_mask i hi).symm, (f.supervisor_mask i hi).symm]

theorem packSR_ccBit {i : Nat} (hi : i < s.params.srLayout.ccBits) :
    (packSR s).getLsbD (s.params.srLayout.ccShift + i) = s.cc.getLsbD i := by
  rw [getLsbD_packSR s (f.cc_inside i hi),
    placed_mask_clear fun j hj => (f.mask_cc j hj i hi).symm]
  simp [(f.trace_cc i hi).symm, (f.supervisor_cc i hi).symm, getLsbD_ccField, hi]

end

/-- The status word shows its four fields: where the layout's fields stand apart and cc is within its
bits, equal words come from equal fields. -/
theorem sameStatus_of_packSR {s t : State} (wf : s.params.srLayout.wf = true)
    (layout : t.params.srLayout = s.params.srLayout)
    (hs : s.params.srLayout.ccField s.cc = s.cc) (ht : s.params.srLayout.ccField t.cc = t.cc)
    (word : packSR t = packSR s) : SameStatus s t := by
  have fs := fieldsApart_of_wf wf
  have ft : FieldsApart t.params.srLayout := layout ▸ fs
  refine ⟨?cc, ?mask, ?supervisor, ?trace⟩
  case cc =>
    refine BitVec.eq_of_getLsbD_eq fun i _ => ?_
    by_cases hi : i < s.params.srLayout.ccBits
    · rw [← packSR_ccBit fs hi, ← packSR_ccBit ft (layout ▸ hi), word, layout]
    · rw [← hs, ← ht, getLsbD_ccField, getLsbD_ccField]
      simp [hi]
  case mask =>
    refine BitVec.eq_of_getLsbD_eq fun i hi => ?_
    rw [← packSR_maskBit fs hi, ← packSR_maskBit ft hi, word, layout]
  case supervisor => rw [← packSR_supervisorBit fs, ← packSR_supervisorBit ft, word, layout]
  case trace => rw [← packSR_traceBit fs, ← packSR_traceBit ft, word, layout]

/-! ## What a handler's expressions tell apart -/

theorem truthWord_injective {b c : Bool} (h : truthWord b = truthWord c) : b = c := by
  revert h
  cases b <;> cases c <;> decide

/-- Two integers below the same bounds are equal. -/
theorem eq_of_below {m n : Int} (h : ∀ bound : Int, decide (m < bound) = decide (n < bound)) : m = n := by
  have hm := h (m + 1)
  have hn := h (n + 1)
  simp only [decide_eq_decide] at hm hn
  omega

/-- R116: two machines of one layout that no expression tells apart agree in the whole Register File. -/
theorem sameRegisterFile_of_exprValue {s t : State} {op : HalfWord} {temps : List Word}
    (h : ∀ e, exprValue op temps t e = exprValue op temps s e) (params : t.params = s.params)
    (wf : s.params.srLayout.wf = true) (hs : s.params.srLayout.ccField s.cc = s.cc)
    (ht : s.params.srLayout.ccField t.cc = t.cc) : SameRegisterFile s t := by
  have word : packSR t = packSR s := by
    have := congrArg (BitVec.setWidth 16) (h .sr)
    simpa [exprValue] using this
  have counter (c : Counter) : counterValue t c = counterValue s c :=
    eq_of_below fun bound => truthWord_injective (h (.counterBelow c bound))
  have level : t.intLevel = s.intLevel := by
    have := congrArg (BitVec.setWidth 3) (h .intLevel)
    simpa [exprValue] using this
  refine ⟨⟨?d, ?a⟩, h .pc, sameStatus_of_packSR wf (params ▸ rfl) hs ht word,
    truthWord_injective (h .stopped), truthWord_injective (h .haltReq), counter .remaining,
    counter .interruptCycles, level⟩
  case d => exact Vector.ext fun i hi => h (.d ⟨i, hi⟩)
  case a => exact Vector.ext fun i hi => h (.a ⟨i, hi⟩)

/-- A free handler's view holds the whole Register File, and memory. -/
theorem sameRegisterFile_of_handlerView {s t : State} (h : handlerView t = handlerView s) :
    SameRegisterFile s t ∧ t.mem = s.mem := by
  simp only [handlerView, HandlerView.mk.injEq] at h
  obtain ⟨d, a, pc, cc, mask, supervisor, trace, stopped, haltReq, remaining, debt, level, mem⟩ := h
  exact ⟨⟨⟨d, a⟩, pc, ⟨cc, mask, supervisor, trace⟩, stopped, haltReq, remaining, debt, level⟩, mem⟩

/-! ## The handler a slot runs -/

section
variable {s : State} {op : HalfWord} {id : Nat}

/-- R115: an external slot calls its handler. -/
theorem exec_external (slot : s.table.lookup op = .external id) :
    exec (.external op) s = .next (callHandler id op s) := by
  simp only [exec, execExternal, slot]

theorem callHandler_listed {p : HandlerProg} (listed : listedHandler s.params.handlers id = some p) :
    callHandler id op s = runHandler op p [] s := by
  have enter : enterHandler id s = s := by simp [enterHandler, listed]
  simp [callHandler, handlerProg, enter, listed]

theorem callHandler_free (free : listedHandler s.params.handlers id = none) :
    callHandler id op s =
      runHandler op (Config.freeHandler id op (handlerView s) s.draws) []
        { s with draws := s.draws + 1 } := by
  have enter : enterHandler id s = { s with draws := s.draws + 1 } := by simp [enterHandler, free]
  simp [callHandler, handlerProg, enter, free]

end

theorem runHandler_choose (op : HalfWord) (c : HandlerExpr) (yes no : HandlerProg) (temps : List Word)
    (s : State) : runHandler op (.choose c yes no) temps s =
      runHandler op (if exprValue op temps s c = 0 then no else yes) temps s := by
  rw [runHandler]
  by_cases zero : exprValue op temps s c = 0
  · rw [if_pos zero, if_neg (not_not.mpr zero)]
  · rw [if_neg zero, if_pos zero]

/-- Settles O15: the call by `callHandler_listed` and `callHandler_free`, a run by its equations, the
read access by what expressions and views tell apart. -/
theorem externalRunsItsHandlerAndBills : Obligations.ExternalRunsItsHandlerAndBills := by
  refine ⟨fun s op id slot => ⟨fun p listed => ?given, fun free => ?free⟩,
    fun u op temps => ⟨fun _ => rfl, fun _ _ => rfl, fun _ _ _ => rfl,
      fun c yes no => runHandler_choose op c yes no temps u, fun inside => ⟨?hangs, rfl⟩⟩,
    fun s t op temps => ⟨?expressions, sameRegisterFile_of_handlerView⟩⟩
  case given => rw [exec_external slot, callHandler_listed listed]
  case free => rw [exec_external slot, callHandler_free free]
  case hangs => exact step_hung inside rfl
  case expressions => exact sameRegisterFile_of_exprValue

end Sys2Proof.Machine
end

section
/-! SUPPORT. The privilege bit (10_state.md R28, 60_exceptions.md R205): two runs that start apart in it
come out apart only in it, in memory, where an exception saved it, and in the COLLABORATOR's answer
port, where a callback may have read it. -/

namespace Sys2Proof.Machine

/-! ## States apart in the privilege bit and where it was saved or read -/

/-- The state with another privilege bit, another answer in the COLLABORATOR's port, another memory. -/
def veil (b : Bool) (c : Option Result) (m : Memory) (s : State) : State :=
  { s with supervisor := b, collabResult := c, mem := m }

/-- Two states apart in those three fields only. -/
def Veiled (s u : State) : Prop := ∃ b c m, u = veil b c m s

section
variable {s t : State} {b : Bool} {c : Option Result} {m : Memory}

/-! ## Exceptions and interrupts -/

/-- R183: the privilege bit is saved in the frame and decides nothing. -/
theorem takeException_veiled (quiet : s.busEvents = []) (vector : Byte) :
    Veiled (takeException vector s) (takeException vector (veil b c s.mem s)) := by
  unfold takeException
  rw [enterVector_default (s := { s with supervisor := true }) quiet,
    enterVector_default (s := { veil b c s.mem s with supervisor := true }) quiet]
  exact ⟨true, c, _, rfl⟩

theorem illegalOpcode_veiled (quiet : s.busEvents = []) (vector : Byte) :
    Veiled (illegalOpcode vector s) (illegalOpcode vector (veil b c s.mem s)) := by
  rw [illegalOpcode_default quiet, illegalOpcode_default (s := veil b c s.mem s) quiet]
  exact ⟨true, c, _, rfl⟩

theorem enterInterrupt_veiled (quiet : s.busEvents = []) (level : BitVec 3) (vector : Byte) :
    Veiled (enterInterrupt level vector s) (enterInterrupt level vector (veil b c s.mem s)) := by
  unfold enterInterrupt
  rw [enterVector_default (s := { s with supervisor := true, mask := level }) quiet,
    enterVector_default (s := { veil b c s.mem s with supervisor := true, mask := level }) quiet]
  exact ⟨true, c, _, rfl⟩

/-- A command inside the callback carries the veil along: `set` of SR lifts it, `get` of SR shows it in
the COLLABORATOR's port. -/
theorem collabStep_veil (cmd : CollabCmd) (b : Bool) (c : Option Result) (m : Memory) (s : State) :
    ∃ b' c', collabStep latchIRQ cmd (veil b c m s) = veil b' c' m (collabStep latchIRQ cmd s) := by
  cases cmd
  case get reg => exact ⟨b, some (.value (regValue reg (veil b c m s))), rfl⟩
  case set reg v =>
    cases reg
    case sr => exact ⟨_, c, rfl⟩
    all_goals exact ⟨b, c, rfl⟩
  case cyclesRun => exact ⟨b, _, rfl⟩
  case cyclesRemaining => exact ⟨b, _, rfl⟩
  case isValidInstruction => exact ⟨b, _, rfl⟩
  case getClockMultiplier => exact ⟨b, _, rfl⟩
  all_goals exact ⟨b, c, rfl⟩

theorem collabTurn_veil (m : Memory) : ∀ (cs : List CollabCmd) (b : Bool) (c : Option Result) (s : State),
    ∃ b' c', collabTurn latchIRQ cs (veil b c m s) = veil b' c' m (collabTurn latchIRQ cs s)
  | [], b, c, _ => ⟨b, c, rfl⟩
  | cmd :: cs, b, c, s => by
    obtain ⟨b', c', one⟩ := collabStep_veil cmd b c m s
    simp only [collabTurn, one]
    exact collabTurn_veil m cs b' c' _

/-- R190: the callback is asked the same, and its turn carries the veil along. -/
theorem afterAck_veil (level : BitVec 3) (b : Bool) (c : Option Result) (s : State) :
    ∃ b' c', afterAck level (veil b c s.mem s) =
      veil b' c' (afterAck level s).mem (afterAck level s) := by
  obtain ⟨b', c', turn⟩ := collabTurn_veil s.mem (nextAckRun level s).cmds b c
    { s with ackRuns := s.ackRuns.tail, draws := if s.ackRuns = [] then s.draws + 1 else s.draws }
  have mem : (afterAck level s).mem = s.mem := (collabTurn_latched _ _).mem
  refine ⟨b', c', ?_⟩
  rw [mem]
  exact turn

/-- R192: a malformed acknowledge abandons the delivery after the callback. -/
theorem deliver_of_malformed {level : BitVec 3}
    (h : ackVector s.params level (nextAckRun level { s with stopped := false }).answer = none) :
    deliver level s = afterAck level { s with stopped := false } := by
  simp only [deliver, h]

/-- R193: with a vector selected the interrupt is entered at the state the callback left. -/
theorem deliver_of_vector {level : BitVec 3} {vector : Byte}
    (h : ackVector s.params level (nextAckRun level { s with stopped := false }).answer = some vector) :
    deliver level s = enterInterrupt level vector (afterAck level { s with stopped := false }) := by
  simp only [deliver, h]

theorem deliver_veiled (quiet : s.busEvents = []) (level : BitVec 3) :
    Veiled (deliver level s) (deliver level (veil b c s.mem s)) := by
  obtain ⟨b', c', ack⟩ := afterAck_veil level b c { s with stopped := false }
  have ack : afterAck level { veil b c s.mem s with stopped := false } = _ := ack
  have quiet : (afterAck level { s with stopped := false }).busEvents = [] :=
    (collabTurn_latched _ _).busEvents.trans quiet
  cases answer : ackVector s.params level (nextAckRun level { s with stopped := false }).answer with
  | none =>
    rw [deliver_of_malformed answer, deliver_of_malformed (s := veil b c s.mem s) answer, ack]
    exact ⟨b', c', _, rfl⟩
  | some vector =>
    rw [deliver_of_vector answer, deliver_of_vector (s := veil b c s.mem s) answer, ack]
    exact enterInterrupt_veiled quiet level vector

theorem requestIRQ_veiled (quiet : s.busEvents = []) (level : BitVec 3) :
    Veiled (requestIRQ level s) (requestIRQ level (veil b c s.mem s)) := by
  by_cases stopped : s.stopped = true
  · have resolves : requestIRQ level s = resolveIRQ level s := if_pos stopped
    have resolves' : requestIRQ level (veil b c s.mem s) = resolveIRQ level (veil b c s.mem s) :=
      if_pos stopped
    rw [resolves, resolves']
    by_cases accepts : s.Accepts level
    · rw [resolveIRQ_accepted accepts, resolveIRQ_accepted (s := veil b c s.mem s) accepts]
      exact deliver_veiled (s := { s with intLevel := level }) quiet level
    · rw [resolveIRQ_ignored accepts, resolveIRQ_ignored (s := veil b c s.mem s) accepts]
      exact ⟨b, c, _, rfl⟩
  · have latches : requestIRQ level s = latchIRQ level s := if_neg stopped
    have latches' : requestIRQ level (veil b c s.mem s) = latchIRQ level (veil b c s.mem s) :=
      if_neg stopped
    rw [latches, latches']
    exact ⟨b, c, _, rfl⟩

/-! ## Handlers that do not read the status register -/

/-- An expression that does not read SR reads nothing of what the veil covers. -/
theorem exprValue_veil (op : HalfWord) (temps : List Word) {e : HandlerExpr}
    (blind : exprReadsSR e = false) : exprValue op temps (veil b c m s) e = exprValue op temps s e := by
  induction e with
  | sr => cases blind
  | unary o e ih => simp only [exprValue, ih blind]
  | binary o e f ihe ihf =>
    simp only [exprReadsSR, Bool.or_eq_false_iff] at blind
    simp only [exprValue, ihe blind.1, ihf blind.2]
  | counterPart n k => cases n <;> rfl
  | counterBelow n bound => cases n <;> rfl
  | _ => rfl

/-- An action other than an exception, that does not read SR, carries the veil along, and memories that
were the same stay the same. -/
theorem handlerStep_veil (op : HalfWord) (temps : List Word) {act : HandlerAction}
    (blind : actionReadsSR act = false) (plain : ∀ v, act ≠ .raiseException v)
    (quiet : s.busEvents = []) :
    ∃ b' m', handlerStep op temps act (veil b c m s) = veil b' c m' (handlerStep op temps act s) ∧
      (m = s.mem → m' = (handlerStep op temps act s).mem) := by
  have value {e : HandlerExpr} (h : exprReadsSR e = false) := exprValue_veil (b := b) (c := c) (m := m)
    (s := s) op temps h
  cases act
  case raiseException v => exact absurd rfl (plain v)
  case write size x e =>
    simp only [actionReadsSR, Bool.or_eq_false_iff] at blind
    simp only [handlerStep, value blind.1, value blind.2, busWrite_default quiet,
      busWrite_default (s := veil b c m s) quiet]
    exact ⟨b, _, rfl, fun e => e ▸ rfl⟩
  case setStopped => exact ⟨b, m, rfl, id⟩
  case stop => exact ⟨b, m, rfl, id⟩
  all_goals
    simp only [handlerStep, value blind]
    exact ⟨_, m, rfl, id⟩

/-- Under the default BUS an action leaves it the default BUS. -/
theorem handlerStep_quiet (op : HalfWord) (temps : List Word) (act : HandlerAction)
    (quiet : s.busEvents = []) : (handlerStep op temps act s).busEvents = [] := by
  cases act
  case write => simpa [handlerStep, busWrite_default quiet] using quiet
  case raiseException v =>
    simp only [handlerStep, takeException]
    rw [enterVector_default (s := { s with supervisor := true }) quiet]
    exact quiet
  all_goals exact quiet

/-- A run that does not read SR, and whose memory agrees for as long as it may read it, comes out apart
only in what the veil covers. -/
theorem runHandler_veiled (op : HalfWord) : ∀ (p : HandlerProg) (temps : List Word) (s : State) (b : Bool)
    (c : Option Result) (m : Memory), handlerReadsSR p = false → (handlerLoads p = true → m = s.mem) →
    s.busEvents = [] → Veiled (runHandler op p temps s) (runHandler op p temps (veil b c m s))
  | .returns _, _, _, b, c, m, _, _, _ => ⟨b, c, m, rfl⟩
  | .hangs, _, _, b, c, m, _, _, _ => ⟨b, c, m, rfl⟩
  | .act act rest, temps, s, b, c, m, blind, same, quiet => by
    simp only [handlerReadsSR, Bool.or_eq_false_iff] at blind
    obtain ⟨⟨blindAct, blindRest⟩, noLoad⟩ := blind
    have quiet' := handlerStep_quiet op temps act quiet
    simp only [runHandler]
    by_cases exception : ∃ v, act = .raiseException v
    · obtain ⟨v, rfl⟩ := exception
      cases same rfl
      obtain ⟨b', c', m', e⟩ := takeException_veiled (b := b) (c := c) quiet v
      rw [show handlerStep op temps (.raiseException v) (veil b c s.mem s) = _ from e]
      exact runHandler_veiled op rest temps _ b' c' m' blindRest
        (fun loads => absurd (noLoad.symm.trans loads) nofun) quiet'
    · have plain : ∀ v, act ≠ .raiseException v := fun v e => exception ⟨v, e⟩
      obtain ⟨b', m', e, keeps⟩ :=
        handlerStep_veil (b := b) (c := c) (m := m) op temps blindAct plain quiet
      rw [e]
      exact runHandler_veiled op rest temps _ b' c m' blindRest
        (fun loads => keeps (same (by simp [handlerLoads, loads]))) quiet'
  | .read size x rest, temps, s, b, c, m, blind, same, quiet => by
    simp only [handlerReadsSR, Bool.or_eq_false_iff] at blind
    cases same rfl
    simp only [runHandler, exprValue_veil op temps blind.1, afterRead_default quiet,
      afterRead_default (s := veil b c s.mem s) quiet]
    exact runHandler_veiled op rest _ s b c s.mem blind.2 (fun _ => rfl) quiet
  | .choose cond yes no, temps, s, b, c, m, blind, same, quiet => by
    simp only [handlerReadsSR, Bool.or_eq_false_iff] at blind
    obtain ⟨⟨blindCond, blindYes⟩, blindNo⟩ := blind
    simp only [runHandler, exprValue_veil op temps blindCond]
    split
    · exact runHandler_veiled op yes temps s b c m blindYes
        (fun loads => same (by simp [handlerLoads, loads])) quiet
    · exact runHandler_veiled op no temps s b c m blindNo
        (fun loads => same (by simp [handlerLoads, loads])) quiet

/-! ## The commands -/

/-- R44: the reset overwrites the privilege bit. -/
theorem resetSequence_veiled (quiet : s.busEvents = []) :
    Veiled (resetSequence s) (resetSequence (veil b c s.mem s)) := by
  rw [resetSequence_default quiet, resetSequence_default (s := veil b c s.mem s) quiet]
  exact ⟨s.params.resetSupervisor, c, s.mem, rfl⟩

/-- Of the identifiers only SR shows the privilege bit. -/
theorem regValue_veil {reg : RegId} (other : reg ≠ .sr) : regValue reg (veil b c m s) = regValue reg s := by
  cases reg
  case sr => exact absurd rfl other
  all_goals rfl

/-- A command R236 refuses before the first `pulseReset`: the table decides, not the privilege bit. -/
theorem afterFirstReset_veiled {k : State → State} (h : afterFirstReset s k = .next t)
    (body : Veiled (k s) (k (veil b c m s))) :
    ∃ u, afterFirstReset (veil b c m s) k = .next u ∧ Veiled t u := by
  unfold afterFirstReset at h ⊢
  split at h
  next built => cases h; exact ⟨_, if_pos built, body⟩
  · cases h

theorem setReg_veiled (reg : RegId) (v : Word) :
    Veiled (replyNone (setReg reg v s)) (replyNone (setReg reg v (veil b c m s))) := by
  cases reg
  case sr => exact ⟨_, c, m, rfl⟩
  all_goals exact ⟨b, c, m, rfl⟩

/-- R205 for each instruction: the same branch is taken, and its states come out veiled. -/
theorem exec_veiled {i : Instr} (quiet : s.busEvents = []) (notSR : i ≠ .get .sr)
    (blind : ∀ op id, i = .external op → s.table.lookup op = .external id →
      ∃ p, listedHandler s.params.handlers id = some p ∧ handlerReadsSR p = false)
    (h : exec i s = .next t) : ∃ u, exec i (veil b c s.mem s) = .next u ∧ Veiled t u := by
  cases i
  case lineF => cases h; exact ⟨_, rfl, illegalOpcode_veiled quiet _⟩
  case lineA => cases h; exact ⟨_, rfl, illegalOpcode_veiled quiet _⟩
  case illegal => cases h; exact ⟨_, rfl, illegalOpcode_veiled quiet _⟩
  case external op =>
    cases slot : s.table.lookup op with
    | illegal =>
      simp only [exec, execExternal, slot, show (veil b c s.mem s).table = s.table from rfl] at h ⊢
      cases h
      exact ⟨_, rfl, illegalOpcode_veiled quiet _⟩
    | external id =>
      obtain ⟨p, listed, reads⟩ := blind op id rfl slot
      rw [exec_external slot, callHandler_listed listed] at h
      cases h
      refine ⟨_, (exec_external (s := veil b c s.mem s) slot).trans
        (congrArg _ (callHandler_listed (s := veil b c s.mem s) listed)), ?_⟩
      exact runHandler_veiled op p [] s b c s.mem reads (fun _ => rfl) quiet
  case pulseReset =>
    obtain ⟨outside, tab, found, rfl⟩ := execPulseReset_next h
    exact ⟨_, exec_pulseReset outside found,
      resetSequence_veiled (s := { s with table := tab, tableBuilt := true }) quiet⟩
  case execute n =>
    obtain ⟨built, outside, budget, ⟨stopped, rfl⟩ | ⟨awake, rfl⟩⟩ := execExecute_next h
    · exact ⟨_, exec_execute_stopped built outside budget stopped, b, c, _, rfl⟩
    · exact ⟨_, exec_execute_begins built outside budget awake, b, c, _, rfl⟩
  case raiseIRQ l =>
    simp only [exec, execRaiseIRQ] at h ⊢
    split at h
    · cases h
    next inRange =>
      rw [if_neg inRange]
      exact afterFirstReset_veiled h (requestIRQ_veiled (s := replyNone s) quiet _)
  case get reg =>
    have value := regValue_veil (s := s) (b := b) (c := c) (m := s.mem) fun e : reg = .sr => notSR (e ▸ rfl)
    exact afterFirstReset_veiled (k := fun s => reply (.value (regValue reg s)) s) h
      ⟨b, c, s.mem, by rw [value]; rfl⟩
  case set reg v =>
    exact afterFirstReset_veiled (k := fun s => replyNone (setReg reg v s)) h (setReg_veiled reg v)
  case modifyTimeslice n =>
    exact afterFirstReset_veiled (k := fun s => replyNone (modifySlice n s)) h ⟨b, c, _, rfl⟩
  case endTimeslice =>
    exact afterFirstReset_veiled (k := fun s => replyNone (endSlice s)) h ⟨b, c, _, rfl⟩
  case setClockMultiplier v =>
    simp only [exec, execSetClockMultiplier] at h ⊢
    split at h
    · cases h
    next outside => cases h; exact ⟨_, if_neg outside, b, c, _, rfl⟩
  case getClockMultiplier => cases h; exact ⟨_, rfl, b, c, _, rfl⟩
  case debugHalt => cases h; exact ⟨_, rfl, b, c, _, rfl⟩
  case debugResume => cases h; exact ⟨_, rfl, b, c, _, rfl⟩
  all_goals exact afterFirstReset_veiled h ⟨b, c, s.mem, rfl⟩

end

/-- Settles O57: the two runs come out apart only under the veil (`exec_veiled`). -/
theorem privilegeBitDecidesNothing : Obligations.PrivilegeBitDecidesNothing := by
  intro s t i b quiet notSR blind h
  obtain ⟨u, hu, b', c', m', rfl⟩ :=
    exec_veiled (b := b) (c := s.collabResult) quiet notSR blind h
  exact ⟨_, hu, rfl, rfl, rfl, rfl, rfl, rfl, ⟨rfl, rfl, rfl, rfl, rfl, rfl, rfl⟩,
    ⟨rfl, rfl, rfl, rfl⟩, ⟨rfl, rfl, rfl⟩, rfl, rfl⟩

end Sys2Proof.Machine
end

section
/-! SUPPORT. Memory (20_memory.md R60, R63, R64): the byte a store leaves at each address it writes, and
what a load over those bytes gives. -/

namespace Sys2Proof.Machine

/-! ## The bytes of a value -/

/-- A long is its four bytes, the most significant first. -/
theorem append_bytes (v : Word) :
    v.extractLsb' 24 8 ++ v.extractLsb' 16 8 ++ v.extractLsb' 8 8 ++ v.extractLsb' 0 8 = v := by
  rw [BitVec.extractLsb'_append_extractLsb'_eq_extractLsb' (by rfl),
    BitVec.extractLsb'_append_extractLsb'_eq_extractLsb' (by rfl),
    BitVec.extractLsb'_append_extractLsb'_eq_extractLsb' (by rfl)]
  exact BitVec.extractLsb'_eq_self

/-- A mask of the low bits is a remainder. -/
theorem toNat_and_mask (v : Word) {n : Nat} (hn : n ≤ 32) :
    (v &&& BitVec.ofNat 32 (2 ^ n - 1)).toNat = v.toNat % 2 ^ n := by
  have mask : (2 ^ n - 1) % 2 ^ 32 = 2 ^ n - 1 :=
    Nat.mod_eq_of_lt (by have := Nat.pow_le_pow_right (n := 2) (by decide) hn; omega)
  rw [BitVec.toNat_and, BitVec.toNat_ofNat, mask, Nat.and_two_pow_sub_one_eq_mod]

/-- The low bits of a value, zero-extended, are the value under their mask. -/
theorem setWidth_lowBits (v : Word) {n : Nat} (hn : n ≤ 32) :
    (v.extractLsb' 0 n).setWidth 32 = v &&& BitVec.ofNat 32 (2 ^ n - 1) := by
  have low : v.toNat % 2 ^ n < 2 ^ 32 := (Nat.mod_le ..).trans_lt v.isLt
  apply BitVec.eq_of_toNat_eq
  simpa [toNat_and_mask v hn] using low

/-- A byte of a value shifted down is a higher byte of the value. -/
theorem extractLsb'_ushiftRight (v : Word) (k i : Nat) :
    (v >>> k).extractLsb' i 8 = v.extractLsb' (k + i) 8 := by
  ext j hj
  simp [Nat.add_assoc]

/-- A value of at most 16 bits is its own low word. -/
theorem truncateTo_word_of_lt {v : Word} (h : v.toNat < 2 ^ 16) : truncateTo .word v = v :=
  BitVec.eq_of_toNat_eq ((toNat_and_mask v (n := 16) (by decide)).trans (Nat.mod_eq_of_lt h))

theorem truncateTo_ushiftRight (v : Word) : truncateTo .word (v >>> 16) = v >>> 16 :=
  truncateTo_word_of_lt (by
    have := v.isLt
    rw [BitVec.toNat_ushiftRight, Nat.shiftRight_eq_div_pow]
    omega)

theorem truncateTo_setWidth (v : HalfWord) : truncateTo .word (v.setWidth 32) = v.setWidth 32 :=
  truncateTo_word_of_lt (by
    have := v.isLt
    rw [BitVec.toNat_setWidth]
    omega)

/-! ## Stores and loads, byte by byte -/

/-- A single byte lies at its own address in either order. -/
@[simp] theorem laneAddress_byte (o : ByteOrder) (x : Word) : laneAddress o 1 0 x = x.toNat := by
  cases o <;> simp [laneAddress]

section
variable {m : Memory}

/-- A store leaves byte `lane` of the value at the address of that byte. -/
theorem byteAt_store_lane (o : ByteOrder) (size : Size) (x v : Word) {lane : Nat}
    (h : m.wf = true) (hl : lane < sizeBytes size) :
    (m.store o size x v).byteAt (laneAddress o (sizeBytes size) lane x) =
      v.extractLsb' (8 * lane) 8 := by
  have apart {i j : Nat} (hi : i < sizeBytes size) (hj : j < sizeBytes size) (hij : i ≠ j) :=
    laneAddress_ne o (by cases size <;> decide) hi hj hij x
  cases size with
  | byte =>
    obtain rfl : lane = 0 := Nat.lt_one_iff.mp hl
    simp [Memory.store, sizeBytes, byteAt_putByte _ _ _ h]
  | word =>
    simp only [sizeBytes] at hl apart ⊢
    rw [byteAt_store_word _ _ _ _ h]
    interval_cases lane <;> simp [apart]
  | long =>
    simp only [sizeBytes] at hl apart ⊢
    rw [byteAt_store_long _ _ _ _ h]
    interval_cases lane <;> simp [apart]

/-- A load over the bytes of `v` gives the low bits of `v`. -/
theorem load_of_lanes {o : ByteOrder} {size : Size} {x v : Word}
    (h : ∀ lane < sizeBytes size,
      m.byteAt (laneAddress o (sizeBytes size) lane x) = v.extractLsb' (8 * lane) 8) :
    m.load o size x = truncateTo size v := by
  cases size with
  | byte =>
    have h0 : m.byteAt x.toNat = v.extractLsb' 0 8 := by simpa [sizeBytes] using h 0 (by decide)
    simp only [Memory.load, truncateTo, h0]
    exact setWidth_lowBits v (by decide)
  | word =>
    simp only [sizeBytes] at h
    simp only [Memory.load, truncateTo, h 0 (by decide), h 1 (by decide)]
    rw [BitVec.extractLsb'_append_extractLsb'_eq_extractLsb' (by rfl)]
    exact setWidth_lowBits v (by decide)
  | long =>
    simp only [sizeBytes] at h
    simp only [Memory.load, truncateTo, h 0 (by decide), h 1 (by decide), h 2 (by decide),
      h 3 (by decide)]
    exact append_bytes v

/-- R60: a load of the size stored gives the value's low bits. -/
theorem load_store_same (o : ByteOrder) (size : Size) (x v : Word) (h : m.wf = true) :
    (m.store o size x v).load o size x = truncateTo size v :=
  load_of_lanes fun _ hl => byteAt_store_lane o size x v h hl

/-- A word that lies over the two bytes of a stored long from byte `k` upward. -/
theorem load_word_store_long (o : ByteOrder) (x y v : Word) {k : Nat} (hk : k ≤ 2) (h : m.wf = true)
    (covers : ∀ lane < 2, laneAddress o 2 lane y = laneAddress o 4 (k + lane) x) :
    (m.store o .long x v).load o .word y = truncateTo .word (v >>> (8 * k)) :=
  load_of_lanes fun lane hl => by
    simp only [sizeBytes] at hl ⊢
    rw [covers lane hl, extractLsb'_ushiftRight, ← Nat.mul_add]
    exact byteAt_store_lane o .long x v h (by simp only [sizeBytes]; omega)

end

/-- Settles O58: a store byte by byte (`byteAt_store_lane`), a load from its bytes (`load_of_lanes`). -/
theorem memoryReadsBackWhatWasWritten : Obligations.MemoryReadsBackWhatWasWritten := by
  intro m o x v h
  refine ⟨load_store_same o .byte x v h, load_store_same o .word x v h, load_store_same o .long x v h,
    (load_word_store_long .big x x v (k := 2) (by decide) h ?_).trans (truncateTo_ushiftRight v),
    (load_word_store_long .big x (x + 2) v (k := 0) (by decide) h ?_).trans rfl,
    (load_word_store_long .little x x v (k := 0) (by decide) h ?_).trans rfl,
    (load_word_store_long .little x (x + 2) v (k := 2) (by decide) h ?_).trans
      (truncateTo_ushiftRight v),
    fun size y outside => byteAt_store_other o size x v y h outside⟩
  all_goals
    intro lane hl
    interval_cases lane <;> simp [laneAddress, BitVec.add_assoc]

end Sys2Proof.Machine
end

section
/-! SUPPORT. The exception frame read back (R76, R184): two stores that do not overlap, on the state
after an illegal word or a delivered interrupt under the default BUS. -/

namespace Sys2Proof.Machine

/-! ## The frame in memory -/

/-- The two slots of a frame, as offsets from its own address. -/
theorem frame_long_address (sp : Word) (k : Nat) :
    sp - 4 + BitVec.ofNat 32 k = sp - 6 + BitVec.ofNat 32 (2 + k) := by
  rw [BitVec.ofNat_add]
  bv_omega

/-- No byte of the saved pc lies in the slot of the saved status word. -/
theorem frame_slots_apart (sp : Word) {j k : Nat} (hj : j < 4) (hk : k < 2) :
    (sp - 6 + BitVec.ofNat 32 k).toNat ≠ (sp - 4 + BitVec.ofNat 32 j).toNat := by
  rw [frame_long_address]
  exact toNat_add_ne (by omega) (by omega) (by omega)

section
variable {s t : State} (sp pc : Word) (sr : HalfWord) (h : s.mem.wf = true)
include h

theorem withFrame_byteAt_sr {lane : Nat} (hl : lane < 2) :
    (s.withFrame sp pc sr).byteAt (laneAddress s.params.byteOrder 2 lane (sp - 6)) =
      sr.extractLsb' (8 * lane) 8 :=
  (byteAt_store_lane _ .word _ _ (store_wf _ .long _ _ h) hl).trans
    (BitVec.extractLsb'_setWidth_of_le (by omega))

/-- Outside the slot of the status word a frame is the store of the pc. -/
theorem withFrame_byteAt_long {y : Nat} (hy : ∀ k < 2, (sp - 6 + BitVec.ofNat 32 k).toNat ≠ y) :
    (s.withFrame sp pc sr).byteAt y = (s.store .long (sp - 4) pc).byteAt y :=
  byteAt_store_other _ .word _ _ _ (store_wf _ .long _ _ h) hy

theorem withFrame_byteAt_pc {lane : Nat} (hl : lane < 4) :
    (s.withFrame sp pc sr).byteAt (laneAddress s.params.byteOrder 4 lane (sp - 4)) =
      pc.extractLsb' (8 * lane) 8 := by
  obtain ⟨j, hj, e⟩ := laneAddress_eq s.params.byteOrder hl (sp - 4)
  rw [withFrame_byteAt_long sp pc sr h fun k hk => e ▸ frame_slots_apart sp hj hk]
  exact byteAt_store_lane _ .long _ _ h hl

theorem withFrame_load_sr :
    (s.withFrame sp pc sr).load s.params.byteOrder .word (sp - 6) = sr.setWidth 32 :=
  (load_store_same _ .word _ _ (store_wf _ .long _ _ h)).trans (truncateTo_setWidth sr)

theorem withFrame_load_pc :
    (s.withFrame sp pc sr).load s.params.byteOrder .long (sp - 4) = pc :=
  load_of_lanes fun _ hl => withFrame_byteAt_pc sp pc sr h hl

/-- R63, R76: the six bytes of a frame in the big-endian order, each value high byte first. -/
theorem withFrame_bytes_big (big : s.params.byteOrder = .big) :
    [0, 1, 2, 3, 4, 5].map (fun k => (s.withFrame sp pc sr).byteAt (sp - 6 + BitVec.ofNat 32 k).toNat) =
      [sr.extractLsb' 8 8, sr.extractLsb' 0 8, pc.extractLsb' 24 8, pc.extractLsb' 16 8,
        pc.extractLsb' 8 8, pc.extractLsb' 0 8] := by
  have srByte (lane : Nat) (hl : lane < 2) := withFrame_byteAt_sr sp pc sr h hl
  have pcByte (lane : Nat) (hl : lane < 4) := withFrame_byteAt_pc sp pc sr h hl
  simp only [big, laneAddress, frame_long_address] at srByte pcByte
  simp only [List.map_cons, List.map_nil, List.cons.injEq, and_true]
  exact ⟨srByte 1 (by decide), srByte 0 (by decide), pcByte 3 (by decide), pcByte 2 (by decide),
    pcByte 1 (by decide), pcByte 0 (by decide)⟩

/-- R184: no byte outside the six of a frame changes. -/
theorem withFrame_byteAt_other {y : Nat} (hy : ∀ k < 6, (sp - 6 + BitVec.ofNat 32 k).toNat ≠ y) :
    (s.withFrame sp pc sr).byteAt y = s.byteAt y := by
  rw [withFrame_byteAt_long sp pc sr h fun k hk => hy k (by omega)]
  refine byteAt_store_other _ .long _ _ _ h fun k hk => ?_
  simp only [sizeBytes] at hk
  exact frame_long_address sp k ▸ hy (2 + k) (by omega)

end

/-! ## The states that have pushed a frame -/

/-- R184: of the stack pointer, memory and the byte order, what entry to a handler leaves. -/
structure FramePushed (s t : State) : Prop where
  sp     : t.a.get 7 = s.a.get 7 - 6
  mem    : t.mem = s.withFrame (s.a.get 7) s.pc (packSR s)
  params : t.params = s.params

section
variable {s t : State}

/-- R120 to R123: LINE_F, LINE_A and ILLEGAL push a frame. -/
theorem framePushed_of_illegalKind {i : Instr} {entry : Word} (quiet : s.DefaultBus)
    (kind : IllegalKind i entry) (h : exec i s = .next t) : FramePushed s t := by
  have pushed (vector : Byte) : FramePushed s (illegalOpcode vector s) := by
    rw [illegalOpcode_default quiet]
    exact ⟨stackPointer_setA_seven s _, rfl, rfl⟩
  obtain ⟨⟨_, rfl⟩, -⟩ | ⟨⟨_, rfl⟩, -⟩ | ⟨⟨_, rfl⟩, -⟩ := kind <;> cases h <;> exact pushed _

/-- R101: an answer that selects a vector number is not malformed. -/
theorem AnswerSelects.ackVector {p : Params} {level : BitVec 3} {answer : AckAnswer} {v : Nat}
    (h : AnswerSelects p level answer v) :
    ackVector p level answer = some (BitVec.ofNat 8 v) := by
  have listed {n : Word} (hn : n.toNat ≤ 255) : vectorNumber n = some (BitVec.ofNat 8 n.toNat) := by
    rw [vectorNumber, if_pos hn, BitVec.ofNat_toNat]
  have auto : some (Config.vecSpurious + level.setWidth 8) = some (BitVec.ofNat 8 (24 + level.toNat)) := by
    rw [BitVec.ofNat_add, BitVec.ofNat_toNat]; rfl
  obtain ⟨rfl, rfl⟩ | ⟨rfl, rfl⟩ | ⟨n, rfl, hn, rfl⟩ | ⟨rfl, rfl⟩ | ⟨rfl, other, rfl⟩ |
    ⟨n, rfl, notAuto, notSpurious, hn, rfl⟩ := h
  · exact auto
  · rfl
  · exact listed hn
  · exact (if_pos rfl).trans auto
  · exact (if_neg other).trans (if_pos rfl)
  · exact (if_neg notAuto).trans ((if_neg notSpurious).trans (listed hn))

/-- R193: an interrupt whose callback answers alone pushes a frame of what stood before it. -/
theorem framePushed_of_deliver {level : BitVec 3} {rest : List AckRun} {v : Nat}
    (quiet : s.DefaultBus) (h : s.AckSelects level rest v) : FramePushed s (deliver level s) := by
  obtain ⟨answer, turn, selects⟩ := h
  rw [deliver_listed turn, selects.ackVector]
  simp only [collabTurn, enterInterrupt]
  rw [enterVector_default (by exact quiet)]
  exact ⟨stackPointer_setA_seven s _, rfl, rfl⟩

/-- The frame reads back at the new stack pointer (R76). -/
theorem FramePushed.reads_back (f : FramePushed s t) (h : s.mem.wf = true) :
    t.load .word (t.a.get 7) = (packSR s).setWidth 32 ∧ t.load .long (t.a.get 7 + 2) = s.pc := by
  have above : s.a.get 7 - 6 + 2 = s.a.get 7 - 4 := by bv_omega
  simp only [State.load, f.sp, f.mem, f.params, above]
  exact ⟨withFrame_load_sr _ _ _ h, withFrame_load_pc _ _ _ h⟩

end

/-- Settles O12: either way a frame is pushed (`FramePushed`), and its bytes are those of two stores. -/
theorem deliveredFrameReadsBack : Obligations.DeliveredFrameReadsBack := by
  intro s t quiet h entered
  have f : FramePushed s t := by
    obtain ⟨i, entry, kind, hi⟩ | ⟨l, rest, v, selects, rfl⟩ := entered
    · exact framePushed_of_illegalKind quiet kind hi
    · exact framePushed_of_deliver quiet selects
  obtain ⟨word, long⟩ := f.reads_back h
  refine ⟨f.sp, word, long, fun big => ?_, fun x outside => ?_⟩
  · simp only [State.byteAt, f.sp, f.mem]
    exact withFrame_bytes_big _ _ _ h big
  · rw [State.byteAt, f.mem]
    exact withFrame_byteAt_other _ _ _ h (f.sp ▸ outside)

end Sys2Proof.Machine
end

section
/-! SUPPORT. The encoding (30_encoding.md): what a fetched word decodes to, by its slot and its top
nibble, and the round trips of decoder and encoder. -/

namespace Sys2Proof

/-! ## The two fields of an instruction word (R91) -/

theorem toNat_topNibble (op : HalfWord) : (topNibble op).toNat = op.toNat / 4096 := by
  have small : op.toNat / 4096 < 2 ^ 4 := by omega
  simp only [topNibble, BitVec.extractLsb'_toNat, Nat.shiftRight_eq_div_pow]
  exact Nat.mod_eq_of_lt small

theorem toNat_wordPayload (op : HalfWord) : (wordPayload op).toNat = op.toNat % 4096 := by
  simp [wordPayload, BitVec.extractLsb'_toNat]

theorem topNibble_eq_iff (op : HalfWord) (n : BitVec 4) :
    topNibble op = n ↔ op.toNat / 4096 = n.toNat := by
  rw [← toNat_topNibble, BitVec.toNat_inj]

section
variable {t : Table} {op : HalfWord}

theorem lineFWord_wordPayload (nibble : topNibble op = 0xF) : lineFWord (wordPayload op) = op := by
  rw [lineFWord, ← nibble, topNibble_append_wordPayload]

theorem lineAWord_wordPayload (nibble : topNibble op = 0xA) : lineAWord (wordPayload op) = op := by
  rw [lineAWord, ← nibble, topNibble_append_wordPayload]

/-! ## A fetched word, one rule for each kind (R93, R94, R104) -/

theorem decodeWord_external (slot : t.lookup op ≠ .illegal) : decodeWord t op = .external op := by
  cases found : t.lookup op with
  | illegal => exact absurd found slot
  | external id => simp only [decodeWord, found]

theorem decodeWord_lineF (slot : t.lookup op = .illegal) (nibble : topNibble op = 0xF) :
    decodeWord t op = .lineF (wordPayload op) := by
  simp only [decodeWord, slot, if_pos nibble]

theorem decodeWord_lineA (slot : t.lookup op = .illegal) (nibble : topNibble op = 0xA) :
    decodeWord t op = .lineA (wordPayload op) := by
  have notF : topNibble op ≠ 0xF := by rw [nibble]; decide
  simp only [decodeWord, slot, if_neg notF, if_pos nibble]

theorem decodeWord_illegal (slot : t.lookup op = .illegal) (notF : topNibble op ≠ 0xF)
    (notA : topNibble op ≠ 0xA) : decodeWord t op = .illegal op := by
  simp only [decodeWord, slot, if_neg notF, if_neg notA]

end

/-- R94: each kind of word is encoded as the word it was decoded from. -/
theorem encode_decodeWord (t : Table) (op : HalfWord) : encode (decodeWord t op) = .word op := by
  by_cases slot : t.lookup op = .illegal
  · by_cases isF : topNibble op = 0xF
    · rw [decodeWord_lineF slot isF, encode, lineFWord_wordPayload isF]
    · by_cases isA : topNibble op = 0xA
      · rw [decodeWord_lineA slot isA, encode, lineAWord_wordPayload isA]
      · rw [decodeWord_illegal slot isF isA, encode]
  · rw [decodeWord_external slot, encode]

/-! ## The round trips -/

/-- Settles O1, constructor by constructor from the family `Laws.RoundTrip`. -/
theorem decodeReadsBackEncode : Obligations.DecodeReadsBackEncode := by
  intro t i
  cases i with
  | lineF p => exact Laws.RoundTrip.lineF p t
  | lineA p => exact Laws.RoundTrip.lineA p t
  | illegal op => exact Laws.RoundTrip.illegal op t
  | external op => exact Laws.RoundTrip.external op t
  | pulseReset => exact Laws.RoundTrip.pulseReset t
  | execute n => exact Laws.RoundTrip.execute n t
  | raiseIRQ level => exact Laws.RoundTrip.raiseIRQ level t
  | get reg => exact Laws.RoundTrip.get reg t
  | set reg v => exact Laws.RoundTrip.set reg v t
  | isValidInstruction op => exact Laws.RoundTrip.isValidInstruction op t
  | cyclesRun => exact Laws.RoundTrip.cyclesRun t
  | cyclesRemaining => exact Laws.RoundTrip.cyclesRemaining t
  | modifyTimeslice n => exact Laws.RoundTrip.modifyTimeslice n t
  | endTimeslice => exact Laws.RoundTrip.endTimeslice t
  | setClockMultiplier v => exact Laws.RoundTrip.setClockMultiplier v t
  | getClockMultiplier => exact Laws.RoundTrip.getClockMultiplier t
  | debugHalt => exact Laws.RoundTrip.debugHalt t
  | debugResume => exact Laws.RoundTrip.debugResume t

/-- Settles O2: a word by its kind (`encode_decodeWord`), a transaction by its code. -/
theorem encodeReadsBackDecode : Obligations.EncodeReadsBackDecode := by
  intro t p i decoded
  cases p with
  | word op =>
    cases decoded
    exact encode_decodeWord t op
  | command c => exact Machine.encode_of_decodeCommand decoded

/-- Settles O3: the words by the rule of their kind, the transactions by evaluation. -/
theorem specWordsDecodeAsWritten : Obligations.SpecWordsDecodeAsWritten :=
  ⟨decodeWord_lineF rfl (by decide), decodeWord_lineA rfl (by decide),
    decodeWord_illegal rfl (by decide) (by decide), decodeWord_external (by decide),
    rfl, rfl, rfl, rfl, rfl, rfl, rfl⟩

/-- Settles O4: the rules of the four kinds, with nibble and payload read as numbers. -/
theorem slotAndNibbleSelectTheKind : Obligations.SlotAndNibbleSelectTheKind := by
  refine fun t op => ⟨decodeWord_external, fun slot => ⟨fun isF => ?lineF, fun isA => ?lineA,
    fun notF notA => ?illegal⟩⟩
  case lineF => exact ⟨_, decodeWord_lineF slot ((topNibble_eq_iff op _).2 isF), toNat_wordPayload op⟩
  case lineA => exact ⟨_, decodeWord_lineA slot ((topNibble_eq_iff op _).2 isA), toNat_wordPayload op⟩
  case illegal =>
    exact decodeWord_illegal slot (mt (topNibble_eq_iff op _).1 notF) (mt (topNibble_eq_iff op _).1 notA)

end Sys2Proof

namespace Sys2Proof.Machine

/-! ## The three fixed slots (R95) -/

/-- R95: whatever table admitted parameters build has the illegal-opcode handler in the three slots. -/
theorem admitted_fixedSlots {p : Params} {t : Table} (h : p.admitted = true)
    (build : buildTable p.desc p.decode = some t) :
    t.lookup 0xF123 = .illegal ∧ t.lookup 0xA456 = .illegal ∧ t.lookup 0x4AFC = .illegal := by
  simp only [Params.admitted, build, Bool.and_eq_true, decide_eq_true_eq] at h
  obtain ⟨-, ⟨lineF, lineA⟩, illegal⟩ := h
  exact ⟨lineF, lineA, illegal⟩

theorem validOpcode_eq_false_iff {s : State} {op : HalfWord} :
    validOpcode op s = false ↔ s.table.lookup op = .illegal := by
  simp [validOpcode]

/-- R124: with the table built the slot is answered for, and nothing but the answer is written. -/
theorem exec_isValidInstruction {s : State} (built : s.tableBuilt = true) (op : HalfWord) :
    exec (.isValidInstruction op) s = .next { s with result := some (.truth (validOpcode op s)) } := by
  simp [exec, execIsValidInstruction, afterFirstReset, built, reply]

/-- Settles O24: the table of the invariant is the one admission speaks of (`admitted_fixedSlots`). -/
theorem fixedSlotsAreIllegal : Obligations.FixedSlotsAreIllegal := by
  intro s inv built admitted
  obtain ⟨lineF, lineA, illegal⟩ := admitted_fixedSlots admitted (inv.table_of built)
  refine ⟨decodeWord_lineF lineF (by decide), decodeWord_lineA lineA (by decide),
    decodeWord_illegal illegal (by decide) (by decide), fun op fixed => ?_⟩
  have slot : s.table.lookup op = .illegal := by
    obtain rfl | rfl | rfl : op = 0xF123 ∨ op = 0xA456 ∨ op = 0x4AFC := by simpa using fixed
    · exact lineF
    · exact lineA
    · exact illegal
  rw [exec_isValidInstruction built, validOpcode_eq_false_iff.2 slot]

end Sys2Proof.Machine
end

section
/-! SUPPORT. Delivery of an interrupt (60_exceptions.md R190 to R193): the entry as one record, and the
vector number as an address. -/

namespace Sys2Proof.Machine

section
variable {s : State}

/-- The entry of vector `v` stands at the address `4v` (R73, R97). -/
theorem vectorAddress_ofNat {v : Nat} (hv : v ≤ 255) :
    vectorAddress (BitVec.ofNat 8 v) = BitVec.ofNat 32 (v * 4) := by
  rw [vectorAddress, BitVec.setWidth_ofNat_of_le_of_lt (by decide) (by omega)]
  exact (BitVec.ofNat_mul ..).symm

/-- The same of a vector carried as a byte, as VEC_UNINITIALIZED_INTERRUPT is. -/
theorem vectorAddress_eq (vector : Byte) : vectorAddress vector = BitVec.ofNat 32 (vector.toNat * 4) := by
  have hv : vector.toNat ≤ 255 := by omega
  simpa using vectorAddress_ofNat hv

/-- The target of an interrupt's vector, which always falls back where its entry is 0 (R193 step 5). -/
theorem defaultTarget_fallback {v : Nat} (hv : v ≤ 255) :
    defaultTarget s true (BitVec.ofNat 8 v) =
      if s.load .long (BitVec.ofNat 32 (v * 4)) = 0
      then s.load .long (BitVec.ofNat 32 (s.params.vecUninitializedInterrupt.toNat * 4))
      else s.load .long (BitVec.ofNat 32 (v * 4)) := by
  simp only [defaultTarget, vectorAddress_ofNat hv, vectorAddress_eq, and_true]

/-- R193 steps 3 to 8 under the default BUS, in one record. -/
theorem enterInterrupt_default (quiet : s.busEvents = []) (level : BitVec 3) (vector : Byte) :
    enterInterrupt level vector s =
      { s with
        supervisor      := true
        mask            := level
        a               := (setA 7 (stackPointer s - 6) s).a
        mem             := s.withFrame (stackPointer s) s.pc (packSR s)
        pc              := defaultTarget s true vector
        interruptCycles := s.interruptCycles + s.params.irqServiceCycles } := by
  unfold enterInterrupt
  rw [enterVector_default (s := { s with supervisor := true, mask := level }) quiet]
  rfl

/-- R101, R191: a selected vector number fits the byte that carries it. -/
theorem AnswerSelects.le {p : Params} {level : BitVec 3} {answer : AckAnswer} {v : Nat}
    (h : AnswerSelects p level answer v) : v ≤ 255 := by
  have auto : 24 + level.toNat ≤ 255 := by omega
  obtain ⟨-, rfl⟩ | ⟨-, rfl⟩ | ⟨n, -, hn, rfl⟩ | ⟨-, rfl⟩ | ⟨-, -, rfl⟩ | ⟨n, -, -, -, hn, rfl⟩ := h
  · exact auto
  · decide
  · exact hn
  · exact auto
  · decide
  · exact hn

end

/-- Settles O47: the callback answers alone, so the entry is made at the state that stood before it. -/
theorem deliveryEntersTheSelectedVector : Obligations.DeliveryEntersTheSelectedVector := by
  rintro s level rest v quiet ⟨answer, turn, selects⟩
  rw [deliver_listed turn, selects.ackVector]
  simp only [collabTurn]
  rw [enterInterrupt_default (by exact quiet), defaultTarget_fallback selects.le]
  rfl

end Sys2Proof.Machine
end

section
/-! SUPPORT. The dispatch table (40_dispatch_table.md R113, R114, R124): the compact form against the
spec's loops over all 65536 words, the table the first `pulseReset` builds, and which words are valid. -/

namespace Sys2Proof

/-! ## Step 2 of R113: the descriptors -/

/-- One more descriptor applied is one more row in front. -/
theorem loopDescriptor_rowHandler (rows : List Descriptor) (d : Descriptor) :
    loopDescriptor (rowHandler rows) d = rowHandler (d :: rows) := rfl

/-- The descriptors in list order leave, slot for slot, the rows with the last applied first. -/
theorem foldl_loopDescriptor (desc : List Descriptor) : ∀ rows : List Descriptor,
    desc.foldl loopDescriptor (rowHandler rows) = rowHandler (desc.reverse ++ rows) := by
  induction desc with
  | nil => exact fun _ => rfl
  | cons d rest ih =>
    intro rows
    rw [List.foldl_cons, loopDescriptor_rowHandler, ih (d :: rows)]
    simp

/-! ## Step 3 of R113: the walk -/

/-- A slot written is an entry in front. -/
theorem lookup_withSlot (t : Table) (op : HalfWord) (h : Nat) :
    Table.lookup { t with slots := (op, h) :: t.slots } =
      fun op' => if op' = op then .external h else t.lookup op' := by
  funext op'
  by_cases same : op' = op
  · simp [Table.lookup, slotHandler, same]
  · simp [Table.lookup, slotHandler, same, Ne.symm same]

/-- Step 3 for one opcode, on the compact table and on the spec's array. -/
theorem map_lookup_installEntry (t : Table) (op : HalfWord) (e : DecodeEntry) :
    (installEntry t op e).map Table.lookup = loopEntry t.lookup op e := by
  unfold installEntry loopEntry
  split
  · rfl
  · split
    · rfl
    · cases e.redirect with
      | none => rfl
      | some r =>
        cases slot : t.lookup r with
        | illegal => simp [slot]
        | external h => simp [slot, lookup_withSlot]

theorem decodeAscending_cons {k : HalfWord} {e : DecodeEntry} {rest : List (HalfWord × DecodeEntry)}
    {lo : Nat} : decodeAscending lo ((k, e) :: rest) = true ↔
      lo ≤ k.toNat ∧ decodeAscending (k.toNat + 1) rest = true := by
  simp [decodeAscending]

/-- Below every listed opcode DECODE holds the plain illegal entry. -/
theorem decodeAt_below {decode : List (HalfWord × DecodeEntry)} {lo : Nat} {op : HalfWord}
    (ascending : decodeAscending lo decode = true) (below : op.toNat < lo) :
    decodeAt decode op = { isIllegal := true, clev := 0, redirect := none } := by
  induction decode generalizing lo with
  | nil => rfl
  | cons entry rest ih =>
    obtain ⟨k, e⟩ := entry
    obtain ⟨above, later⟩ := decodeAscending_cons.1 ascending
    have other : k ≠ op := by rintro rfl; omega
    rw [decodeAt, if_neg other]
    exact ih later (by omega)

/-- A list whose first opcode is above `lo` ascends from above `lo`. -/
theorem decodeAscending_succ {k : HalfWord} {e : DecodeEntry} {rest : List (HalfWord × DecodeEntry)}
    {lo : Nat} (ascending : decodeAscending lo ((k, e) :: rest) = true) (later : k.toNat ≠ lo) :
    decodeAscending (lo + 1) ((k, e) :: rest) = true := by
  obtain ⟨above, rising⟩ := decodeAscending_cons.1 ascending
  exact decodeAscending_cons.2 ⟨by omega, rising⟩

/-- The walk over all words from `lo` upward does what the walk over the entries still listed does: a
word that is not listed is plainly illegal and writes nothing. -/
theorem map_lookup_walkDecode (all : List (HalfWord × DecodeEntry)) :
    ∀ (n lo : Nat) (rest : List (HalfWord × DecodeEntry)) (t : Table), lo + n = 65536 →
      decodeAscending lo rest = true →
      (∀ op : HalfWord, lo ≤ op.toNat → decodeAt all op = decodeAt rest op) →
      (walkDecode rest t).map Table.lookup = loopWalk all n lo t.lookup
  | 0, _, [], _, _, _, _ => rfl
  | 0, lo, (k, _) :: _, _, total, ascending, _ => by
    have above := (decodeAscending_cons.1 ascending).1
    omega
  | n + 1, lo, [], t, total, _, agree => by
    have here : (BitVec.ofNat 16 lo).toNat = lo := Nat.mod_eq_of_lt (by omega)
    rw [loopWalk, agree _ here.ge]
    exact map_lookup_walkDecode all n (lo + 1) [] t (by omega) rfl fun op h => agree op (by omega)
  | n + 1, lo, (k, e) :: rest, t, total, ascending, agree => by
    have here : (BitVec.ofNat 16 lo).toNat = lo := Nat.mod_eq_of_lt (by omega)
    rw [loopWalk, agree _ here.ge]
    by_cases listed : k.toNat = lo
    · obtain rfl : k = BitVec.ofNat 16 lo := BitVec.eq_of_toNat_eq (listed.trans here.symm)
      rw [decodeAt, if_pos rfl, ← map_lookup_installEntry, walkDecode]
      cases installEntry t (BitVec.ofNat 16 lo) e with
      | none => rfl
      | some t' =>
        have rising := (decodeAscending_cons.1 ascending).2
        refine map_lookup_walkDecode all n (lo + 1) rest t' (by omega) (here ▸ rising) fun op h => ?_
        have other : BitVec.ofNat 16 lo ≠ op := by rintro rfl; omega
        rw [agree op (by omega), decodeAt, if_neg other]
    · have later := decodeAscending_succ ascending listed
      rw [decodeAt_below later (by omega)]
      exact map_lookup_walkDecode all n (lo + 1) _ t (by omega) later fun op h => agree op (by omega)

/-- Settles O22: the descriptors leave the same slots (`foldl_loopDescriptor`), and the walk over all words
writes what the walk over the listed entries writes (`map_lookup_walkDecode`). -/
theorem builtTableIsTheSpecsLoops : Obligations.BuiltTableIsTheSpecsLoops := by
  intro desc decode ascending
  have filled : Table.lookup { rows := desc.reverse, slots := [] } =
      desc.foldl loopDescriptor (fun _ => .illegal) := by
    refine .trans ?_ (foldl_loopDescriptor desc []).symm
    rw [List.append_nil]
    rfl
  rw [buildByLoops, ← filled]
  exact map_lookup_walkDecode decode 65536 0 decode _ rfl ascending fun _ _ => rfl

end Sys2Proof

namespace Sys2Proof.Machine

/-! ## The first `pulseReset` -/

/-- R114: a construction that aborts is fatal. -/
theorem exec_pulseReset_abort {s : State} (outside : s.inExecute = false) (fresh : s.tableBuilt = false)
    (abort : buildTable s.params.desc s.params.decode = none) :
    exec .pulseReset s = .fault .tableConstructionAbort := by
  simp [exec, execPulseReset, outside, fresh, abort]

/-- Settles O21: after the build nothing of `pulseReset` writes the table (`resetSequence_confined`). -/
theorem firstResetBuildsTheTable : Obligations.FirstResetBuildsTheTable := by
  intro s outside fresh
  refine ⟨fun t build => ?_, exec_pulseReset_abort outside fresh⟩
  have kept := resetSequence_confined { s with table := t, tableBuilt := true }
  exact ⟨_, exec_pulseReset outside (.inr ⟨fresh, build⟩), kept.table, kept.tableBuilt, kept.params⟩

/-! ## Valid words (R124) -/

/-- A word decodes to one of the three illegal kinds exactly where its slot is the illegal-opcode
handler. -/
theorem illegalKind_decodeWord_iff {t : Table} {op : HalfWord} :
    (∃ entry, IllegalKind (decodeWord t op) entry) ↔ t.lookup op = .illegal := by
  by_cases slot : t.lookup op = .illegal
  · refine iff_of_true ?_ slot
    by_cases isF : topNibble op = 0xF
    · exact ⟨0x2C, .inl ⟨⟨_, decodeWord_lineF slot isF⟩, rfl⟩⟩
    · by_cases isA : topNibble op = 0xA
      · exact ⟨0x28, .inr (.inl ⟨⟨_, decodeWord_lineA slot isA⟩, rfl⟩)⟩
      · exact ⟨0x10, .inr (.inr ⟨⟨_, decodeWord_illegal slot isF isA⟩, rfl⟩)⟩
  · refine iff_of_false ?_ slot
    rw [decodeWord_external slot]
    rintro ⟨entry, ⟨⟨p, e⟩, -⟩ | ⟨⟨p, e⟩, -⟩ | ⟨⟨w, e⟩, -⟩⟩ <;> cases e

/-- Settles O44: the answer is the slot's (`validOpcode_eq_false_iff`), and the slot's the decoder's. -/
theorem validMeansNotIllegal : Obligations.ValidMeansNotIllegal := by
  refine fun s op => ⟨fun built => ⟨_, exec_isValidInstruction built op, validOpcode_eq_false_iff, ?_⟩,
    fun fresh => afterFirstReset_refused fresh _⟩
  rw [validOpcode_eq_false_iff, illegalKind_decodeWord_iff]

end Sys2Proof.Machine
end

section
/-! SUPPORT. The illegal-opcode handler (40_dispatch_table.md R120 to R123): the whole next state under the
default BUS, and the frame on a silent one; and what a handler's single actions write (R115 to R119). -/

namespace Sys2Proof.Machine

section
variable {i : Instr} {entry : Word}

/-! ## The three illegal words -/

/-- R120 to R123: each of the three kinds runs the illegal-opcode handler with the vector of its entry. -/
theorem exec_illegalKind (kind : IllegalKind i entry) (s : State) :
    ∃ vector, vectorAddress vector = entry ∧ exec i s = .next (illegalOpcode vector s) := by
  obtain ⟨⟨p, rfl⟩, rfl⟩ | ⟨⟨p, rfl⟩, rfl⟩ | ⟨⟨op, rfl⟩, rfl⟩ := kind
  · exact ⟨Config.vecLineF, by decide, rfl⟩
  · exact ⟨Config.vecLineA, by decide, rfl⟩
  · exact ⟨Config.vecIllegal, by decide, rfl⟩

/-- Settles O10, by the record of the handler under the default BUS. -/
theorem illegalWordsTakeTheirVectors : Obligations.IllegalWordsTakeTheirVectors := by
  intro s i entry kind quiet
  obtain ⟨vector, rfl, run⟩ := exec_illegalKind kind s
  rw [run, illegalOpcode_default quiet, ← vectorAddress_eq]
  rfl

/-- A byte outside the six of a frame is outside its two slots (R184). -/
theorem outside_slots {sp : Word} {y : Nat} (hy : ∀ k < 6, (sp - 6 + BitVec.ofNat 32 k).toNat ≠ y) :
    (∀ k < 4, (sp - 4 + BitVec.ofNat 32 k).toNat ≠ y) ∧
      ∀ k < 2, (sp - 6 + BitVec.ofNat 32 k).toNat ≠ y :=
  ⟨fun k hk => frame_long_address sp k ▸ hy (2 + k) (by omega), fun k hk => hy k (by omega)⟩

/-- Settles O11, by the record of an exception on a silent BUS (`takeException_silent`). -/
theorem illegalWordsFrame : Obligations.IllegalWordsFrame := by
  intro s t i entry kind silent wf h
  obtain ⟨vector, -, run⟩ := exec_illegalKind kind s
  rw [run] at h
  cases h
  obtain ⟨events, pc, mem, e, -, outside⟩ := takeException_silent silent vector
  rw [illegalOpcode, e]
  refine ⟨rfl, fun j hj => get_set_other s.a _ hj.symm, get_set_same s.a 7 _, rfl, rfl, rfl, rfl,
    ⟨rfl, rfl, rfl, rfl, rfl, rfl, rfl⟩, rfl, rfl, rfl, rfl, ⟨rfl, rfl, rfl⟩, rfl, rfl, rfl, fun x hx => ?_⟩
  obtain ⟨long, word⟩ := outside_slots hx
  exact (outside wf).2 x long word

end

/-! ## Handlers of one action -/

section
variable {s : State} {op : HalfWord} {id : Nat} {cost : Int}

/-- A handler of one action does it, and its cost is billed (R115). -/
theorem exec_external_act {act : HandlerAction} (slot : s.table.lookup op = .external id)
    (listed : listedHandler s.params.handlers id = some (.act act (.returns cost))) :
    exec (.external op) s = .next (bill cost (handlerStep op [] act s)) := by
  rw [exec_external slot, callHandler_listed listed, runHandler, runHandler]

/-- A handler that reads the default BUS before its action has the value read at hand (R116). -/
theorem exec_external_read {size : Size} {x : HandlerExpr} {act : HandlerAction}
    (slot : s.table.lookup op = .external id)
    (listed : listedHandler s.params.handlers id = some (.read size x (.act act (.returns cost))))
    (quiet : s.DefaultBus) :
    exec (.external op) s =
      .next (bill cost (handlerStep op [s.load size (exprValue op [] s x)] act s)) := by
  rw [exec_external slot, callHandler_listed listed, runHandler, runHandler, runHandler,
    busAnswer_default quiet, afterRead_default quiet, List.nil_append]

/-- A synchronous exception under the default BUS, in one record (R183, R184). -/
theorem takeException_default (quiet : s.busEvents = []) (vector : Byte) :
    takeException vector s =
      { s with
        supervisor := true
        a          := (setA 7 (stackPointer s - 6) s).a
        mem        := s.withFrame (stackPointer s) s.pc (packSR s)
        pc         := defaultTarget s s.params.illegalZeroVectorFallback vector } := by
  rw [takeException, enterVector_default (s := { s with supervisor := true }) quiet]
  rfl

/-- Settles O16: a handler of one action is that action and the bill (`exec_external_act`). -/
theorem externalHandlerWritesWhatItSays : Obligations.ExternalHandlerWritesWhatItSays := by
  intro s op id cost slot v does
  have run {act : HandlerAction} (listed : does act) := exec_external_act slot listed
  refine ⟨fun _ => run, fun _ _ => run, fun _ _ => run, fun _ => run, fun _ => run, fun _ => run,
    fun _ => run, fun _ => run, fun _ => run, run, fun size x e listed quiet => ?write,
    fun size x j quiet listed => ?read⟩
  case write =>
    rw [run listed, handlerStep, busWrite_default quiet]
    rfl
  case read =>
    rw [exec_external_read slot listed quiet]
    rfl

/-- Settles O17, by the record of an exception under the default BUS. -/
theorem externalHandlerRaisesAnyVector : Obligations.ExternalHandlerRaisesAnyVector := by
  intro s op id cost vector slot listed quiet noFallback
  have target : defaultTarget s s.params.illegalZeroVectorFallback vector =
      s.load .long (BitVec.ofNat 32 (vector.toNat * 4)) := by
    simp [defaultTarget, noFallback, vectorAddress_eq]
  rw [exec_external_act slot listed, handlerStep, takeException_default quiet, target]
  rfl

end

end Sys2Proof.Machine
end

section
/-! SUPPORT. What no external handler changes (40_dispatch_table.md R115 to R119): a run up to its end
carries out the actions of its trail, each of which writes on a silent bus only what it names; then its
cost is billed. -/

namespace Sys2Proof.Machine

/-! ## A run is its trail, then its end -/

/-- The state in which a run returns, its cost not yet billed, or in which it hangs. -/
def handlerEnd (op : HalfWord) : HandlerProg → List Word → State → State
  | .returns _, _, s => s
  | .hangs, _, s => s
  | .act act rest, temps, s => handlerEnd op rest temps (handlerStep op temps act s)
  | .read size x rest, temps, s =>
    handlerEnd op rest (temps ++ [busAnswer size (exprValue op temps s x) s]) (afterRead requestIRQ s)
  | .choose c yes no, temps, s =>
    if exprValue op temps s c ≠ 0 then handlerEnd op yes temps s else handlerEnd op no temps s

/-- What follows: the bill of a run that returned (R115), the hang of one that never does (93 U13). -/
def closeRun (cost : Option Int) (s : State) : State :=
  match cost with
  | some c => bill c s
  | none => { s with hung := true }

theorem runHandler_eq_closeRun (op : HalfWord) : ∀ (p : HandlerProg) (temps : List Word) (s : State),
    runHandler op p temps s = closeRun (handlerCost op p temps s) (handlerEnd op p temps s)
  | .returns _, _, _ => rfl
  | .hangs, _, _ => rfl
  | .act _ rest, _, _ => runHandler_eq_closeRun op rest _ _
  | .read _ _ rest, _, _ => runHandler_eq_closeRun op rest _ _
  | .choose c yes no, temps, s => by
    simp only [runHandler, handlerCost, handlerEnd]
    split
    · exact runHandler_eq_closeRun op yes temps s
    · exact runHandler_eq_closeRun op no temps s

theorem closeRun_remaining (cost : Option Int) (s : State) :
    (closeRun cost s).remaining = s.remaining - cost.getD 0 := by
  cases cost with
  | none => exact (Int.sub_zero _).symm
  | some c => rfl

theorem closeRun_mem (cost : Option Int) (s : State) : (closeRun cost s).mem = s.mem := by
  cases cost <;> rfl

/-- On a silent bus an action leaves it silent. -/
theorem handlerStep_silent {s : State} (silent : s.SilentBus) (op : HalfWord) (temps : List Word)
    (act : HandlerAction) : (handlerStep op temps act s).SilentBus := by
  cases act
  case write size x e =>
    rw [handlerStep, busWrite_silent silent]
    exact silent_tail silent
  case raiseException v =>
    obtain ⟨events, pc, mem, e, quiet, -⟩ := takeException_silent silent v
    rw [handlerStep, e]
    exact quiet
  all_goals exact silent

section
variable {R : State → State → Prop} (trans : ∀ {s t u}, R s t → R t u → R s u)
  (event : ∀ s events, R s { s with busEvents := events })
include trans event

/-- A transitive relation that a used-up bus event respects, and on a silent bus every action of the
trail, the run up to its end respects. -/
theorem handlerEnd_rel (op : HalfWord) : ∀ (p : HandlerProg) (temps : List Word) (s : State), s.SilentBus →
    (∀ m ∈ handlerTrail op p temps s, m.state.SilentBus →
      R m.state (handlerStep op m.temps m.act m.state)) →
    R s (handlerEnd op p temps s)
  | .returns _, _, s, _, _ => event s s.busEvents
  | .hangs, _, s, _, _ => event s s.busEvents
  | .act act rest, temps, s, silent, each => by
    simp only [handlerTrail, List.forall_mem_cons] at each
    exact trans (each.1 silent)
      (handlerEnd_rel op rest temps _ (handlerStep_silent silent op temps act) each.2)
  | .read size x rest, temps, s, silent, each => by
    simp only [handlerTrail, handlerEnd, afterRead_silent silent] at each ⊢
    exact trans (event s _) (handlerEnd_rel op rest _ _ (silent_tail silent) each)
  | .choose c yes no, temps, s, silent, each => by
    simp only [handlerTrail, handlerEnd] at each ⊢
    split at each
    next taken => rw [if_pos taken]; exact handlerEnd_rel op yes temps s silent each
    next skipped => rw [if_neg skipped]; exact handlerEnd_rel op no temps s silent each

end

/-! ## The parts of the engine and the actions that name them (R118) -/

/-- What a handler's actions write by name, and `control`: what none of them writes. -/
inductive EnginePart where
  | d (j : Fin 8)
  | a (j : Fin 8)
  | pc
  | cc
  | mask
  | supervisor
  | trace
  | stopped
  | remaining
  | control

/-- Two states agree in a part. -/
def EnginePart.Same (s t : State) : EnginePart → Prop
  | .d j => t.d.get j = s.d.get j
  | .a j => t.a.get j = s.a.get j
  | .pc => t.pc = s.pc
  | .cc => t.cc = s.cc
  | .mask => t.mask = s.mask
  | .supervisor => t.supervisor = s.supervisor
  | .trace => t.trace = s.trace
  | .stopped => t.stopped = s.stopped
  | .remaining => t.remaining = s.remaining
  | .control =>
    (t.interruptCycles, t.quantumBudget, t.intLevel, t.irqPending, t.pendingLevel, t.haltReq, t.ackRuns,
        t.collabResult) =
      (s.interruptCycles, s.quantumBudget, s.intLevel, s.irqPending, s.pendingLevel, s.haltReq, s.ackRuns,
        s.collabResult)

/-- The action names the part. -/
def EnginePart.NamedBy (act : HandlerAction) : EnginePart → Prop
  | .d j => ∃ e, act = .setD j e
  | .a j => (∃ e, act = .setA j e) ∨ j = 7 ∧ ∃ v, act = .raiseException v
  | .pc => (∃ e, act = .setPc e) ∨ ∃ v, act = .raiseException v
  | .cc => (∃ e, act = .setCc e) ∨ ∃ e, act = .unpackSR e
  | .mask => (∃ e, act = .setMask e) ∨ ∃ e, act = .unpackSR e
  | .supervisor => (∃ e, act = .setSupervisor e) ∨ (∃ e, act = .unpackSR e) ∨ ∃ v, act = .raiseException v
  | .trace => (∃ e, act = .setTrace e) ∨ ∃ e, act = .unpackSR e
  | .stopped => (∃ b, act = .setStopped b) ∨ act = .stop
  | .remaining => act = .stop
  | .control => False

theorem EnginePart.Same.trans {s t u : State} {part : EnginePart} (h : part.Same s t) (k : part.Same t u) :
    part.Same s u := by
  cases part <;> exact Eq.trans k h

/-- Bus events and memory belong to no part. -/
theorem EnginePart.same_bus (s : State) (events : List BusEvent) (mem : Memory) (part : EnginePart) :
    part.Same s { s with busEvents := events, mem := mem } := by
  cases part <;> rfl

/-- R118: on a silent bus an action writes no part it does not name. -/
theorem handlerStep_same {s : State} (silent : s.SilentBus) (op : HalfWord) (temps : List Word)
    {act : HandlerAction} {part : EnginePart} (unnamed : ¬ part.NamedBy act) :
    part.Same s (handlerStep op temps act s) := by
  cases act
  case write size x e =>
    rw [handlerStep, busWrite_silent silent]
    exact EnginePart.same_bus s _ _ part
  case raiseException v =>
    obtain ⟨events, pc, mem, e, -⟩ := takeException_silent silent v
    rw [handlerStep, e]
    cases part
    case a j =>
      have other : (7 : Fin 8) ≠ j := fun seven => unnamed (.inr ⟨seven.symm, v, rfl⟩)
      exact get_set_other s.a _ other
    case pc => exact absurd (.inr ⟨v, rfl⟩) unnamed
    case supervisor => exact absurd (.inr (.inr ⟨v, rfl⟩)) unnamed
    all_goals rfl
  case setD i e =>
    cases part
    case d j => exact get_set_other s.d _ fun same => unnamed ⟨e, by rw [same]⟩
    all_goals rfl
  case setA i e =>
    cases part
    case a j => exact get_set_other s.a _ fun same => unnamed (.inl ⟨e, by rw [same]⟩)
    all_goals rfl
  -- Of the others each part is one they name or one they leave out of the record they write.
  all_goals cases part <;> simp_all [EnginePart.NamedBy, EnginePart.Same, handlerStep]

/-- What no action of a run names, the run up to its end leaves as it was. -/
theorem handlerEnd_same {s : State} (silent : s.SilentBus) (op : HalfWord) (p : HandlerProg) (part : EnginePart)
    (unnamed : ∀ act ∈ handlerDone op p s, ¬ part.NamedBy act) : part.Same s (handlerEnd op p [] s) :=
  handlerEnd_rel (R := fun s t => part.Same s t) EnginePart.Same.trans
    (fun s events => EnginePart.same_bus s events s.mem part) op p [] s silent
    fun m hm quiet => handlerStep_same quiet op m.temps (unnamed m.act (List.mem_map_of_mem hm))

/-- The bill names `remaining` only, and a hang no part. -/
theorem closeRun_same (cost : Option Int) (s : State) {part : EnginePart} (other : part ≠ .remaining) :
    part.Same s (closeRun cost s) := by
  cases part
  case remaining => exact absurd rfl other
  all_goals cases cost <;> rfl

/-! ## The bytes a run stores to -/

/-- Memory stays canonical, and a byte outside every store of the action keeps its value. -/
def ByteKept (y : Nat) (s t : State) : Prop :=
  s.mem.wf = true → t.mem.wf = true ∧ t.mem.byteAt y = s.mem.byteAt y

theorem ByteKept.trans {y : Nat} {s t u : State} (h : ByteKept y s t) (k : ByteKept y t u) :
    ByteKept y s u := fun wf => by
  obtain ⟨wf', e⟩ := h wf
  obtain ⟨wf'', e'⟩ := k wf'
  exact ⟨wf'', e'.trans e⟩

/-- R184: an action on a silent bus changes no byte outside its own stores. -/
theorem handlerStep_byteKept {m : HandlerMoment} (silent : m.state.SilentBus) (op : HalfWord) {y : Nat}
    (outside : ∀ w ∈ momentStores op m, ∀ k < sizeBytes w.1, (w.2 + BitVec.ofNat 32 k).toNat ≠ y) :
    ByteKept y m.state (handlerStep op m.temps m.act m.state) := by
  obtain ⟨act, temps, s⟩ := m
  cases act
  case write size x e =>
    intro wf
    rw [handlerStep, busWrite_silent silent]
    obtain ⟨wf', kept⟩ := lossyStore_spec size _ _ wf _
    exact ⟨wf', kept y (outside _ (List.mem_singleton_self _))⟩
  case raiseException v =>
    intro wf
    obtain ⟨events, pc, mem, e, -, kept⟩ := takeException_silent silent v
    have long := outside _ (List.mem_cons_self ..)
    have word := outside _ (List.mem_cons_of_mem _ (List.mem_singleton_self _))
    rw [handlerStep, e]
    exact ⟨(kept wf).1, (kept wf).2 y long word⟩
  all_goals exact fun wf => ⟨wf, rfl⟩

theorem handlerEnd_byteKept {s : State} (silent : s.SilentBus) (op : HalfWord) (p : HandlerProg) {y : Nat}
    (outside : ∀ w ∈ handlerStores op p s, ∀ k < sizeBytes w.1, (w.2 + BitVec.ofNat 32 k).toNat ≠ y) :
    ByteKept y s (handlerEnd op p [] s) :=
  handlerEnd_rel (R := ByteKept y) ByteKept.trans (fun _ _ wf => ⟨wf, rfl⟩) op p [] s silent fun m hm quiet =>
    handlerStep_byteKept quiet op fun w hw => outside w (List.mem_flatMap.2 ⟨m, hm, hw⟩)

/-! ## The call of a handler -/

/-- What no action of the call names is left as it was; of `remaining` the bill is left out here. -/
theorem callHandler_same {s : State} (silent : s.SilentBus) (op : HalfWord) (id : Nat) {part : EnginePart}
    (other : part ≠ .remaining)
    (unnamed : ∀ act ∈ handlerDone op (handlerProg id op s) (enterHandler id s), ¬ part.NamedBy act) :
    part.Same (enterHandler id s) (callHandler id op s) := by
  rw [callHandler, runHandler_eq_closeRun]
  exact (handlerEnd_same (s := enterHandler id s) silent op _ part unnamed).trans (closeRun_same _ _ other)

/-- Settles O18: on any bus by the confinement of a call, on a silent one part by part. -/
theorem externalHandlerFrame : Obligations.ExternalHandlerFrame := by
  intro s t op id slot h
  rw [exec_external slot] at h
  cases h
  have kept := callHandler_confined id op s
  refine ⟨⟨⟨kept.table, kept.tableBuilt, kept.params⟩, kept.clockMult, kept.inExecute, kept.cmds,
    kept.result, kept.hookRuns⟩, fun silent => ?_⟩
  have same {part : EnginePart} := callHandler_same silent op id (part := part)
  have control := same (part := .control) nofun fun _ _ => not_false
  simp only [EnginePart.Same, Prod.mk.injEq] at control
  obtain ⟨debt, budget, level, pending, latched, halt, acks, answer⟩ := control
  refine ⟨debt, budget, level, pending, latched, halt, acks, answer, fun j noD => ?_, fun j noA noFrame => ?_,
    fun noMask noSR => ?_, fun noCc noSR => ?_, fun noTrace noSR => ?_, fun noSup noSR noFrame => ?_,
    fun noPc noFrame => ?_, fun noSet noStop => ?_, fun noStop => ?remaining, fun wf y outside => ?memory⟩
  · exact same (part := .d j) nofun (by rintro _ m ⟨e, rfl⟩; exact noD e m)
  · exact same (part := .a j) nofun
      (by rintro _ m (⟨e, rfl⟩ | ⟨seven, v, rfl⟩); exacts [noA e m, noFrame seven v m])
  · exact same (part := .mask) nofun (by rintro _ m (⟨e, rfl⟩ | ⟨e, rfl⟩); exacts [noMask e m, noSR e m])
  · exact same (part := .cc) nofun (by rintro _ m (⟨e, rfl⟩ | ⟨e, rfl⟩); exacts [noCc e m, noSR e m])
  · exact same (part := .trace) nofun (by rintro _ m (⟨e, rfl⟩ | ⟨e, rfl⟩); exacts [noTrace e m, noSR e m])
  · exact same (part := .supervisor) nofun
      (by rintro _ m (⟨e, rfl⟩ | ⟨e, rfl⟩ | ⟨v, rfl⟩); exacts [noSup e m, noSR e m, noFrame v m])
  · exact same (part := .pc) nofun (by rintro _ m (⟨e, rfl⟩ | ⟨v, rfl⟩); exacts [noPc e m, noFrame v m])
  · exact same (part := .stopped) nofun (by rintro _ m (⟨b, rfl⟩ | rfl); exacts [noSet b m, noStop m])
  case remaining =>
    have unbilled := handlerEnd_same (s := enterHandler id s) silent op (handlerProg id op s) .remaining
      (by rintro _ m rfl; exact noStop m)
    rw [callHandler, runHandler_eq_closeRun, closeRun_remaining]
    exact congrArg (· - _) unbilled
  case memory =>
    have kept := handlerEnd_byteKept (s := enterHandler id s) silent op (handlerProg id op s) outside wf
    rw [State.byteAt, callHandler, runHandler_eq_closeRun, closeRun_mem]
    exact kept.2

end Sys2Proof.Machine
end

section
/-! SUPPORT. One iteration of the execution loop (41_execution_loop.md R132 to R139): the loop test and the
two returns, the order of an iteration's parts under both settings of LOOP_TEST, and the word at the pc. -/

namespace Sys2Proof.Machine

/-! ## The loop test and the two returns -/

/-- R138: the loop test after the body, in one condition. -/
theorem loopEnd_eq (s : State) :
    loopEnd s =
      if s.hung = false ∧ s.params.loopTest = .after ∧ s.remaining ≤ 0 then normalReturn s else s := by
  unfold loopEnd
  cases s.hung <;> cases s.params.loopTest <;> simp

/-- R138: while `remaining` is positive the loop goes on. -/
theorem loopEnd_goesOn {s : State} (positive : 0 < s.remaining) : loopEnd s = s := by
  rw [loopEnd_eq, if_neg]
  rintro ⟨-, -, used⟩
  omega

/-- R139: where it is not, the quantum ends. -/
theorem loopEnd_ends {s : State} (live : s.hung = false) (after : s.params.loopTest = .after)
    (used : s.remaining ≤ 0) : loopEnd s = normalReturn s := by
  rw [loopEnd_eq, if_pos ⟨live, after, used⟩]

theorem endsBefore_after {s : State} (after : s.params.loopTest = .after) : endsBefore s = false := by
  simp [endsBefore, after]

/-- R138, D12: where the loop test stands before the body, it is the test of `remaining`. -/
theorem endsBefore_before {s : State} (before : s.params.loopTest = .before) :
    endsBefore s = decide (s.remaining ≤ 0) := by
  simp [endsBefore, before]

section
variable {s : State} (inside : s.inExecute = true) (live : s.hung = false)
include inside live

theorem step_endsBefore (ends : endsBefore s = true) : step s = .next (normalReturn s) := by
  simp [step_inside inside live, coreStep, ends]

variable (goes : endsBefore s = false)
include goes

/-- R133: the halt request, seen where the loop test before the body lets the iteration begin. -/
theorem step_halts (halt : s.haltReq = true) : step s = .next (haltReturn s) := by
  simp [step_inside inside live, coreStep, goes, halt]

variable (noHalt : s.haltReq = false)
include noHalt

/-- R134 to R138: the pending interrupt, the hook, the fetch, the dispatch, the loop test. -/
theorem step_dispatches : step s = dispatchAt (boundary s) := by
  simp [step_inside inside live, coreStep, goes, noHalt]

/-- The instruction runs at the state the fetch leaves, and what it leaves meets the loop test, under
the parameters the iteration began with. -/
theorem step_of_exec {t : State}
    (h : exec (decodeWord s.table (fetchWord (boundary s))) (afterFetch (boundary s)) = .next t) :
    step s = .next (loopEnd t) ∧ t.params = s.params := by
  have run := h
  rw [← afterFetch_boundary_table s] at run
  refine ⟨?_, ?_⟩
  · rw [step_dispatches inside live goes noHalt, dispatchAt, run, closeIteration]
  · have word := exec_word_confined (decodeWord_isWord _ _) run
    have before := (boundary_confined s).trans (afterRead_confined requestIRQ_confined (boundary s))
    exact word.params.trans before.params

end

/-- Settles O6: the parts in the order of `step_of_exec`, then the loop test after the body. -/
theorem iterationPartsComeInOrder : Obligations.IterationPartsComeInOrder := by
  intro s inside live noHalt after b i t run
  obtain ⟨stepped, params⟩ := step_of_exec inside live (endsBefore_after after) noHalt run
  rw [stepped, loopEnd_eq, params, after]
  simp only [true_and]

/-- Settles O59: the loop test before the body, then as in `step_of_exec`, and nothing tests after. -/
theorem loopTestBeforeTheBody : Obligations.LoopTestBeforeTheBody := by
  intro s inside live before
  have goes (positive : 0 < s.remaining) : endsBefore s = false := by
    simpa [endsBefore_before before] using positive
  refine ⟨fun used => ?ends, fun positive halt => step_halts inside live (goes positive) halt,
    fun positive noHalt => ?runs⟩
  case ends =>
    rw [step_endsBefore inside live (by simpa [endsBefore_before before] using used)]
    rfl
  case runs =>
    intro b t run
    obtain ⟨stepped, params⟩ := step_of_exec inside live (goes positive) noHalt run
    have untested : loopEnd t = t := by simp [loopEnd_eq, params, before]
    rw [stepped, untested]

/-- Settles O31, by the loop test and the normal end in either order. -/
theorem quantumEndsWhenTheBudgetIsUsed : Obligations.QuantumEndsWhenTheBudgetIsUsed := by
  intro s live after
  refine ⟨fun positive => ?goesOn, fun used order => ?count, fun used order => ?discharge⟩
  case goesOn => rw [closeIteration, loopEnd_goesOn positive]
  case count => rw [closeIteration, loopEnd_ends live after used, normalReturn, order, descale]
  case discharge => rw [closeIteration, loopEnd_ends live after used, normalReturn, order, descale]

/-! ## The word at the pc -/

/-- R90, R136: under the default BUS the two bytes at the pc and after it, in the order of the BUS. -/
theorem fetchWord_default {s : State} (quiet : s.busEvents = []) :
    fetchWord s = s.byteAt (laneAddress s.params.byteOrder 2 1 s.pc) ++
      s.byteAt (laneAddress s.params.byteOrder 2 0 s.pc) := by
  rw [fetchWord, busAnswer_default quiet]
  simp [State.load, Memory.load, State.byteAt]

/-- The decoder on those two bytes is the decoder on the fetched word. -/
theorem decodeBytes_at_pc {s : State} (quiet : s.busEvents = []) :
    decodeBytes s.params.byteOrder s.table [s.byteAt s.pc.toNat, s.byteAt (s.pc + 1).toNat] =
      .ok (decodeWord s.table (fetchWord s), []) := by
  rw [fetchWord_default quiet]
  cases s.params.byteOrder <;> simp [decodeBytes, laneAddress]

/-- Settles O5, by the step at a plain boundary (`step_plain`). -/
theorem stepRunsTheWordAtThePc : Obligations.StepRunsTheWordAtThePc := by
  intro s i rest plain decoded
  have ⟨_, _, _, _, _, quiet, _⟩ := plain
  rw [decodeBytes_at_pc quiet] at decoded
  cases decoded
  rw [step_plain plain]
  cases exec (decodeWord s.table (fetchWord s)) s with
  | next t => exact congrArg Host.Outcome.next (loopEnd_eq t)
  | fault f => rfl
  | refused r => rfl

/-! ## What `withFetchWord` places (log entry 26) -/

/-- The state with the word placed has nothing to do before its fetch. -/
theorem step_withFetchWord_word (s : State) (w : Nat) :
    step (s.withFetchWord 16 w) = closeIteration
      (exec (decodeWord s.table (fetchWord (s.withFetchWord 16 w))) (s.withFetchWord 16 w)) := by
  have goes : endsBefore (s.withFetchWord 16 w) = false := by
    cases test : s.params.loopTest with
    | after => exact endsBefore_after test
    | before =>
      rw [endsBefore_before (s := s.withFetchWord 16 w) test]
      simp [State.withFetchWord, test]
  have fetched : afterFetch (s.withFetchWord 16 w) = s.withFetchWord 16 w := afterRead_default rfl
  rw [step_dispatches rfl rfl goes rfl, boundary_plain rfl rfl, dispatchAt, fetched]
  rfl

/-- The placed word is the one fetched: a word read back where it was stored. -/
theorem fetchWord_withFetchWord {s : State} (wf : s.mem.wf = true) {w : Nat} (small : w < 65536) :
    fetchWord (s.withFetchWord 16 w) = BitVec.ofNat 16 w := by
  have fits : (BitVec.ofNat 32 w).toNat < 2 ^ 16 := by
    rw [BitVec.toNat_ofNat]
    omega
  have stored : (s.withFetchWord 16 w).load .word s.pc = BitVec.ofNat 32 w :=
    (load_store_same s.params.byteOrder .word s.pc _ wf).trans (truncateTo_word_of_lt fits)
  have answer : busAnswer .word s.pc (s.withFetchWord 16 w) = BitVec.ofNat 32 w :=
    (busAnswer_default rfl .word s.pc).trans stored
  refine (congrArg (BitVec.setWidth 16) answer).trans (BitVec.eq_of_toNat_eq ?_)
  simp [Nat.mod_eq_of_lt small]

/-- A command row that decodes is a transaction that decodes. -/
theorem decodeCommand_of_tableWord {w : Nat} {i : Instr} (h : decodeTableWord 8 w = some i) :
    decodeCommand (zeroOperandCommand (BitVec.ofNat 8 w)) = .ok i := by
  have row : w < 256 ∧ (decodeCommand (zeroOperandCommand (BitVec.ofNat 8 w))).toOption = some i := by
    simpa [decodeTableWord] using h
  cases decoded : decodeCommand (zeroOperandCommand (BitVec.ofNat 8 w)) with
  | ok j => simpa [decoded, Except.toOption] using row.2
  | error e => simp [decoded, Except.toOption] at row

/-- Settles O9: the placed word is the fetched one, the placed command the one at the head. -/
theorem placedWordIsTheNextInstruction : Obligations.PlacedWordIsTheNextInstruction := by
  intro s w wf
  refine ⟨fun small => ?word, fun i decoded => ?command⟩
  case word => rw [step_withFetchWord_word, fetchWord_withFetchWord wf small]
  case command =>
    rw [step_outside (s := s.withFetchWord 8 w) rfl]
    exact hostStep_command rfl (decodeCommand_of_tableWord decoded)

end Sys2Proof.Machine
end

section
/-! SUPPORT. HOST's commands around a quantum (41_execution_loop.md R130, R131, R133, R141 to R150): the
start of a quantum and its two early returns, the timeslice, clock and debug commands. -/

namespace Sys2Proof.Machine

/-- Settles O28, by the stopped path of `execute`. -/
theorem stoppedExecuteReturnsItsBudget : Obligations.StoppedExecuteReturnsItsBudget :=
  fun _ _ built outside stopped budget => exec_execute_stopped built outside budget stopped

/-- Settles O29, by the start of a quantum. -/
theorem executeBeginsAQuantum : Obligations.ExecuteBeginsAQuantum :=
  fun _ _ built outside awake budget => exec_execute_begins built outside budget awake

/-- Settles O30: the halt return (`step_halts`), at any boundary and at the first one of a quantum. -/
theorem haltRequestEndsTheQuantum : Obligations.HaltRequestEndsTheQuantum := by
  intro s halt live after
  refine ⟨fun inside => step_halts inside live (endsBefore_after after) halt,
    fun n u built outside awake budget begun => ?_⟩
  rw [exec_execute_begins built outside budget awake] at begun
  cases begun
  have consumed : n * s.clockMult - (n * s.clockMult - s.interruptCycles) = s.interruptCycles := by omega
  refine ⟨haltReturn (beginQuantum n s), step_halts rfl live (endsBefore_after after) halt, ?_,
    rfl, rfl, halt, rfl, rfl, rfl⟩
  simp only [haltReturn, descale, beginQuantum, consumed]

/-- R236: once the table is built, none of the nine commands is refused for it. -/
theorem afterFirstReset_built {s : State} (built : s.tableBuilt = true) (k : State → State) :
    afterFirstReset s k = .next (k s) := by
  simp [afterFirstReset, built]

/-- R143 under the setting that replaces the budget. -/
theorem modifySlice_set {s : State} (mode : s.params.modifyTimesliceMode = .set) (c : Int) :
    modifySlice c s = { s with remaining := c * s.clockMult } := by
  simp only [modifySlice, mode]

/-- R143 under the setting that extends it. -/
theorem modifySlice_add {s : State} (mode : s.params.modifyTimesliceMode = .add) (c : Int) :
    modifySlice c s = { s with
      remaining     := s.remaining + c * s.clockMult
      quantumBudget := s.quantumBudget + c * s.clockMult } := by
  simp only [modifySlice, mode]

/-- Settles O34: the four commands with the table built, `modifyTimeslice` by its setting. -/
theorem timesliceCommandsReadAndSteerTheBudget : Obligations.TimesliceCommandsReadAndSteerTheBudget := by
  intro s c built
  refine ⟨afterFirstReset_built built _, afterFirstReset_built built _, fun mode => ?set, fun mode => ?add,
    afterFirstReset_built built fun s => replyNone (endSlice s)⟩
  case set =>
    rw [exec, execModifyTimeslice, afterFirstReset_built built, modifySlice_set mode]
    rfl
  case add =>
    rw [exec, execModifyTimeslice, afterFirstReset_built built, modifySlice_add mode]
    rfl

/-- R147: outside a quantum the multiplier is stored, clamped to at least 1. -/
theorem exec_setClockMultiplier {s : State} (outside : s.inExecute = false) (v : Int) :
    exec (.setClockMultiplier v) s = .next (replyNone { s with clockMult := max v 1 }) := by
  simp [exec, execSetClockMultiplier, outside]

/-- Settles O35: the stored multiplier (`exec_setClockMultiplier`) is the one answered. -/
theorem clockMultiplierIsClampedAndReadsBack : Obligations.ClockMultiplierIsClampedAndReadsBack := by
  intro s v
  refine ⟨rfl, fun outside => ?_⟩
  have clamped : max v 1 = if v < 1 then 1 else v := by split <;> omega
  rw [exec_setClockMultiplier outside, clamped]
  refine ⟨rfl, fun t stored => ?_⟩
  cases stored
  rfl

/-- Settles O36: each command writes one value, and writing it again changes nothing. -/
theorem debugCommandsSetAndClearTheRequest : Obligations.DebugCommandsSetAndClearTheRequest := by
  refine fun s => ⟨rfl, rfl, fun t halted => ?_, fun t resumed => ?_⟩
  · cases halted; rfl
  · cases resumed; rfl

end Sys2Proof.Machine
end

section
/-! SUPPORT. A whole quantum (41_execution_loop.md R138 to R140, R152): under the default BUS a dispatch
whose handler returns leaves a plain boundary and its cost taken from `remaining`, so a run of the machine
is the sequence of dispatches up to the first that uses the budget up. -/

namespace Sys2Proof.Machine

/-! ## The default BUS stays the default BUS -/

theorem handlerStep_busEvents {s : State} (quiet : s.busEvents = []) (op : HalfWord) (temps : List Word)
    (act : HandlerAction) : (handlerStep op temps act s).busEvents = [] := by
  cases act
  case write size x e =>
    rw [handlerStep, busWrite_default quiet]
    exact quiet
  case raiseException v =>
    rw [handlerStep, takeException_default quiet]
    exact quiet
  all_goals exact quiet

theorem handlerEnd_busEvents (op : HalfWord) : ∀ (p : HandlerProg) (temps : List Word) {s : State},
    s.busEvents = [] → (handlerEnd op p temps s).busEvents = []
  | .returns _, _, _, quiet => quiet
  | .hangs, _, _, quiet => quiet
  | .act act rest, temps, _, quiet =>
    handlerEnd_busEvents op rest temps (handlerStep_busEvents quiet op temps act)
  | .read _ _ rest, _, _, quiet => by
    rw [handlerEnd, afterRead_default quiet]
    exact handlerEnd_busEvents op rest _ quiet
  | .choose _ yes no, temps, _, quiet => by
    rw [handlerEnd]
    split
    · exact handlerEnd_busEvents op yes temps quiet
    · exact handlerEnd_busEvents op no temps quiet

theorem silentBus_of_default {s : State} (quiet : s.busEvents = []) : s.SilentBus := by
  simp [State.SilentBus, quiet]

/-- Up to its end a run is confined: only a run that never returns hangs the machine. -/
theorem handlerEnd_confined {s : State} (silent : s.SilentBus) (op : HalfWord) (p : HandlerProg) :
    Confined s (handlerEnd op p [] s) :=
  handlerEnd_rel (R := Confined) Confined.trans (fun _ _ => .plain rfl rfl rfl rfl) op p [] s silent
    fun m _ _ => handlerStep_confined op m.temps m.act m.state

/-! ## One dispatch at a plain boundary -/

/-- What dispatches that cost `cost` in all keep of a quantum, from one plain boundary to another. -/
structure Dispatched (cost : Int) (s t : State) : Prop where
  plain           : t.PlainBoundary
  remaining       : t.remaining = s.remaining - cost
  interruptCycles : t.interruptCycles = s.interruptCycles
  quantumBudget   : t.quantumBudget = s.quantumBudget
  clockMult       : t.clockMult = s.clockMult
  cmds            : t.cmds = s.cmds

theorem Dispatched.none {s : State} (plain : s.PlainBoundary) : Dispatched 0 s s :=
  ⟨plain, (Int.sub_zero _).symm, rfl, rfl, rfl, rfl⟩

theorem Dispatched.trans {b c : Int} {s t u : State} (h : Dispatched b s t) (k : Dispatched c t u) :
    Dispatched (b + c) s u :=
  ⟨k.plain, by rw [k.remaining, h.remaining]; omega, k.interruptCycles.trans h.interruptCycles,
    k.quantumBudget.trans h.quantumBudget, k.clockMult.trans h.clockMult, k.cmds.trans h.cmds⟩

section
variable {s : State} (plain : s.PlainBoundary)
include plain

/-- R120: an illegal word costs its fixed charge. -/
theorem illegalOpcode_dispatched (vector : Byte) :
    Dispatched s.params.illegalOpcodeCycles s (illegalOpcode vector s) := by
  have ⟨_, _, _, _, _, quiet, _⟩ := plain
  rw [illegalOpcode_default quiet]
  exact ⟨plain, rfl, rfl, rfl, rfl, rfl⟩

/-- R115: a handler that returns without the action of R119 costs what it returns. -/
theorem callHandler_dispatched {id : Nat} {op : HalfWord} {cost : Int}
    (returned : handlerCost op (handlerProg id op s) [] (enterHandler id s) = some cost)
    (noStop : .stop ∉ handlerDone op (handlerProg id op s) (enterHandler id s)) :
    Dispatched cost s (callHandler id op s) := by
  obtain ⟨inside, live, noHalt, noIrq, noHook, quiet, after⟩ := plain
  have silent : (enterHandler id s).SilentBus := silentBus_of_default quiet
  rw [callHandler, runHandler_eq_closeRun, returned]
  have kept := handlerEnd_confined silent op (handlerProg id op s)
  have same {part : EnginePart} := handlerEnd_same silent op (handlerProg id op s) part
  have control := same (part := .control) fun _ _ => not_false
  have unbilled := same (part := .remaining) (by rintro _ m rfl; exact noStop m)
  simp only [EnginePart.Same, Prod.mk.injEq] at control
  obtain ⟨debt, budget, -, pending, -, halt, -, -⟩ := control
  refine ⟨⟨kept.inExecute.trans inside, kept.hung.trans live, halt.trans noHalt, pending.trans noIrq,
    kept.hookRuns.trans noHook, handlerEnd_busEvents op _ _ quiet, ?_⟩,
    congrArg (· - cost) unbilled, debt, budget, kept.clockMult, kept.cmds⟩
  exact (congrArg Params.loopTest kept.params).trans after

end

/-! ## A sequence of dispatches -/

/-- A fetched word goes on, so one dispatch is its instruction. -/
theorem exec_fetched (s : State) :
    exec (decodeWord s.table (fetchWord s)) s = .next (afterDispatches 1 s) := by
  obtain ⟨t, run⟩ := isWord_goes (decodeWord_isWord s.table (fetchWord s)) s
  simp only [afterDispatches, run]

theorem afterDispatches_succ (n : Nat) (s : State) :
    afterDispatches (n + 1) s = afterDispatches n (afterDispatches 1 s) := by
  rw [afterDispatches, exec_fetched]

/-- The last dispatch of a sequence. -/
theorem afterDispatches_snoc : ∀ (n : Nat) (s : State),
    afterDispatches (n + 1) s = afterDispatches 1 (afterDispatches n s)
  | 0, _ => rfl
  | n + 1, s => by rw [afterDispatches_succ, afterDispatches_snoc n, ← afterDispatches_succ]

theorem afterDispatches_one_of_exec {s t : State}
    (run : exec (decodeWord s.table (fetchWord s)) s = .next t) : afterDispatches 1 s = t := by
  rw [exec_fetched] at run
  cases run
  rfl

/-- An illegal word at the pc runs the illegal-opcode handler, whatever its vector. -/
theorem afterDispatches_one_illegal {s : State} (slot : s.table.lookup (fetchWord s) = .illegal) :
    ∃ vector, afterDispatches 1 s = illegalOpcode vector s := by
  obtain ⟨entry, kind⟩ := illegalKind_decodeWord_iff.2 slot
  obtain ⟨vector, -, run⟩ := exec_illegalKind kind s
  exact ⟨vector, afterDispatches_one_of_exec run⟩

theorem afterDispatches_one_external {s : State} {id : Nat}
    (slot : s.table.lookup (fetchWord s) = .external id) :
    afterDispatches 1 s = callHandler id (fetchWord s) s := by
  have external : s.table.lookup (fetchWord s) ≠ .illegal := by rw [slot]; nofun
  refine afterDispatches_one_of_exec ?_
  rw [decodeWord_external external, exec_external slot]

/-- R115, R120: a dispatch bills its cost and leaves a plain boundary. -/
theorem afterDispatches_one_dispatched {s : State} (plain : s.PlainBoundary) {cost : Int}
    (billed : dispatchCost s = some cost) (noStop : .stop ∉ dispatchDone s) :
    Dispatched cost s (afterDispatches 1 s) := by
  unfold dispatchCost at billed
  unfold dispatchDone at noStop
  cases slot : s.table.lookup (fetchWord s) with
  | illegal =>
    rw [slot] at billed
    cases billed
    obtain ⟨vector, run⟩ := afterDispatches_one_illegal slot
    exact run ▸ illegalOpcode_dispatched plain vector
  | external id =>
    rw [slot] at billed noStop
    exact afterDispatches_one_external slot ▸ callHandler_dispatched plain billed noStop

/-- The dispatches from `s` onward cost the listed costs, and none of them zeroes `remaining` (R119). -/
def Bills (costs : List Int) (s : State) : Prop :=
  ∀ j, j < costs.length →
    dispatchCost (afterDispatches j s) = costs[j]? ∧ .stop ∉ dispatchDone (afterDispatches j s)

section
variable {s : State} {costs : List Int} (plain : s.PlainBoundary) (bills : Bills costs s)
include plain bills

/-- Dispatches cost the sum of their costs. -/
theorem afterDispatches_dispatched : ∀ {j : Nat}, j ≤ costs.length →
    Dispatched (costs.take j).sum s (afterDispatches j s)
  | 0, _ => .none plain
  | j + 1, listed => by
    have before := afterDispatches_dispatched (j := j) (by omega)
    obtain ⟨billed, noStop⟩ := bills j listed
    rw [List.getElem?_eq_getElem listed] at billed
    rw [List.sum_take_succ _ _ listed, afterDispatches_snoc]
    exact before.trans (afterDispatches_one_dispatched before.plain billed noStop)

/-- A step after `j` dispatches is one more dispatch and the loop test. -/
theorem step_afterDispatches {j : Nat} (listed : j ≤ costs.length) :
    step (afterDispatches j s) = .next (loopEnd (afterDispatches (j + 1) s)) := by
  rw [step_plain (afterDispatches_dispatched plain bills listed).plain, exec_fetched,
    ← afterDispatches_snoc]
  rfl

variable (unused : ∀ j, 1 ≤ j → j < costs.length → (costs.take j).sum < s.remaining)
include unused

/-- R138: while the costs so far have not reached `remaining`, the steps are the dispatches. -/
theorem run_afterDispatches : ∀ {j : Nat}, j < costs.length →
    Host.Core.run core j s = .next (afterDispatches j s)
  | 0, _ => rfl
  | j + 1, listed => by
    have reached := afterDispatches_dispatched plain bills (j := j + 1) (by omega)
    have positive : 0 < (afterDispatches (j + 1) s).remaining := by
      have := unused (j + 1) (by omega) listed
      rw [reached.remaining]
      omega
    rw [run_snoc (run_afterDispatches (by omega)), step_afterDispatches plain bills (by omega),
      loopEnd_goesOn positive]
    rfl

/-- R139: the dispatch that uses the budget up is the last, and the quantum ends. -/
theorem run_to_normalReturn (nonempty : costs ≠ []) (used : s.remaining ≤ costs.sum) :
    Host.Core.run core costs.length s = .next (normalReturn (afterDispatches costs.length s)) := by
  have reached := afterDispatches_dispatched plain bills le_rfl
  rw [List.take_length] at reached
  obtain ⟨-, live, -, -, -, -, after⟩ := reached.plain
  have spent : (afterDispatches costs.length s).remaining ≤ 0 := by
    rw [reached.remaining]
    omega
  obtain ⟨k, last⟩ := Nat.exists_eq_succ_of_ne_zero (List.length_pos_of_ne_nil nonempty).ne'
  rw [last] at live after spent ⊢
  rw [run_snoc (run_afterDispatches plain bills unused (by omega)),
    step_afterDispatches plain bills (by omega), loopEnd_ends live after spent]
  rfl

end

/-! ## `execute(N)` from a plain idle state -/

/-- R139 without debt: the two orders of counting and discharging agree. -/
theorem normalReturn_noDebt {s : State} (noDebt : s.interruptCycles = 0) :
    normalReturn s = { s with
      inExecute := false
      result    := some (.count ((s.quantumBudget - s.remaining).tdiv s.clockMult)) } := by
  simp only [normalReturn, descale, noDebt, Int.sub_zero]
  cases s.params.endOfQuantumOrder <;> cases s <;> simp_all

/-- The quantum `execute(N)` begins, with the command taken from HOST's queue (R131). -/
abbrev begun (n : Int) (rest : List CmdPacket) (s : State) : State := beginQuantum n { s with cmds := rest }

section
variable {s : State} {n : Int} {rest : List CmdPacket} (idle : s.PlainIdle)
include idle

theorem begun_plain : (begun n rest s).PlainBoundary := by
  obtain ⟨-, -, live, -, noHalt, noIrq, -, noHook, quiet, after, -⟩ := idle
  exact ⟨rfl, live, noHalt, noIrq, noHook, quiet, after⟩

theorem begun_remaining : (begun n rest s).remaining = n * s.clockMult := by
  obtain ⟨-, -, -, -, -, -, noDebt, -⟩ := idle
  simp [beginQuantum, noDebt]

variable (budget : 0 ≤ n)
include budget

/-- The first step takes `execute(N)` from the queue and begins the quantum. -/
theorem run_execute (k : Nat) :
    Host.Core.run core (k + 1) { s with cmds := ⟨1, [n]⟩ :: rest } =
      Host.Core.run core k (begun n rest s) := by
  obtain ⟨built, outside, -, awake, -⟩ := idle
  have begins : step { s with cmds := ⟨1, [n]⟩ :: rest } = .next (begun n rest s) := by
    rw [step_outside (by exact outside), hostStep_command (i := .execute n) rfl rfl]
    exact exec_execute_begins (s := { s with cmds := rest }) built outside budget awake
  rw [run_succ, begins]

variable {costs : List Int} (bills : Bills costs (begun n rest s))
  (unused : ∀ j, 1 ≤ j → j < costs.length → (costs.take j).sum < n * s.clockMult)
include bills unused

/-- Before the last dispatch of the quantum has been made, `execute` is in progress. -/
theorem run_execute_inside {j : Nat} (started : 1 ≤ j) (listed : j ≤ costs.length) :
    ∃ t, Host.Core.run core j { s with cmds := ⟨1, [n]⟩ :: rest } = .next t ∧ t.inExecute = true := by
  have plain : (begun n rest s).PlainBoundary := begun_plain idle
  have start : (begun n rest s).remaining = n * s.clockMult := begun_remaining idle
  obtain ⟨i, rfl⟩ := Nat.exists_eq_add_of_le' started
  obtain ⟨inside, -⟩ := (afterDispatches_dispatched plain bills (j := i) (by omega)).plain
  rw [run_execute idle budget]
  exact ⟨_, run_afterDispatches plain bills (start ▸ unused) listed, inside⟩

/-- R152: the dispatch whose cost reaches the budget is the last, and the answer is the sum. -/
theorem run_execute_ends (nonempty : costs ≠ []) (used : n * s.clockMult ≤ costs.sum) :
    let last := afterDispatches costs.length (begun n rest s)
    Host.Core.run core (costs.length + 1) { s with cmds := ⟨1, [n]⟩ :: rest } = .next { last with
      inExecute := false
      result    := some (.count (costs.sum.tdiv s.clockMult)) } ∧
    last.cmds = rest ∧ last.remaining = n * s.clockMult - costs.sum := by
  intro last
  have plain : (begun n rest s).PlainBoundary := begun_plain idle
  have start : (begun n rest s).remaining = n * s.clockMult := begun_remaining idle
  have reached := afterDispatches_dispatched plain bills le_rfl
  rw [List.take_length] at reached
  have remaining : last.remaining = n * s.clockMult - costs.sum := start ▸ reached.remaining
  have consumed : last.quantumBudget - last.remaining = costs.sum := by
    rw [reached.quantumBudget, remaining]
    simp [beginQuantum]
  refine ⟨?_, reached.cmds, remaining⟩
  rw [run_execute idle budget, run_to_normalReturn plain bills (start ▸ unused) nonempty (start ▸ used),
    normalReturn_noDebt reached.interruptCycles, consumed, reached.clockMult]
  rfl

end

/-- Settles O33, by the end of a quantum with listed costs (`run_execute_ends`). -/
theorem quantumChargesTheSumOfHandlerCosts : Obligations.QuantumChargesTheSumOfHandlerCosts := by
  intro s n costs rest idle budget nonempty after bills used unused
  obtain ⟨run, cmds, remaining⟩ := run_execute_ends idle budget bills unused nonempty used
  exact ⟨_, run, rfl, cmds, rfl, remaining, ⟨rfl, rfl⟩, ⟨rfl, rfl, rfl, rfl⟩, rfl, rfl⟩

/-! ## A quantum of illegal words -/

theorem afterDispatches_sameTable : ∀ (j : Nat) (s : State), SameTable s (afterDispatches j s)
  | 0, _ => ⟨rfl, rfl, rfl⟩
  | j + 1, s => by
    have one := exec_word_confined (decodeWord_isWord _ _) (exec_fetched s)
    obtain ⟨table, built, params⟩ := afterDispatches_sameTable j (afterDispatches 1 s)
    rw [afterDispatches_succ]
    exact ⟨table.trans one.table, built.trans one.tableBuilt, params.trans one.params⟩

section
variable {s : State} (illegal : ∀ op, s.table.lookup op = .illegal)
include illegal

/-- R120: under a table with no external slot every dispatch costs the fixed charge. -/
theorem bills_illegal (k : Nat) : Bills (List.replicate k s.params.illegalOpcodeCycles) s := by
  intro j listed
  obtain ⟨table, -, params⟩ := afterDispatches_sameTable j s
  have slot : (afterDispatches j s).table.lookup (fetchWord (afterDispatches j s)) = .illegal := by
    rw [table, illegal]
  rw [List.length_replicate] at listed
  simp [dispatchCost, dispatchDone, slot, params, listed]

/-- R184: and every dispatch pushes one frame. -/
theorem stackPointer_afterDispatches (plain : s.PlainBoundary) : ∀ k : Nat,
    (afterDispatches k s).a.get 7 = s.a.get 7 - BitVec.ofNat 32 (6 * k)
  | 0 => by simp [afterDispatches]
  | k + 1 => by
    have before := afterDispatches_dispatched plain (bills_illegal illegal k) (j := k) (by simp)
    have ⟨_, _, _, _, _, quiet, _⟩ := before.plain
    obtain ⟨vector, run⟩ := afterDispatches_one_illegal (s := afterDispatches k s)
      (by rw [(afterDispatches_sameTable k s).1, illegal])
    have frame : (illegalOpcode vector (afterDispatches k s)).a.get 7 = (afterDispatches k s).a.get 7 - 6 := by
      rw [illegalOpcode_default quiet]
      exact stackPointer_setA_seven _ _
    rw [afterDispatches_snoc, run, frame, stackPointer_afterDispatches plain k, Nat.mul_succ,
      BitVec.ofNat_add, ← BitVec.sub_sub]
    rfl

end

/-- Equal costs that stay below a budget before the last of them. -/
theorem sum_take_replicate_lt {c total : Int} {k : Nat} (positive : 1 ≤ c)
    (least : k = 1 ∨ c * ((k : Int) - 1) < total) {j : Nat} (started : 1 ≤ j) (early : j < k) :
    ((List.replicate k c).take j).sum < total := by
  have sum : ((List.replicate k c).take j).sum = c * j := by
    simp [List.take_replicate, early.le, mul_comm]
  have below : c * (j : Int) ≤ c * ((k : Int) - 1) := mul_le_mul_of_nonneg_left (by omega) (by omega)
  rw [sum]
  omega

/-- Settles O32: k equal costs, whose partial sums stay below the budget up to the last. -/
theorem illegalWordsQuantumIsCountedExactly : Obligations.IllegalWordsQuantumIsCountedExactly := by
  intro s n k rest idle budget illegal c positive one used least
  have bills : Bills (List.replicate k c) (begun n rest s) := bills_illegal (s := begun n rest s) illegal k
  have length : (List.replicate k c).length = k := List.length_replicate
  have total : (List.replicate k c).sum = c * k := by simp [mul_comm]
  have nonempty : List.replicate k c ≠ [] :=
    List.replicate_eq_nil_iff c |>.not.2 (by omega)
  have unused : ∀ j, 1 ≤ j → j < (List.replicate k c).length →
      ((List.replicate k c).take j).sum < n * s.clockMult :=
    fun j started early => sum_take_replicate_lt positive least started (length ▸ early)
  have ends := run_execute_ends idle budget bills unused nonempty (total ▸ used)
  rw [length, total] at ends
  obtain ⟨run, cmds, remaining⟩ := ends
  have stack := stackPointer_afterDispatches (s := begun n rest s) illegal (begun_plain idle) k
  exact ⟨⟨_, run, rfl, cmds, rfl, remaining, stack⟩,
    fun j started listed => run_execute_inside idle budget bills unused started (length.symm ▸ listed)⟩

end Sys2Proof.Machine
end

section
/-! SUPPORT. The status word as a map (42_register_access.md R161, R162): which bits of a word belong to
a field, packing after unpacking and unpacking after packing, and the number under the spec's own layout. -/

namespace Sys2Proof.Machine

/-! ## The field bits of a layout -/

/-- The places of the four fields. -/
theorem mem_positions {l : SrLayout} {k : Nat} :
    k ∈ l.positions ↔ k = l.traceBit ∨ k = l.supervisorBit ∨
      (l.maskShift ≤ k ∧ k - l.maskShift < 3) ∨ (l.ccShift ≤ k ∧ k - l.ccShift < l.ccBits) := by
  have placed (place width : Nat) :
      k ∈ (List.range width).map (place + ·) ↔ place ≤ k ∧ k - place < width := by
    simp only [List.mem_map, List.mem_range]
    exact ⟨fun ⟨i, hi, e⟩ => by omega, fun h => ⟨k - place, by omega, by omega⟩⟩
  simp only [SrLayout.positions, List.cons_append, List.mem_cons, List.mem_append, placed]

/-- A bit of a word made of single bits. -/
theorem getLsbD_foldr_twoPow {k : Nat} (hk : k < 16) : ∀ places : List Nat,
    (places.foldr (fun p w => BitVec.twoPow 16 p ||| w) 0).getLsbD k = decide (k ∈ places)
  | [] => by simp
  | p :: places => by
    rw [List.foldr_cons, BitVec.getLsbD_or, getLsbD_foldr_twoPow hk places]
    simp [hk]

theorem getLsbD_fieldBits (l : SrLayout) {k : Nat} (hk : k < 16) :
    l.fieldBits.getLsbD k = decide (k ∈ l.positions) :=
  getLsbD_foldr_twoPow hk l.positions

/-! ## Packing and unpacking -/

/-- A field cut out of a word and put back where it stood. -/
theorem placed_extracted (v : HalfWord) (place width k : Nat) :
    (decide (place ≤ k) && (decide (k - place < width) && v.getLsbD (place + (k - place)))) =
      (v.getLsbD k && decide (place ≤ k ∧ k - place < width)) := by
  by_cases above : place ≤ k
  · simp [above, Bool.and_comm]
  · simp [above]

/-- A flag read from its bit and put back there. -/
theorem placed_flag (v : HalfWord) (place k : Nat) :
    (decide (k = place) && v.getLsbD place) = (v.getLsbD k && decide (k = place)) := by
  by_cases here : k = place
  · simp [here]
  · simp [here]

/-- R162, then R161: packing keeps the field bits of what was unpacked. -/
theorem packSR_unpackSR (v : HalfWord) (s : State) :
    packSR (unpackSR v s) = v &&& s.params.srLayout.fieldBits := by
  refine BitVec.eq_of_getLsbD_eq fun k hk => ?_
  rw [getLsbD_packSR _ hk, unpackSR_params]
  simp only [unpackSR_trace, unpackSR_supervisor, unpackSR_mask, unpackSR_cc, ccField_ccField,
    getLsbD_ccField, BitVec.getLsbD_extractLsb', BitVec.getLsbD_ushiftRight, placed_flag, placed_extracted,
    BitVec.getLsbD_and, getLsbD_fieldBits _ hk, mem_positions, Bool.decide_or,
    Bool.and_or_distrib_left, Bool.or_assoc]

/-- R161, then R162: where the fields stand apart and cc is within its bits, each field comes back. -/
theorem unpackSR_packSR {s : State} (apart : FieldsApart s.params.srLayout)
    (narrow : s.params.srLayout.ccField s.cc = s.cc) : unpackSR (packSR s) s = s := by
  have mask : (packSR s).extractLsb' s.params.srLayout.maskShift 3 = s.mask :=
    BitVec.eq_of_getLsbD_eq fun i hi => by simp [hi, packSR_maskBit apart hi]
  have cc : s.params.srLayout.ccField (packSR s >>> s.params.srLayout.ccShift) = s.cc := by
    rw [← narrow]
    refine BitVec.eq_of_getLsbD_eq fun i _ => ?_
    by_cases hi : i < s.params.srLayout.ccBits
    · simp [getLsbD_ccField, hi, packSR_ccBit apart hi]
    · simp [getLsbD_ccField, hi]
  rw [unpackSR, packSR_traceBit apart, packSR_supervisorBit apart, mask, cc]

/-! ## The spec's own layout (log entry 7) -/

/-- A field placed in the status word counts from its place. -/
theorem toNat_placed {n : Nat} (v : BitVec n) {place : Nat} (fits : v.toNat * 2 ^ place < 2 ^ 16) :
    (v.setWidth 16 <<< place).toNat = v.toNat * 2 ^ place := by
  have narrow : v.toNat < 2 ^ 16 := (Nat.le_mul_of_pos_right _ (Nat.two_pow_pos place)).trans_lt fits
  rw [BitVec.toNat_shiftLeft, BitVec.toNat_setWidth, Nat.mod_eq_of_lt narrow, Nat.shiftLeft_eq,
    Nat.mod_eq_of_lt fits]

/-- A field over bits below its place adds to them. -/
theorem mul_two_pow_or {place low : Nat} (below : low < 2 ^ place) (n : Nat) :
    n * 2 ^ place ||| low = n * 2 ^ place + low := by
  rw [Nat.mul_comm, Nat.two_pow_add_eq_or_of_lt below]

section
variable {s : State} (standard : s.params.srLayout = Params.standard.srLayout)
include standard

theorem fieldBits_standard : s.params.srLayout.fieldBits = 0xA71F := by
  rw [standard]
  decide

/-- cc is within its five bits. -/
theorem ccField_standard (narrow : s.cc.toNat < 32) : s.params.srLayout.ccField s.cc = s.cc := by
  rw [standard]
  exact BitVec.eq_of_toNat_eq (Nat.and_two_pow_sub_one_of_lt_two_pow (n := 5) narrow)

/-- R161 as a number: T at bit 15, S at 13, the mask from 8, cc from 0. -/
theorem toNat_packSR_standard (narrow : s.cc.toNat < 32) :
    (packSR s).toNat =
      s.trace.toNat * 32768 + s.supervisor.toNat * 8192 + s.mask.toNat * 256 + s.cc.toNat := by
  have cc : s.params.srLayout.ccField s.cc = s.cc := ccField_standard standard narrow
  have trace := Bool.toNat_lt s.trace
  have supervisor := Bool.toNat_lt s.supervisor
  have mask := s.mask.isLt
  have places : Params.standard.srLayout = ⟨15, 13, 8, 0, 5⟩ := rfl
  rw [packSR, cc, standard, places, BitVec.or_assoc, BitVec.or_assoc]
  simp (disch := omega) only [BitVec.toNat_or, toNat_placed, BitVec.toNat_ofBool, BitVec.shiftLeft_zero,
    mul_two_pow_or]
  omega

end

/-- Settles O43: the three maps above. -/
theorem statusWordPacksItsFields : Obligations.StatusWordPacksItsFields := fun s v wf =>
  ⟨packSR_unpackSR v s, unpackSR_packSR (fieldsApart_of_wf wf),
    fun standard narrow => ⟨fieldBits_standard standard, toNat_packSR_standard standard narrow⟩⟩

end Sys2Proof.Machine
end

section
/-! SUPPORT. `get` and `set` of HOST (42_register_access.md R163 to R171): each identifier by itself, and
`get` after `set`. -/

namespace Sys2Proof.Machine

section
variable {s : State} (built : s.tableBuilt = true)
include built

/-- R163 to R166: after the first reset `get` answers the identifier's value and writes nothing else. -/
theorem exec_get (reg : RegId) :
    exec (.get reg) s = .next { s with result := some (.value (regValue reg s)) } :=
  afterFirstReset_built built _

/-- R167 to R170: after the first reset `set` completes with no answer. -/
theorem exec_set (reg : RegId) (v : Word) :
    exec (.set reg v) s = .next { setReg reg v s with result := none } :=
  afterFirstReset_built built fun s => replyNone (setReg reg v s)

end

/-- R166, R170: the identifiers the engine does not hold read 0 and store nothing. -/
theorem unsupported_reg {n : Int} {r : RegId}
    (h : r ∈ [RegId.usp, .prefAddr, .prefData, .ppc, .ir, .other n]) :
    (∀ s, regValue r s = 0) ∧ ∀ v s, setReg r v s = s := by
  simp only [List.mem_cons, List.not_mem_nil, or_false] at h
  obtain rfl | rfl | rfl | rfl | rfl | rfl := h <;> exact ⟨fun _ => rfl, fun _ _ => rfl⟩

/-- Settles O38: the answer of `get` (`exec_get`) on the sixteen registers. -/
theorem getReturnsGeneralRegisters : Obligations.GetReturnsGeneralRegisters :=
  fun _ j built => ⟨exec_get built (.d j), exec_get built (.a j)⟩

/-- Settles O40: the store of `set` (`exec_set`) on the sixteen registers. -/
theorem setStoresGeneralRegisters : Obligations.SetStoresGeneralRegisters :=
  fun _ j v built => ⟨exec_set built (.d j) v, exec_set built (.a j) v⟩

/-- Settles O39: the value of each identifier; the status word as a number is `toNat_packSR_standard`. -/
theorem getReturnsTheOtherIdentifiers : Obligations.GetReturnsTheOtherIdentifiers := by
  intro s n built
  refine ⟨exec_get built .pc, exec_get built .sr, fun standard narrow => ?number, ?stackPointer,
    fun r unsupported => ?zero⟩
  case number =>
    rw [← toNat_packSR_standard standard narrow, BitVec.ofNat_toNat]
    exact exec_get built .sr
  case stackPointer => rw [exec_get built, exec_get built]; rfl
  case zero => rw [exec_get built, (unsupported_reg unsupported).1]

/-- R162 under the spec's own layout: the fields are bits 15, 13, 10 to 8 and 4 to 0. -/
theorem unpackSR_standard {s : State} (standard : s.params.srLayout = Params.standard.srLayout) (v : Word) :
    unpackSR (v.setWidth 16) s = { s with
      trace      := v.getLsbD 15
      supervisor := v.getLsbD 13
      mask       := BitVec.ofNat 3 (v.toNat / 256)
      cc         := BitVec.ofNat 16 (v.toNat % 32) } := by
  have places : Params.standard.srLayout = ⟨15, 13, 8, 0, 5⟩ := rfl
  have mask : (v.setWidth 16).extractLsb' 8 3 = BitVec.ofNat 3 (v.toNat / 256) :=
    BitVec.eq_of_toNat_eq (by simp [Nat.shiftRight_eq_div_pow]; omega)
  have cc : SrLayout.ccField ⟨15, 13, 8, 0, 5⟩ (v.setWidth 16 >>> 0) = BitVec.ofNat 16 (v.toNat % 32) :=
    BitVec.eq_of_toNat_eq (by simp [SrLayout.ccField, Nat.and_two_pow_sub_one_eq_mod (n := 5)]; omega)
  rw [unpackSR, standard, places, mask, cc]
  simp

/-- Settles O41: each identifier's store. -/
theorem setWritesTheOtherIdentifiers : Obligations.SetWritesTheOtherIdentifiers := by
  intro s v n built
  refine ⟨exec_set built .pc v, exec_set built .sr v, fun standard => ?bits, ?stackPointer,
    fun r unsupported => ?nothing⟩
  case bits => rw [exec_set built, setReg, unpackSR_standard standard]
  case stackPointer => rw [exec_set built, exec_set built]; rfl
  case nothing => rw [exec_set built, (unsupported_reg unsupported).2]

/-- R162 ignores the upper half of the value, R161 answers it clear. -/
theorem setWidth_and_fields (v : Word) (f : HalfWord) :
    (v.setWidth 16 &&& f).setWidth 32 = v &&& f.setWidth 32 := by
  refine BitVec.eq_of_getLsbD_eq fun i hi => ?_
  by_cases low : i < 16
  · simp [low, hi]
  · simp [low, BitVec.getLsbD_of_ge f i (by omega)]

/-- R162, then R161: the status word reads back masked to its fields. -/
theorem regValue_setReg_sr (v : Word) (s : State) :
    regValue .sr (setReg .sr v s) = v &&& s.params.srLayout.fieldBits.setWidth 32 :=
  (congrArg (BitVec.setWidth 32) (packSR_unpackSR (v.setWidth 16) s)).trans (setWidth_and_fields v _)

/-- Settles O42: `get` reads what `set` stored, identifier by identifier. -/
theorem getAfterSetReturnsTheValue : Obligations.GetAfterSetReturnsTheValue := by
  intro s t u reg v _ stored read
  cases afterFirstReset_next (k := fun s => replyNone (setReg reg v s)) stored
  cases afterFirstReset_next (k := fun t => reply (.value (regValue reg t)) t) read
  refine ⟨congrArg (fun w => some (Result.value w)) ?_, fieldBits_standard⟩
  rw [replyNone, regValue_result]
  cases reg
  case d j => exact get_set_same s.d j v
  case a j => exact get_set_same s.a j v
  case sp => exact stackPointer_setA_seven s v
  case sr => exact regValue_setReg_sr v s
  all_goals rfl

end Sys2Proof.Machine
end

section
/-! SUPPORT. The commands of the acknowledge callback (42_register_access.md R172, 60_exceptions.md R190,
R193): the rest of a delivery is made at the state they leave. -/

namespace Sys2Proof.Machine

/-- Ending the stop of a processor that is awake changes nothing. -/
theorem withStopped_awake {s : State} (awake : s.stopped = false) : { s with stopped := false } = s := by
  cases s
  cases awake
  rfl

section
variable {s u : State} {l : BitVec 3} {cmds : List CollabCmd} {answer : AckAnswer} {rest : List AckRun}

/-- R193 under the default BUS with a callback that answers alone, at a state `u` that reads as `s` what
no command of a callback can change. -/
theorem deliver_alone_default (mem : u.mem = s.mem) (params : u.params = s.params)
    (debt : u.interruptCycles = s.interruptCycles) (awake : u.stopped = false) (quiet : u.DefaultBus)
    {v : Nat} (selects : AnswerSelects s.params l answer v) :
    deliver l { u with ackRuns := ⟨[], answer⟩ :: rest } = { u with
      ackRuns         := rest
      supervisor      := true
      mask            := l
      a               := u.a.set 7 (u.a.get 7 - 6)
      mem             := s.withFrame (u.a.get 7) u.pc (packSR u)
      pc              := if s.load .long (BitVec.ofNat 32 (v * 4)) = 0
                         then s.load .long (BitVec.ofNat 32 (s.params.vecUninitializedInterrupt.toNat * 4))
                         else s.load .long (BitVec.ofNat 32 (v * 4))
      interruptCycles := s.interruptCycles + s.params.irqServiceCycles } := by
  cases u
  cases mem
  cases params
  cases debt
  cases awake
  exact deliveryEntersTheSelectedVector _ l rest v quiet ⟨answer, rfl, selects⟩

/-- The state the commands of the callback leave, the stop ended first (R193 step 1). -/
abbrev afterCallback (cmds : List CollabCmd) (s : State) : State :=
  collabTurn latchIRQ cmds { s with stopped := false }

theorem afterCallback_params : (afterCallback cmds s).params = s.params :=
  (collabTurn_confined latchIRQ_confined cmds _).params

theorem afterCallback_latched : Latched { s with stopped := false } (afterCallback cmds s) :=
  collabTurn_latched cmds _

variable (turn : s.ackRuns = ⟨cmds, answer⟩ :: rest)
include turn

/-- R172, R193: the delivery is the one after the callback's commands, the callback answering alone. -/
theorem deliver_afterCallback :
    deliver l s = deliver l { afterCallback cmds s with ackRuns := ⟨[], answer⟩ :: rest } := by
  have left : collabTurn latchIRQ cmds { s with stopped := false, ackRuns := rest } =
      { afterCallback cmds s with stopped := false, ackRuns := rest } :=
    (collabTurn_withAckRuns rest cmds { s with stopped := false }).trans
      (withStopped_awake (s := { afterCallback cmds s with ackRuns := rest })
        afterCallback_latched.stopped).symm
  rw [deliver_listed turn,
    deliver_listed (s := { afterCallback cmds s with ackRuns := ⟨[], answer⟩ :: rest }) rfl]
  simp only [left, afterCallback_params, collabTurn]

/-- R172, R193 under the default BUS: the whole next state over what the callback left. -/
theorem deliver_afterCallback_default (quiet : s.DefaultBus) {v : Nat}
    (selects : AnswerSelects s.params l answer v) :
    let u := afterCallback cmds s
    deliver l s = { u with
      ackRuns         := rest
      supervisor      := true
      mask            := l
      a               := u.a.set 7 (u.a.get 7 - 6)
      mem             := s.withFrame (u.a.get 7) u.pc (packSR u)
      pc              := if s.load .long (BitVec.ofNat 32 (v * 4)) = 0
                         then s.load .long (BitVec.ofNat 32 (s.params.vecUninitializedInterrupt.toNat * 4))
                         else s.load .long (BitVec.ofNat 32 (v * 4))
      interruptCycles := s.interruptCycles + s.params.irqServiceCycles } := by
  have same : Latched { s with stopped := false } (afterCallback cmds s) := afterCallback_latched
  exact (deliver_afterCallback turn).trans (deliver_alone_default same.mem afterCallback_params
    same.interruptCycles same.stopped (same.busEvents.trans quiet) selects)

end

/-- Settles O51: the two rules above; the listed commands are what the frame is built from, and A[7], the
latch and the mask are read off the next state. -/
theorem acknowledgeCommandsAreSeenByTheDelivery : Obligations.AcknowledgeCommandsAreSeenByTheDelivery := by
  intro s l cmds answer rest turn u
  refine ⟨deliver_afterCallback turn,
    fun v quiet selects => deliver_afterCallback_default turn quiet selects,
    fun x y w l' quiet auto issued => ?_⟩
  subst issued
  have sp : u.a.get 7 = x := get_set_same s.a 7 x
  have status : packSR u = packSR (unpackSR (w.setWidth 16) s) := rfl
  rw [deliver_afterCallback_default turn quiet (.inl ⟨auto, rfl⟩)]
  refine ⟨?stackPointer, rfl, rfl, rfl, rfl, ?frame⟩
  case stackPointer => exact (get_set_same u.a 7 _).trans (congrArg (· - 6) sp)
  case frame => exact congrArg₂ (s.withFrame · y ·) sp status

end Sys2Proof.Machine
end

section
/-! SUPPORT. Interrupt requests and their resolution (60_exceptions.md R184 to R202): the pushed frame as
two writes, the latch and the arbitration of a request, the delivery that is abandoned, and what no
iteration without a request changes. -/

namespace Sys2Proof.Machine

/-! ## The frame (R184) -/

/-- R184: the two decrements of the stack pointer take 6 from it. -/
theorem sub_four_sub_two (sp : Word) : sp - 4 - 2 = sp - 6 := by bv_omega

/-- Settles O13, by `pushFrame_default`: a frame is two stores (`withFrame`) that do not overlap. -/
theorem pushFrameWritesLongThenWord : Obligations.PushFrameWritesLongThenWord := by
  intro s raise savedPC savedSR quiet
  rw [pushFrame_default quiet]
  refine ⟨?twoWrites, fun wf => ?readsBack⟩
  case twoWrites =>
    rw [sub_four_sub_two, Vector.set_set]
    rfl
  case readsBack =>
    have sp : (setA 7 (stackPointer s - 6) s).a.get 7 = s.a.get 7 - 6 := stackPointer_setA_seven s _
    have above : s.a.get 7 - 6 + 2 = s.a.get 7 - 4 := by bv_omega
    simp only [State.load, sp, above, true_and]
    exact ⟨withFrame_load_sr _ _ _ wf, withFrame_load_pc _ _ _ wf⟩

/-! ## A request (R187) -/

section
variable {s : State} {l : BitVec 3}

theorem requestIRQ_running (running : s.stopped = false) : requestIRQ l s = latchIRQ l s := by
  simp [requestIRQ, running]

theorem requestIRQ_stopped (stopped : s.stopped = true) : requestIRQ l s = resolveIRQ l s := if_pos stopped

/-- R187: HOST's request to a running processor is latched. -/
theorem exec_raiseIRQ_running (built : s.tableBuilt = true) (running : s.stopped = false) (l : BitVec 3) :
    exec (.raiseIRQ l.toNat) s = .next (latchIRQ l (replyNone s)) := by
  rw [exec_raiseIRQ_level built, requestIRQ_running (s := replyNone s) running]

/-- R187: HOST's request to a stopped processor is resolved at once. -/
theorem exec_raiseIRQ_stopped (built : s.tableBuilt = true) (stopped : s.stopped = true) (l : BitVec 3) :
    exec (.raiseIRQ l.toNat) s = .next (resolveIRQ l (replyNone s)) := by
  rw [exec_raiseIRQ_level built, requestIRQ_stopped (s := replyNone s) stopped]

/-- R187, R188: a level that does not qualify records itself on a stopped processor, and no more. -/
theorem exec_raiseIRQ_stopped_ignored (built : s.tableBuilt = true) (stopped : s.stopped = true)
    (ignored : ¬ s.Accepts l) :
    exec (.raiseIRQ l.toNat) s = .next { s with intLevel := l, result := none } := by
  rw [exec_raiseIRQ_stopped built stopped, resolveIRQ_ignored (s := replyNone s) ignored]
  rfl

/-- Settles O45, by the two rules of R187; the second request overwrites what the first wrote. -/
theorem raiseLatchesOrResolves : Obligations.RaiseLatchesOrResolves := by
  intro s l
  refine ⟨fun built running => exec_raiseIRQ_running built running l,
    fun built stopped => exec_raiseIRQ_stopped built stopped l, exec_raiseIRQ_stopped_ignored,
    fun l' t built running first => ?overwrites, fun n outside => if_pos outside, fun fresh => ?refused⟩
  case overwrites =>
    rw [exec_raiseIRQ_running built running] at first
    cases first
    rw [exec_raiseIRQ_running built running,
      exec_raiseIRQ_running (s := latchIRQ l (replyNone s)) built running]
    rfl
  case refused =>
    obtain ⟨-, raise, -⟩ := commandsBeforeTheFirstReset s fresh
    exact raise l

end

/-! ## The recorded level (R188) -/

section
variable (s : State)

/-- Inside a delivery a request latches (`collabTurn_latched`), so no bus call resolves a level. -/
@[simp] theorem afterRead_latchIRQ_intLevel : (afterRead latchIRQ s).intLevel = s.intLevel :=
  (collabTurn_latched _ _).intLevel

@[simp] theorem push_latchIRQ_intLevel (size : Size) (v : Word) : (push latchIRQ size v s).intLevel = s.intLevel :=
  (collabTurn_latched _ _).intLevel

@[simp] theorem fetchVector_latchIRQ_intLevel (fallback : Bool) (vector : Byte) :
    (fetchVector latchIRQ fallback vector s).after.intLevel = s.intLevel := by
  unfold fetchVector
  split <;> simp

@[simp] theorem afterAck_intLevel (level : BitVec 3) : (afterAck level s).intLevel = s.intLevel :=
  (collabTurn_latched _ _).intLevel

@[simp] theorem enterInterrupt_intLevel (level : BitVec 3) (vector : Byte) :
    (enterInterrupt level vector s).intLevel = s.intLevel := by
  simp [enterInterrupt, enterVector, pushFrame]

/-- R193: a delivery leaves the level the resolution recorded. -/
@[simp] theorem deliver_intLevel (level : BitVec 3) : (deliver level s).intLevel = s.intLevel := by
  unfold deliver
  simp only
  split <;> simp

end

/-- Settles O46: the two branches of R188, and a delivery keeps the recorded level (`deliver_intLevel`). -/
theorem resolutionArbitratesByPriority : Obligations.ResolutionArbitratesByPriority := by
  intro s l
  refine ⟨?level, resolveIRQ_ignored, resolveIRQ_accepted⟩
  by_cases accepts : s.Accepts l
  · rw [resolveIRQ_accepted accepts, deliver_intLevel]
  · rw [resolveIRQ_ignored accepts]

/-! ## A malformed acknowledge (R192) -/

section
variable {s : State} {l : BitVec 3} {n : Word}

/-- R101: a number above 255 is no vector number. -/
theorem vectorNumber_above (above : 255 < n.toNat) : vectorNumber n = none := if_neg (by omega)

/-- R101, R192: an answer above 255 that is no sentinel selects no vector, in either form. -/
theorem ackVector_above {p : Params} {answer : AckAnswer} (above : 255 < n.toNat)
    (form : answer = .vector n ∨ n ≠ p.ackAutovector ∧ n ≠ p.ackSpurious ∧ answer = .integer n) :
    ackVector p l answer = none := by
  obtain rfl | ⟨notAuto, notSpurious, rfl⟩ := form
  · exact vectorNumber_above above
  · rw [ackVector, if_neg notAuto, if_neg notSpurious, vectorNumber_above above]

/-- R192, R193: an accepted level whose callback answers alone and selects no vector ends the stop. -/
theorem resolveIRQ_abandoned {answer : AckAnswer} {rest : List AckRun} (accepts : s.Accepts l)
    (turn : s.ackRuns = ⟨[], answer⟩ :: rest) (malformed : ackVector s.params l answer = none) :
    resolveIRQ l s = { s with intLevel := l, stopped := false, ackRuns := rest } := by
  rw [resolveIRQ_accepted accepts, deliver_listed (s := { s with intLevel := l }) turn, malformed]
  rfl

/-- Settles O49, by `resolveIRQ_abandoned`, at once for a stopped processor (R187). -/
theorem malformedAcknowledgeAbandonsDelivery : Obligations.MalformedAcknowledgeAbandonsDelivery := by
  intro s l rest n accepts above listed
  obtain ⟨answer, turn, form⟩ : ∃ answer, s.ackRuns = ⟨[], answer⟩ :: rest ∧
      (answer = .vector n ∨
        n ≠ s.params.ackAutovector ∧ n ≠ s.params.ackSpurious ∧ answer = .integer n) := by
    obtain turn | ⟨notAuto, notSpurious, turn⟩ := listed
    · exact ⟨_, turn, .inl rfl⟩
    · exact ⟨_, turn, .inr ⟨notAuto, notSpurious, rfl⟩⟩
  have malformed := ackVector_above (l := l) above form
  refine ⟨resolveIRQ_abandoned accepts turn malformed, fun built stopped => ?_⟩
  rw [exec_raiseIRQ_stopped built stopped, resolveIRQ_abandoned (s := replyNone s) accepts turn malformed]
  rfl

end

/-! ## A delivered request (R193) -/

/-- R187 to R193 under the default BUS: an accepted level with a selected vector, the whole next state. -/
theorem resolveIRQ_delivered {s : State} {l : BitVec 3} {rest : List AckRun} {v : Nat} (accepts : s.Accepts l)
    (quiet : s.DefaultBus) (selects : s.AckSelects l rest v) :
    resolveIRQ l s = { s with
      intLevel        := l
      stopped         := false
      ackRuns         := rest
      supervisor      := true
      mask            := l
      a               := s.a.set 7 (s.a.get 7 - 6)
      mem             := s.withFrame (s.a.get 7) s.pc (packSR s)
      pc              := if s.load .long (BitVec.ofNat 32 (v * 4)) = 0
                         then s.load .long (BitVec.ofNat 32 (s.params.vecUninitializedInterrupt.toNat * 4))
                         else s.load .long (BitVec.ofNat 32 (v * 4))
      interruptCycles := s.interruptCycles + s.params.irqServiceCycles } := by
  rw [resolveIRQ_accepted accepts]
  exact deliveryEntersTheSelectedVector { s with intLevel := l } l rest v quiet selects

/-- Settles O48: a stopped processor's request is resolved at once; delivered it leaves the record of
`resolveIRQ_delivered`, else its level only. -/
theorem stoppedProcessorWakesOnlyOnQualifyingRequest :
    Obligations.StoppedProcessorWakesOnlyOnQualifyingRequest := by
  intro s l rest v built stopped quiet selects
  refine ⟨fun accepts => ⟨_, exec_raiseIRQ_stopped built stopped l, ?_⟩,
    exec_raiseIRQ_stopped_ignored built stopped⟩
  rw [resolveIRQ_delivered (s := replyNone s) accepts quiet selects]
  exact ⟨rfl, rfl, rfl, rfl, rfl, get_set_same s.a 7 _, rfl, rfl, rfl, rfl, rfl,
    fun j other => get_set_other s.a _ other.symm, rfl, rfl⟩

/-! ## The edge of level 7 (R194, R197, R202) -/

section
variable {s : State} {l : BitVec 3}

/-- R197, R202: after a delivery of level 7 no level is accepted, no second 7 either. -/
theorem not_accepts_after_seven (level : s.intLevel = 7) (mask : s.mask = 7) : ¬ s.Accepts l := by
  rintro (⟨other, -⟩ | above)
  · exact other level
  · rw [mask] at above
    bv_omega

/-- R189: level 0 is no transition into 7 and above no mask. -/
theorem not_accepts_zero : ¬ s.Accepts 0 := by
  rintro (⟨-, seven⟩ | above)
  · exact absurd seven (by decide)
  · exact BitVec.not_lt_zero above

/-- R197: a recorded level below 7 makes level 7 a transition again. -/
theorem accepts_seven_of_lower (lower : l < 7) : State.Accepts { s with intLevel := l } 7 :=
  .inl ⟨fun seven => by simp [show l = 7 from seven] at lower, rfl⟩

/-- Recording the level that is already recorded changes nothing. -/
theorem withIntLevel_self (level : s.intLevel = l) : { s with intLevel := l } = s := by
  cases s
  cases level
  rfl

end

/-- Settles O50: the first 7 is a transition and delivered, and at level and mask 7 nothing is accepted
(`not_accepts_after_seven`), so every later level only records itself. -/
theorem levelSevenIsAnEdge : Obligations.LevelSevenIsAnEdge := by
  intro s rest v quiet selects other t
  have delivered := resolveIRQ_delivered (.inl ⟨other, rfl⟩) quiet selects
  have level : t.intLevel = 7 := congrArg State.intLevel delivered
  have mask : t.mask = 7 := congrArg State.mask delivered
  have records (l : BitVec 3) : resolveIRQ l t = { t with intLevel := l } :=
    resolveIRQ_ignored (not_accepts_after_seven level mask)
  refine ⟨congrArg State.interruptCycles delivered, level, mask,
    (records 7).trans (withIntLevel_self level), fun l _ => records l, fun l lower => ?rearmed,
    resolveIRQ_ignored not_accepts_zero⟩
  case rearmed =>
    rw [records l]
    exact accepts_seven_of_lower lower

/-! ## An iteration without a request (R186, R196) -/

/-- R183: on a silent bus an illegal word brings no interrupt. -/
theorem illegalOpcode_control {s : State} (silent : s.SilentBus) (vector : Byte) :
    EnginePart.control.Same s (illegalOpcode vector s) := by
  obtain ⟨events, pc, mem, e, -⟩ := takeException_silent silent vector
  rw [illegalOpcode, e]
  rfl

/-- R118, R183: on a silent bus no instruction word writes a latch, the debt or the acknowledge calls. -/
theorem exec_word_control {i : Instr} (word : IsWord i) {s t : State} (silent : s.SilentBus)
    (h : exec i s = .next t) : EnginePart.control.Same s t := by
  obtain ⟨p, rfl⟩ | ⟨p, rfl⟩ | ⟨op, rfl⟩ | ⟨op, rfl⟩ := word
  · cases h; exact illegalOpcode_control silent _
  · cases h; exact illegalOpcode_control silent _
  · cases h; exact illegalOpcode_control silent _
  · cases slot : s.table.lookup op with
    | illegal =>
      simp only [exec, execExternal, slot] at h
      cases h
      exact illegalOpcode_control silent _
    | external id =>
      rw [exec_external slot] at h
      cases h
      exact callHandler_same silent op id (part := .control) nofun fun _ _ => not_false

/-- Settles O52: an iteration returns, which clears the debt, or dispatches a word, which writes no latch
(`exec_word_control`), before a loop test that may return. -/
theorem noInterruptWithoutARequest : Obligations.NoInterruptWithoutARequest := by
  intro s t inside noIrq silent noHook h
  obtain ⟨-, -, iteration⟩ | rfl | ⟨outside, -⟩ := step_cases h
  · obtain ⟨-, rfl⟩ | ⟨-, -, rfl⟩ | ⟨-, -, u, run, rfl⟩ := coreStep_cases iteration
    · exact ⟨rfl, noIrq, rfl, rfl, .inr ⟨rfl, rfl⟩⟩
    · exact ⟨rfl, noIrq, rfl, rfl, .inr ⟨rfl, rfl⟩⟩
    · rw [boundary_plain noIrq noHook, afterFetch, afterRead_silent silent] at run
      have control := exec_word_control (decodeWord_isWord _ _) (by exact silent_tail silent) run
      simp only [EnginePart.Same, Prod.mk.injEq] at control
      obtain ⟨debt, -, level, pending, latched, -, acks, -⟩ := control
      obtain goesOn | ⟨-, ends⟩ := loopEnd_cases u
      · rw [goesOn]
        exact ⟨level, pending.trans noIrq, latched, acks, .inl debt⟩
      · rw [ends]
        exact ⟨level, pending.trans noIrq, latched, acks, .inr ⟨rfl, rfl⟩⟩
  · exact ⟨rfl, noIrq, rfl, rfl, .inl rfl⟩
  · rw [inside] at outside
    cases outside

end Sys2Proof.Machine
end

section
/-! SUPPORT. The reset vectors byte by byte (20_memory.md R63; 70_reset_and_hazards.md R231): a long of
the big-endian BUS from the four bytes it lies over, and the example of the two longs at 0 and 4. -/

namespace Sys2Proof.Machine

/-- R63: under the big-endian order a long is the four bytes at its address and after it, high byte
first. -/
theorem load_long_big {s : State} (big : s.params.byteOrder = .big) (x : Word) :
    s.load .long x = s.byteAt x.toNat ++ s.byteAt (x + 1).toNat ++ s.byteAt (x + 2).toNat ++
      s.byteAt (x + 3).toNat := by
  simp [State.load, Memory.load, State.byteAt, big, laneAddress]

/-- R231: the eight bytes 00 00 10 00 00 00 20 00 hold the longs 0x1000 and 0x2000. -/
theorem resetVectors_of_bytes {s : State} (big : s.params.byteOrder = .big)
    (bytes : [0, 1, 2, 3, 4, 5, 6, 7].map s.byteAt = [0, 0, 0x10, 0, 0, 0, 0x20, 0]) :
    s.load .long 0 = 0x1000 ∧ s.load .long 4 = 0x2000 := by
  simp only [List.map_cons, List.map_nil, List.cons.injEq, and_true] at bytes
  obtain ⟨b0, b1, b2, b3, b4, b5, b6, b7⟩ := bytes
  constructor
  · simp [load_long_big big, b0, b1, b2, b3]
  · simp [load_long_big big, b4, b5, b6, b7]

/-- Settles O19: a reset loads A[7] and the pc from 0 and 4 (`resetLeavesTheStatedValues`), and the
eight bytes are those two longs (`resetVectors_of_bytes`). -/
theorem resetLoadsStackPointerAndPc : Obligations.ResetLoadsStackPointerAndPc := by
  intro s outside built quiet given
  have ⟨spLong, pcLong⟩ : s.load .long 0 = 0x1000 ∧ s.load .long 4 = 0x2000 :=
    given.elim id fun ⟨big, bytes⟩ => resetVectors_of_bytes big bytes
  obtain ⟨t, run, -, -, -, -, -, -, -, -, -, sp, pc, -⟩ :=
    resetLeavesTheStatedValues s s.table outside quiet (.inl ⟨built, rfl⟩)
  have spValue : t.a.get 7 = 0x1000 := sp.trans spLong
  exact ⟨t, run, spValue, spValue, pc.trans pcLong⟩

end Sys2Proof.Machine
end
